-- ==== Sys2Proof/Word.lean ====
section
/-! DEFINITION. The words of the block: 64-bit registers and command words, bytes and the 256-entry tables indexed by a byte. -/

namespace Sys2Proof

/-- A REG register, or a command word: 64 bits (10_state.md R20, 30_encoding.md R80). -/
abbrev Word := BitVec 64

/-- A byte of IN_MEM or OUT_MEM; also a symbol, "one input byte value (0-255)" (00_scope.md R13). -/
abbrev Byte := BitVec 8

/-- A table with one entry per symbol of the 256-symbol alphabet (00_scope.md R6). -/
abbrev SymbolTable (α : Type) := Vector α 256

end Sys2Proof
end

