-- ==== Sys2Proof/Config.lean ====
section
/-! DEFINITION. What one build of the block fixes (the OPEN parameters of 00_scope.md R6) and the free values (draws). -/

namespace Sys2Proof

/-- The three host spaces (20_memory.md R60): REG, IN and OUT. -/
inductive HostSpace where
  | reg
  | input
  | output
  deriving DecidableEq, Repr

/-- BUS_BINDING: how the three host spaces map onto a physical bus, "base addresses, data width, protocol" (00_scope.md R6).
Any binding delivers each transaction whole and in the host's issue order (20_memory.md R61), so no result of the
block depends on it (92_eei_decisions.md D1; log 4). -/
structure BusBinding where
  /-- Base address of the REG space. -/
  regBase : Nat
  /-- Base address of the IN space. -/
  inBase : Nat
  /-- Base address of the OUT space. -/
  outBase : Nat
  /-- Data width of the bus, in bits. -/
  dataWidth : Nat
  /-- The bus protocol, by a number. -/
  protocol : Nat
  deriving DecidableEq, Repr, Inhabited

/-- The base address of a host space. -/
def BusBinding.base (b : BusBinding) : HostSpace → Nat
  | .reg => b.regBase
  | .input => b.inBase
  | .output => b.outBase

/-- The OPEN parameters of a build of the block: the sizes of IN_MEM and OUT_MEM in bytes, and BUS_BINDING
(00_scope.md R6; 93_implementation_defined.md I17). -/
structure Config where
  /-- IN_CAP, the size of IN_MEM in bytes; register CAP_IN reads it (10_state.md R35). -/
  inCap : Word
  /-- OUT_CAP, the size of OUT_MEM in bytes; register CAP_OUT reads it (10_state.md R35). -/
  outCap : Word
  /-- BUS_BINDING, the placement of the three host spaces on a physical bus (00_scope.md R6). -/
  binding : BusBinding
  deriving DecidableEq, Repr

/-- IN_CAP - 1, an OPEN parameter: with 56 bits, IN_CAP ranges over exactly 1 to 2^56 (00_scope.md R6; log 3). -/
opaque Config.inCapLessOne : BitVec 56

/-- OUT_CAP - 1, an OPEN parameter: with 56 bits, OUT_CAP ranges over exactly 1 to 2^56 (00_scope.md R6; log 3). -/
opaque Config.outCapLessOne : BitVec 56

/-- BUS_BINDING, an OPEN parameter: nothing is known of it (00_scope.md R6; log 4). -/
opaque Config.busBinding : BusBinding

/-- The distance of item n of a host space from the base address of the space: register number n, or byte n. The spec
leaves it to the binding (20_memory.md R70), so nothing is known of it (log 4). -/
opaque Config.busOffset : BusBinding → HostSpace → Nat → Nat

/-- The parameters of the block at hand, which the spec leaves OPEN (log 3). -/
def Config.chip : Config where
  inCap := BitVec.ofNat 64 (Config.inCapLessOne.toNat + 1)
  outCap := BitVec.ofNat 64 (Config.outCapLessOne.toNat + 1)
  binding := Config.busBinding

/-- The n-th draw: "a value the model leaves free, under no law" (00_scope.md R10; log 5). It has no body, so nothing
can be proved of its value. -/
opaque Config.draw : Nat → Word

end Sys2Proof
end

