-- ==== Sys2Proof/Syntax.lean ====
section
/-! DEFINITION. The commands of the block: one constructor per row of spec/opcode_table.json. A command word has no
operand fields (30_encoding.md R80), so no constructor has arguments. -/

namespace Sys2Proof

/-- A command (30_encoding.md R82). -/
inductive Instr where
  /-- NOP (47_control.md R214). -/
  | nop
  /-- ENCODE (47_control.md R212). -/
  | encode
  /-- DECODE (47_control.md R213). -/
  | decode
  /-- FREQ (41_freq_model.md R110). -/
  | freq
  /-- BUILD_TREE (42_tree_builder.md R120). -/
  | buildTree
  /-- GEN_CODES (43_code_table_gen.md R140). -/
  | genCodes
  /-- PACK (44_bitpacker.md R150). -/
  | pack
  /-- DESERIALIZE (46_container.md R196). -/
  | deserialize
  /-- UNPACK (45_bitunpacker.md R170). -/
  | unpack
  /-- CLEAR (47_control.md R215). -/
  | clear
  deriving DecidableEq, Repr

end Sys2Proof
end

