-- ==== Sys2Proof/WellFormed.lean ====
section
/-! DEFINITION. Well-formed terms: commands, command words and configurations. -/

namespace Sys2Proof

/-- Every command is well formed: it has no operand fields that could be out of range (30_encoding.md R80). -/
def Instr.wf : Instr → Bool
  | .nop | .encode | .decode | .freq | .buildTree | .genCodes | .pack | .deserialize | .unpack | .clear => true

/-- The OP field of a command word, bits 3:0 (30_encoding.md R81). -/
def wordOp (w : Word) : BitVec 4 := w.extractLsb' 0 4

/-- The RSV field of a command word, bits 63:4 (30_encoding.md R81). -/
def wordRsv (w : Word) : BitVec 60 := w.extractLsb' 4 60

/-- OP values 0x9 to 0xE are reserved (30_encoding.md R82, R84). -/
def opAssigned (op : BitVec 4) : Bool := op.toNat < 0x9 || op.toNat == 0xF

/-- A legal command word: RSV is 0 and OP is assigned (30_encoding.md R81, R84). -/
def wordLegal (w : Word) : Bool := wordRsv w == 0 && opAssigned (wordOp w)

/-- The largest capacity a build may have, 2^56 bytes (00_scope.md R6). -/
abbrev maxCap : Nat := 2 ^ 56

/-- The range of the OPEN parameters: 1 <= IN_CAP, OUT_CAP <= 2^56 (00_scope.md R6). -/
def Config.wf (c : Config) : Bool :=
  1 ≤ c.inCap.toNat && c.inCap.toNat ≤ maxCap && 1 ≤ c.outCap.toNat && c.outCap.toNat ≤ maxCap

end Sys2Proof
end

