-- ==== Sys2Proof/Decode.lean ====
section
/-! DEFINITION. Decoding a command word, total and rejecting by name, from the opcode table of 30_encoding.md R82; and
encoding, from the same table. -/

namespace Sys2Proof

/-- Why a command word is illegal (30_encoding.md R84). -/
inductive DecodeReject where
  /-- RSV (bits 63:4) is not 0, "whatever its OP" (30_encoding.md R81). -/
  | reservedBits
  /-- RSV is 0 and OP is one of 0x9 to 0xE. -/
  | reservedOpcode
  deriving DecidableEq, Repr

/-- One row of the opcode table: a word w selects the command exactly when (w AND mask) = pattern (30_encoding.md R82). -/
structure OpcodeRow where
  instr : Instr
  pattern : Word
  mask : Word
  deriving DecidableEq, Repr

/-- The mask of every row: the whole word must equal the match value (30_encoding.md R82). -/
abbrev wholeWord : Word := 0xFFFFFFFFFFFFFFFF#64

/-- The opcode table (30_encoding.md R82; spec/opcode_table.json). -/
def opcodeTable : List OpcodeRow :=
  [ ⟨.nop, 0x0000000000000000#64, wholeWord⟩,
    ⟨.encode, 0x0000000000000001#64, wholeWord⟩,
    ⟨.decode, 0x0000000000000002#64, wholeWord⟩,
    ⟨.freq, 0x0000000000000003#64, wholeWord⟩,
    ⟨.buildTree, 0x0000000000000004#64, wholeWord⟩,
    ⟨.genCodes, 0x0000000000000005#64, wholeWord⟩,
    ⟨.pack, 0x0000000000000006#64, wholeWord⟩,
    ⟨.deserialize, 0x0000000000000007#64, wholeWord⟩,
    ⟨.unpack, 0x0000000000000008#64, wholeWord⟩,
    ⟨.clear, 0x000000000000000F#64, wholeWord⟩ ]

/-- A word selects a row when it agrees with the pattern under the mask (30_encoding.md R82). -/
def OpcodeRow.selects (r : OpcodeRow) (w : Word) : Bool := w &&& r.mask == r.pattern

/-- Decoding is total (30_encoding.md R83): the row whose match equals the word, or the reason the word is illegal (R84). -/
def decode (w : Word) : Except DecodeReject Instr :=
  match opcodeTable.find? (fun r => r.selects w) with
  | some r => .ok r.instr
  | none => if wordRsv w == 0 then .error .reservedOpcode else .error .reservedBits

/-- The OP value of a command (30_encoding.md R82). It is also the number of the stage in STATUS.ERR_STAGE
(10_state.md R24). -/
def Instr.opcode : Instr → BitVec 4
  | .nop => 0x0
  | .encode => 0x1
  | .decode => 0x2
  | .freq => 0x3
  | .buildTree => 0x4
  | .genCodes => 0x5
  | .pack => 0x6
  | .deserialize => 0x7
  | .unpack => 0x8
  | .clear => 0xF

/-- The command word of a command: OP in bits 3:0 and RSV = 0 (30_encoding.md R81). -/
def encode (i : Instr) : Word := (i.opcode).setWidth 64

/-- The command the decoder reads from a word of nbits bits, the bits above nbits being 0. A command word is one 64-bit
word written whole (30_encoding.md R80, R83), so a longer word is no command (log 15). -/
def decodeTableWord (nbits w : Nat) : Option Instr :=
  if nbits ≤ 64 then (decode (BitVec.ofNat 64 (w % 2 ^ nbits))).toOption else none

end Sys2Proof
end

