-- ==== Sys2Proof/Machine/State.lean ====
section
/-! DEFINITION. The state of the block as plain data (10_state.md), the reasons a step can stop, and the state after
reset (10_state.md R45). -/

namespace Sys2Proof.Machine

/-- The model faults (60_exceptions.md R240). Each marks a host action whose hardware outcome the spec leaves open, so
stopping is safe: nothing can be proved of a run that causes one (R241). -/
inductive Fault where
  /-- Raised by a host InWrite, or a RegWrite of IN_LEN, while STATUS.BUSY = 1 (20_memory.md R66). Safe. -/
  | hostHazard
  /-- Raised by a command that reads IN_MEM[a] with IN_WRITTEN[a] = 0 (20_memory.md R64). Safe. -/
  | uninitRead (a : Nat)
  /-- Raised by a host access to an unmapped register number, to an IN or OUT address at or above the capacity, or by a
  host write to OUT (10_state.md R47; 20_memory.md R62, R63). Safe. -/
  | busError
  deriving DecidableEq, Repr

/-- Why a command has no meaning. -/
inductive Refusal where
  /-- Answered by exec alone, for a command that has no meaning yet; no arm does so now. Safe: a run stops there. -/
  | notModelled (mnemonic : String)
  deriving DecidableEq, Repr

/-- The error of the last completed command (60_exceptions.md R230). -/
inductive ErrKind where
  /-- NONE: the last command succeeded. -/
  | noError
  | emptyInput
  | malformedContainer
  | inconsistentFrequencyTable
  | illegalCommand
  | sequenceError
  | capacityExceeded
  deriving DecidableEq, Repr

/-- The fields of STATUS (10_state.md R24); its reserved bits read 0 and hold nothing. -/
structure Status where
  /-- BUSY: from the acceptance of a command until its completion step (R26). -/
  busy : Bool
  /-- DONE: a command completed (R26). -/
  done : Bool
  /-- ERR: the error of the last completed command. -/
  err : ErrKind
  /-- ERR_STAGE: the opcode of the stage that raised ERR. -/
  errStage : BitVec 4
  /-- LAST_CMD: bits 3:0 of the last accepted CTRL write. -/
  lastCmd : BitVec 4
  /-- FREQ_VALID (R27). -/
  freqValid : Bool
  /-- TREE_VALID (R27). -/
  treeValid : Bool
  /-- CODES_VALID (R27). -/
  codesValid : Bool
  /-- FREQ_SRC: false for FREQ over the input bytes, true for DESERIALIZE of a container (R27). -/
  freqSrc : Bool
  /-- CMD_DROPPED: sticky (47_control.md R211). -/
  cmdDropped : Bool
  deriving DecidableEq, Repr

/-- KIND of a node of the tree arena (10_state.md R39). -/
inductive NodeKind where
  | unused
  | leaf
  | internal
  deriving DecidableEq, Repr

/-- A node of the tree arena (10_state.md R39). Children are arena indices. -/
structure Node where
  kind : NodeKind
  symbol : Byte
  left : Nat
  right : Nat
  weight : Word
  deriving DecidableEq, Repr

/-- An unused node has all four fields 0 (10_state.md R40). -/
def Node.blank : Node := ⟨.unused, 0#8, 0, 0, 0#64⟩

/-- IN_MEM or OUT_MEM: the written bytes by address, addresses strictly rising. An address is listed exactly when its
IN_WRITTEN or OUT_WRITTEN mark is 1 (10_state.md R43); a byte not listed has no value (log 6). -/
abbrev Memory := List Host.Cell

/-- What the host does next: its transactions (20_memory.md R61), reset (70_reset_and_hazards.md R260), a write to OUT,
which a bus binding may expose (20_memory.md R63), and the two ways to wait for completion (30_encoding.md R90,
60_exceptions.md R246). -/
inductive HostOp where
  | regRead (n : BitVec 16)
  | regWrite (n : BitVec 16) (v : Word)
  | inWrite (a : Nat) (b : Byte)
  | inRead (a : Nat)
  | outRead (a : Nat)
  | outWrite (a : Nat) (b : Byte)
  | reset
  /-- WAIT: RegRead(STATUS), again until DONE = 1. -/
  | wait
  /-- Wait until irq = 1. -/
  | waitIrq
  deriving DecidableEq, Repr

/-- The two agents (00_scope.md R11). -/
inductive Agent where
  | host
  | core
  deriving DecidableEq, Repr

/-- The state of the block, and the host's side of the bus. -/
structure State where
  /-- IN_CAP, OUT_CAP and BUS_BINDING, fixed for the block (00_scope.md R6); CAP_IN and CAP_OUT read the first two
  (10_state.md R35). -/
  cfg : Config
  /-- STATUS (10_state.md R24). -/
  status : Status
  /-- INT_EN.DONE_IE (10_state.md R28). -/
  doneIe : Bool
  /-- IN_LEN (10_state.md R29). -/
  inLen : Word
  /-- OUT_LEN (10_state.md R30). -/
  outLen : Word
  /-- DISTINCT, 0 to 256 (10_state.md R31). -/
  distinct : BitVec 9
  /-- OG_SIZE (10_state.md R31). -/
  ogSize : Word
  /-- PAYLOAD_OFF (10_state.md R32). -/
  payloadOff : Word
  /-- PAYLOAD_BITS (10_state.md R32). -/
  payloadBits : Word
  /-- NODE_COUNT, 0 to 511 (10_state.md R34). -/
  nodeCount : BitVec 10
  /-- ROOT, 0 to 510 (10_state.md R34). -/
  root : BitVec 9
  /-- PROGRESS (10_state.md R33). -/
  progress : Word
  /-- FREQ[0..255] (10_state.md R36). -/
  freq : SymbolTable Word
  /-- CODE_LEN[0..255] (10_state.md R37). -/
  codeLen : SymbolTable (BitVec 8)
  /-- CODE_BITS[0..255] (10_state.md R38). -/
  codeBits : SymbolTable (BitVec 256)
  /-- NODE[0..511] (10_state.md R39, R40). -/
  nodes : Vector Node 512
  /-- IN_MEM with IN_WRITTEN (10_state.md R41, R43). -/
  inMem : Memory
  /-- OUT_MEM with OUT_WRITTEN (10_state.md R42, R43). -/
  outMem : Memory
  /-- PENDING (10_state.md R43). -/
  pending : Option Word
  /-- FAULT, the set of model faults recorded (10_state.md R43), as a list with no repeats. -/
  faults : List Fault
  /-- The model's own: the host's remaining operations in issue order (log 1). -/
  hostProg : List HostOp
  /-- The model's own: which agent moves next (log 1, log 9). -/
  sched : List Agent
  /-- The model's own: the values read transactions returned, newest first (log 14). -/
  hostReads : List Word
  /-- The model's own: how many draws were taken (log 5). -/
  drawCount : Nat
  deriving DecidableEq, Repr

/-- STATUS after reset: every field 0 (10_state.md R45). -/
def Status.reset : Status where
  busy := false
  done := false
  err := .noError
  errStage := 0#4
  lastCmd := 0#4
  freqValid := false
  treeValid := false
  codesValid := false
  freqSrc := false
  cmdDropped := false

/-- The block right after reset (10_state.md R45, 70_reset_and_hazards.md R260). -/
def State.reset : State where
  cfg := Config.chip
  status := Status.reset
  doneIe := false
  inLen := 0#64
  outLen := 0#64
  distinct := 0#9
  ogSize := 0#64
  payloadOff := 0#64
  payloadBits := 0#64
  nodeCount := 0#10
  root := 0#9
  progress := 0#64
  freq := Vector.replicate 256 0#64
  codeLen := Vector.replicate 256 0#8
  codeBits := Vector.replicate 256 0#256
  nodes := Vector.replicate 512 Node.blank
  inMem := []
  outMem := []
  pending := none
  faults := []
  hostProg := []
  sched := []
  hostReads := []
  drawCount := 0

end Sys2Proof.Machine
end

