-- ==== Sys2Proof/Machine/Flags.lean ====
section
/-! DEFINITION. STATUS: its error codes, its word, its write-1-to-clear bits, the valid flags and the interrupt line
(10_state.md R24 to R28, 60_exceptions.md R230, R245). -/

namespace Sys2Proof.Machine

/-- The 4-bit code of an error (60_exceptions.md R230). -/
def ErrKind.code : ErrKind → BitVec 4
  | .noError => 0
  | .emptyInput => 1
  | .malformedContainer => 2
  | .inconsistentFrequencyTable => 3
  | .illegalCommand => 4
  | .sequenceError => 5
  | .capacityExceeded => 6

/-- A one-bit field of a register: the bit b at position k. -/
def bitField (b : Bool) (k : Nat) : Word := (BitVec.ofBool b).setWidth 64 <<< k

/-- A four-bit field of a register: v at positions k+3 down to k. -/
def nibbleField (v : BitVec 4) (k : Nat) : Word := v.setWidth 64 <<< k

/-- STATUS as the host reads it (10_state.md R24): the fields at their bits, every other bit 0. -/
def Status.toWord (st : Status) : Word :=
  bitField st.busy 0 ||| bitField st.done 1 ||| nibbleField st.err.code 4 ||| nibbleField st.errStage 8 |||
    nibbleField st.lastCmd 12 ||| bitField st.freqValid 16 ||| bitField st.treeValid 17 |||
    bitField st.codesValid 18 ||| bitField st.freqSrc 19 ||| bitField st.cmdDropped 20

/-- A host write of w to STATUS: bit 1 clears DONE, bit 20 clears CMD_DROPPED, every other bit is ignored
(10_state.md R25). -/
def Status.writeOneToClear (st : Status) (w : Word) : Status :=
  { st with
    done := st.done && !w.getLsbD 1
    cmdDropped := st.cmdDropped && !w.getLsbD 20 }

/-- Writing the input invalidates the stage state (20_memory.md R66). -/
def Status.invalidate (st : Status) : Status :=
  { st with freqValid := false, treeValid := false, codesValid := false, freqSrc := false }

/-- FREQ (src = false) or DESERIALIZE (src = true) produced a frequency table (10_state.md R27). -/
def Status.tableLoaded (st : Status) (src : Bool) : Status :=
  { st with freqValid := true, freqSrc := src, treeValid := false, codesValid := false }

/-- BUILD_TREE built the tree (10_state.md R27). -/
def Status.treeBuilt (st : Status) : Status := { st with treeValid := true, codesValid := false }

/-- GEN_CODES derived the codes (10_state.md R27). -/
def Status.codesMade (st : Status) : Status := { st with codesValid := true }

/-- CLEAR clears the four flags and CMD_DROPPED (47_control.md R215). -/
def Status.cleared (st : Status) : Status :=
  { st with freqValid := false, treeValid := false, codesValid := false, freqSrc := false, cmdDropped := false }

/-- The acceptance of the command word v (47_control.md R210). -/
def Status.accepted (st : Status) (v : Word) : Status :=
  { st with busy := true, done := false, lastCmd := wordOp v }

/-- The common end of a command, with its error fields (47_control.md R217, 60_exceptions.md R235). -/
def Status.completed (st : Status) (e : ErrKind) (stage : BitVec 4) : Status :=
  { st with busy := false, done := true, err := e, errStage := stage }

/-- The interrupt output, a level: DONE AND DONE_IE (60_exceptions.md R245). -/
def State.irq (s : State) : Bool := s.status.done && s.doneIe

end Sys2Proof.Machine
end

