-- ==== Sys2Proof/Machine/Ops.lean ====
section
/-! DEFINITION. The shared operations: memory, success and error completion of a command (the block's only exception
entry), running the stages of a command, acceptance of a command word, reset, draws and the record of model faults. -/

namespace Sys2Proof.Machine

/-! ### Memory (10_state.md R41 to R43, 20_memory.md R64, R65) -/

/-- The byte at address a, none where nothing was written since reset (log 6). -/
def Memory.read : Memory → Nat → Option Byte
  | [], _ => none
  | (k, b) :: m, a => if k = a then some b else Memory.read m a

/-- Write byte v at address a, keeping the addresses strictly rising. The address's written mark becomes 1. -/
def Memory.write : Memory → Nat → Byte → Memory
  | [], a, v => [(a, v)]
  | (k, b) :: m, a, v =>
    if a < k then (a, v) :: (k, b) :: m
    else if a = k then (a, v) :: m
    else (k, b) :: Memory.write m a v

/-- Write the bytes at addresses a, a+1, ... -/
def Memory.writeBytes : Memory → Nat → List Byte → Memory
  | m, _, [] => m
  | m, a, b :: bs => Memory.writeBytes (Memory.write m a b) (a + 1) bs

/-- The canonical form of a memory: addresses strictly rising. An unlisted byte has no value, so no entry equals it. -/
def Memory.wf : Memory → Bool
  | [] => true
  | [_] => true
  | c :: d :: m => decide (c.1 < d.1) && Memory.wf (d :: m)

/-- Every written address is below the capacity. -/
def Memory.below (m : Memory) (cap : Nat) : Bool := m.all fun c => decide (c.1 < cap)

/-- The core's read of n bytes of IN_MEM from address a: the bytes, or UninitRead at the first one the host has not
written (20_memory.md R64; log 8). -/
def Memory.coreRead (m : Memory) (a : Nat) : Nat → Except Fault (List Byte)
  | 0 => .ok []
  | n + 1 =>
    match Memory.read m a with
    | none => .error (.uninitRead a)
    | some b =>
      match Memory.coreRead m (a + 1) n with
      | .ok bs => .ok (b :: bs)
      | .error r => .error r

/-! ### Tables -/

/-- The vector of f 0, ..., f (n-1). -/
def tabulate {α : Type} (n : Nat) (f : Nat → α) : Vector α n := ⟨((List.range n).map f).toArray, by simp⟩

/-- The entry of symbol s. -/
def atSymbol {α : Type} (t : SymbolTable α) (s : Byte) : α := t[s.toNat]'s.isLt

/-- The table with the entry of symbol s set to v. -/
def setSymbol {α : Type} (t : SymbolTable α) (s : Byte) (v : α) : SymbolTable α := t.set s.toNat v s.isLt

/-- The node with arena index i. -/
def nodeAt (nodes : Vector Node 512) (i : Nat) : Node := nodes.toList.getD i Node.blank

/-! ### The end of a command (47_control.md R217, 60_exceptions.md R235) -/

/-- Success: ERR and ERR_STAGE become 0 and the command ends (47_control.md R217). -/
def State.succeed (s : State) : State :=
  { s with status := s.status.completed .noError 0#4, pending := none }

/-- Error completion, the block's only exception entry: it writes ERR, ERR_STAGE, OUT_LEN and PROGRESS, and the command
ends; nothing else of the raising stage is written (60_exceptions.md R235). -/
def State.errorCompletion (s : State) (e : ErrKind) (stage : BitVec 4) : State :=
  { s with
    status := s.status.completed e stage
    pending := none
    outLen := 0#64
    progress := 0 }

/-- How a stage body ends other than by completing: it raises an error, or it meets a model fault (00_scope.md R10). -/
inductive Stop where
  | raised (e : ErrKind) (stage : BitVec 4)
  | faulted (r : Fault)
  deriving DecidableEq, Repr

/-- The body of a stage: its pseudocode up to, but not including, its success line (47_control.md R212). -/
abbrev StageBody := State → Except Stop State

/-- Run stage bodies in order as one core step: stop at the first that raises, keep the writes of those that completed
(47_control.md R212, R213, R217). -/
def runStages : List StageBody → State → Host.Outcome State Fault Refusal
  | [], s => .next s.succeed
  | body :: rest, s =>
    match body s with
    | .ok s' => runStages rest s'
    | .error (.raised e stage) => .next (s.errorCompletion e stage)
    | .error (.faulted r) => .fault r

/-- An illegal command word v raises IllegalCommand with its OP field as the stage (47_control.md R216; log 13). -/
def execIllegal (v : Word) (s : State) : Host.Outcome State Fault Refusal :=
  .next (s.errorCompletion .illegalCommand (wordOp v))

/-! ### Acceptance, reset, draws, faults -/

/-- The block accepts command word v (47_control.md R210). -/
def State.accept (s : State) (v : Word) : State :=
  { s with status := s.status.accepted v, pending := some v }

/-- A CTRL write: accepted when idle, dropped when busy (47_control.md R210, R211). -/
def State.writeCtrl (s : State) (v : Word) : State :=
  if s.status.busy then { s with status := { s.status with cmdDropped := true } } else s.accept v

/-- The reset action: every piece of hardware state at its reset value. FAULT keeps its contents, and the parameters
and the model's own fields are not hardware state (70_reset_and_hazards.md R260; log 10). -/
def State.resetAction (s : State) : State :=
  { State.reset with
    cfg := s.cfg
    faults := s.faults
    hostProg := s.hostProg
    sched := s.sched
    hostReads := s.hostReads
    drawCount := s.drawCount }

/-- Writing the input clears the valid flags; tables and result registers keep their values (20_memory.md R66). -/
def State.invalidate (s : State) : State := { s with status := s.status.invalidate }

/-- A read transaction returns v to the host (20_memory.md R61; log 14). -/
def State.returnWord (s : State) (v : Word) : State := { s with hostReads := v :: s.hostReads }

/-- A read transaction returns a draw (00_scope.md R10; log 5). -/
def State.returnDraw (s : State) : State :=
  { s with hostReads := Config.draw s.drawCount :: s.hostReads, drawCount := s.drawCount + 1 }

/-- A byte read returns a drawn byte, the low byte of a draw (log 5). -/
def State.returnDrawByte (s : State) : State :=
  { s with
    hostReads := ((Config.draw s.drawCount).setWidth 8).setWidth 64 :: s.hostReads
    drawCount := s.drawCount + 1 }

/-- Record the model fault r in FAULT, a set (60_exceptions.md R240). -/
def State.recordFault (s : State) (r : Fault) : State :=
  { s with faults := if r ∈ s.faults then s.faults else r :: s.faults }

/-- An agent's move that met a model fault is recorded in FAULT and has no other effect; the model has stopped, and every
later step answers the fault (47_control.md R217; log 7). -/
def recordOutcome (s : State) (o : Host.Outcome State Fault Refusal) : Host.Outcome State Fault Refusal :=
  match o with
  | .next t => .next t
  | .fault r => .next (s.recordFault r)
  | .refused r => .refused r

end Sys2Proof.Machine
end

