-- ==== Sys2Proof/Machine/Operands.lean ====
section
/-! DEFINITION. The operands of the commands and of the host's transactions: byte order, bit order, the names and numbers
of the registers and what each register reads as (20_memory.md R67, 30_encoding.md R85 to R87, 10_state.md R22). -/

namespace Sys2Proof.Machine

/-! ### Byte order (00_scope.md R9, 20_memory.md R67) -/

/-- LE64: the 8 bytes of v, byte j being bits 8j+7 down to 8j. -/
def le64 (v : Word) : List Byte := (List.range 8).map fun j => v.extractLsb' (8 * j) 8

/-- The number a byte sequence holds, its first byte the least significant; on 8 bytes this is U64LE. -/
def leValue : List Byte → Nat
  | [] => 0
  | b :: bs => b.toNat + 256 * leValue bs

/-! ### Bit order (30_encoding.md R85, R86) -/

/-- The bits of a code, its first edge first: bit len-1 of the stored pattern down to bit 0 (30_encoding.md R86). -/
def codeBitList (len : BitVec 8) (bits : BitVec 256) : List Bool :=
  (List.range len.toNat).map fun j => bits.getLsbD (len.toNat - 1 - j)

/-- The byte whose bit 7-m is c m, for m = 0 to 7 (30_encoding.md R85). -/
def msbFirstByte (c : Nat → Bool) : Byte :=
  BitVec.ofNat 8 ((List.range 8).foldl (fun acc m => 2 * acc + (c m).toNat) 0)

/-- Payload bytes of a number of bits: (T + 7) div 8 (30_encoding.md R85). -/
def payloadBytes (bitCount : Nat) : Nat := (bitCount + 7) / 8

/-- A bit sequence packed into bytes, most significant bit first, the padding bits 0 (30_encoding.md R85). -/
def packBits (bits : List Bool) : List Byte :=
  (List.range (payloadBytes bits.length)).map fun k => msbFirstByte fun m => bits.getD (8 * k + m) false

/-- Bit t of a payload, in its byte: position 7 - (t mod 8) (30_encoding.md R85). -/
def payloadBit (b : Byte) (t : Nat) : Bool := b.getLsbD (7 - t % 8)

/-! ### Container offsets (46_container.md R190) -/

/-- Bytes of the two header fields (00_scope.md R6). -/
abbrev headerBytes : Nat := 16

/-- Bytes of a record: u8 symbol and u64 frequency (00_scope.md R6). -/
abbrev recordBytes : Nat := 9

/-- The offset of record j; with j the record count, the offset of the payload (46_container.md R190). -/
def recordOffset (j : Nat) : Nat := headerBytes + recordBytes * j

/-! ### Registers (10_state.md R22) -/

/-- The registers of the REG space. -/
inductive RegName where
  | ctrl
  | status
  | intEn
  | inLen
  | outLen
  | distinct
  | ogSize
  | payloadOff
  | payloadBits
  | nodeCount
  | root
  | progress
  | capIn
  | capOut
  | freq (s : Byte)
  | codeLen (s : Byte)
  | codeBits (s : Byte) (w : BitVec 2)
  | node (i : BitVec 9) (f : BitVec 2)
  deriving DecidableEq, Repr

/-- The number of a register (10_state.md R22). -/
def RegName.number : RegName → BitVec 16
  | .ctrl => 0x0000
  | .status => 0x0001
  | .intEn => 0x0002
  | .inLen => 0x0003
  | .outLen => 0x0004
  | .distinct => 0x0005
  | .ogSize => 0x0006
  | .payloadOff => 0x0007
  | .payloadBits => 0x0008
  | .nodeCount => 0x0009
  | .root => 0x000A
  | .progress => 0x000B
  | .capIn => 0x000C
  | .capOut => 0x000D
  | .freq s => BitVec.ofNat 16 (0x0100 + s.toNat)
  | .codeLen s => BitVec.ofNat 16 (0x0200 + s.toNat)
  | .codeBits s w => BitVec.ofNat 16 (0x1000 + 4 * s.toNat + w.toNat)
  | .node i f => BitVec.ofNat 16 (0x2000 + 4 * i.toNat + f.toNat)

/-- A register below 0x0010: the control, status and result registers (10_state.md R22). -/
def scalarReg : Nat → Option RegName
  | 0x0 => some .ctrl
  | 0x1 => some .status
  | 0x2 => some .intEn
  | 0x3 => some .inLen
  | 0x4 => some .outLen
  | 0x5 => some .distinct
  | 0x6 => some .ogSize
  | 0x7 => some .payloadOff
  | 0x8 => some .payloadBits
  | 0x9 => some .nodeCount
  | 0xA => some .root
  | 0xB => some .progress
  | 0xC => some .capIn
  | 0xD => some .capOut
  | _ => none

/-- The register a number names, none where the number is unmapped (10_state.md R22, R47). -/
def regOfNumber (n : BitVec 16) : Option RegName :=
  let k := n.toNat
  if k < 0x0100 then scalarReg k
  else if k < 0x0200 then some (.freq (BitVec.ofNat 8 (k - 0x0100)))
  else if k < 0x0300 then some (.codeLen (BitVec.ofNat 8 (k - 0x0200)))
  else if k < 0x1000 then none
  else if k < 0x1400 then some (.codeBits (BitVec.ofNat 8 ((k - 0x1000) / 4)) (BitVec.ofNat 2 (k % 4)))
  else if k < 0x2000 then none
  else if k < 0x2800 then some (.node (BitVec.ofNat 9 ((k - 0x2000) / 4)) (BitVec.ofNat 2 (k % 4)))
  else none

/-- KIND as a number (10_state.md R39). -/
def NodeKind.code : NodeKind → Nat
  | .unused => 0
  | .leaf => 1
  | .internal => 2

/-- Field f of a node as the host reads it: KIND_SYM (KIND in bits 1:0, SYMBOL in bits 15:8), LEFT, RIGHT, WEIGHT
(10_state.md R39). -/
def Node.fieldWord (nd : Node) (f : BitVec 2) : Word :=
  match f.toNat with
  | 0 => BitVec.ofNat 64 (nd.kind.code + 256 * nd.symbol.toNat)
  | 1 => BitVec.ofNat 64 nd.left
  | 2 => BitVec.ofNat 64 nd.right
  | _ => nd.weight

/-- What a register holds, as a 64-bit word with its unused bits 0; CTRL reads 0 (10_state.md R22 to R39). -/
def State.regValue (s : State) : RegName → Word
  | .ctrl => 0
  | .status => s.status.toWord
  | .intEn => bitField s.doneIe 0
  | .inLen => s.inLen
  | .outLen => s.outLen
  | .distinct => s.distinct.setWidth 64
  | .ogSize => s.ogSize
  | .payloadOff => s.payloadOff
  | .payloadBits => s.payloadBits
  | .nodeCount => s.nodeCount.setWidth 64
  | .root => s.root.setWidth 64
  | .progress => s.progress
  | .capIn => s.cfg.inCap
  | .capOut => s.cfg.outCap
  | .freq c => atSymbol s.freq c
  | .codeLen c => (atSymbol s.codeLen c).setWidth 64
  | .codeBits c w => (atSymbol s.codeBits c).extractLsb' (64 * w.toNat) 64
  | .node i f => (nodeAt s.nodes i.toNat).fieldWord f

/-- The registers whose reads are exact while BUSY = 1; a read of any other returns a draw then (10_state.md R46). -/
def RegName.exactWhileBusy : RegName → Bool
  | .ctrl | .status | .intEn | .inLen | .capIn | .capOut => true
  | .outLen | .distinct | .ogSize | .payloadOff | .payloadBits | .nodeCount | .root | .progress => false
  | .freq _ | .codeLen _ | .codeBits _ _ | .node _ _ => false

end Sys2Proof.Machine
end

