-- ==== Sys2Proof/Machine/FreqModel.lean ====
section
/-! DEFINITION. freq_model: FREQ (41_freq_model.md). -/

namespace Sys2Proof.Machine

/-- The frequency table of a byte sequence: FREQ[s] is the number of its bytes equal to s, a 64-bit count
(41_freq_model.md R110). -/
def freqTable (bytes : List Byte) : SymbolTable Word :=
  tabulate 256 fun s => BitVec.ofNat 64 (bytes.count (BitVec.ofNat 8 s))

/-- The number of symbols s with FREQ[s] >= 1 (10_state.md R31). -/
def distinctCount (table : SymbolTable Word) : Nat := table.toList.countP fun w => w != 0#64

/-- The FREQ stage (41_freq_model.md R110). -/
def freqBody : StageBody := fun s =>
  if s.cfg.inCap.toNat < s.inLen.toNat then .error (.raised .capacityExceeded Instr.freq.opcode)
  else
    match s.inMem.coreRead 0 s.inLen.toNat with
    | .error r => .error (.faulted r)
    | .ok bytes =>
      .ok { s with
        freq := freqTable bytes
        distinct := BitVec.ofNat 9 (distinctCount (freqTable bytes))
        ogSize := s.inLen
        progress := s.inLen
        status := s.status.tableLoaded false }

/-- FREQ (41_freq_model.md R110). -/
def execFreq (s : State) : Host.Outcome State Fault Refusal := runStages [freqBody] s

end Sys2Proof.Machine
end

