-- ==== Sys2Proof/Machine/TreeBuilder.lean ====
section
/-! DEFINITION. tree_builder and tree_reconstruct: BUILD_TREE (42_tree_builder.md). -/

namespace Sys2Proof.Machine

/-- An item of the priority structure: an arena index with the weight of its node (42_tree_builder.md R121). -/
structure QueueItem where
  weight : Word
  index : Nat
  deriving DecidableEq, Repr

/-- The order of items: lower weight first, then lower arena index (42_tree_builder.md R123). -/
def QueueItem.less (x y : QueueItem) : Bool :=
  decide (x.weight.toNat < y.weight.toNat) || (x.weight == y.weight && decide (x.index < y.index))

/-- The least item of the priority structure and the rest (ExtractMin, 42_tree_builder.md R122). -/
def extractMin : List QueueItem → Option (QueueItem × List QueueItem)
  | [] => none
  | x :: xs =>
    match extractMin xs with
    | none => some (x, [])
    | some (y, ys) => if x.less y then some (x, xs) else some (y, x :: ys)

/-- One leaf per symbol with FREQ[s] >= 1, in ascending symbol order (42_tree_builder.md R121). -/
def leaves (table : SymbolTable Word) : List Node :=
  table.toList.zipIdx.filterMap fun p =>
    if p.1 = 0#64 then none else some ⟨.leaf, BitVec.ofNat 8 p.2, 0, 0, p.1⟩

/-- Each node with its arena index, as the items of the priority structure. -/
def queueOf (nodes : List Node) : List QueueItem := nodes.zipIdx.map fun p => ⟨p.1.weight, p.2⟩

/-- Merging: while the priority structure has two items, take the two least, the first to the left and the second to the
right of a new internal node, which takes the next arena index (42_tree_builder.md R122). Each round leaves one item
fewer, so a count of the items is enough rounds. -/
def mergeNodes : Nat → List Node → List QueueItem → List Node
  | 0, arena, _ => arena
  | rounds + 1, arena, queue =>
    match extractMin queue with
    | none => arena
    | some (a, queue₁) =>
      match extractMin queue₁ with
      | none => arena
      | some (b, queue₂) =>
        mergeNodes rounds (arena ++ [⟨.internal, 0#8, a.index, b.index, a.weight + b.weight⟩])
          (⟨a.weight + b.weight, arena.length⟩ :: queue₂)

/-- BuildTree: the nodes created, in arena order (42_tree_builder.md R121, R122). -/
def buildTree (table : SymbolTable Word) : List Node :=
  mergeNodes (leaves table).length (leaves table) (queueOf (leaves table))

/-- The arena of a list of nodes: unused entries are all-zero (42_tree_builder.md R120). -/
def arenaOf (nodes : List Node) : Vector Node 512 := tabulate 512 fun i => nodes.getD i Node.blank

/-- The BUILD_TREE stage (42_tree_builder.md R120): the root is the last node created, and 0 where there is none (R122). -/
def buildTreeBody : StageBody := fun s =>
  if s.status.freqValid then
    .ok { s with
      nodes := arenaOf (buildTree s.freq)
      nodeCount := BitVec.ofNat 10 (buildTree s.freq).length
      root := BitVec.ofNat 9 ((buildTree s.freq).length - 1)
      status := s.status.treeBuilt }
  else .error (.raised .sequenceError Instr.buildTree.opcode)

/-- BUILD_TREE (42_tree_builder.md R120). -/
def execBuildTree (s : State) : Host.Outcome State Fault Refusal := runStages [buildTreeBody] s

end Sys2Proof.Machine
end

