-- ==== Sys2Proof/Machine/CodeTableGen.lean ====
section
/-! DEFINITION. code_table_gen: GEN_CODES (43_code_table_gen.md). -/

namespace Sys2Proof.Machine

/-- The code table: CODE_LEN and CODE_BITS (10_state.md R37, R38). -/
structure CodeTable where
  len : SymbolTable (BitVec 8)
  bits : SymbolTable (BitVec 256)
  deriving DecidableEq, Repr

/-- The table in which no symbol has a code. -/
def CodeTable.none : CodeTable := ⟨Vector.replicate 256 0#8, Vector.replicate 256 0#256⟩

/-- Symbol s gets the code (pattern, length). -/
def CodeTable.assign (t : CodeTable) (s : Byte) (pattern length : Nat) : CodeTable :=
  ⟨setSymbol t.len s (BitVec.ofNat 8 length), setSymbol t.bits s (BitVec.ofNat 256 pattern)⟩

/-- Walk (43_code_table_gen.md R141): the path from the root is accumulated, bit 0 to the left and bit 1 to the right;
a leaf's symbol gets the accumulated pattern and length. The first argument bounds the depth; children of a tree of
BUILD_TREE have smaller indices, so 512 is more than any depth (log 11). -/
def walkCodes (nodes : Vector Node 512) : Nat → Nat → Nat → Nat → CodeTable → CodeTable
  | 0, _, _, _, t => t
  | depth + 1, i, pattern, length, t =>
    match (nodeAt nodes i).kind with
    | .leaf => t.assign (nodeAt nodes i).symbol pattern length
    | .internal =>
      walkCodes nodes depth (nodeAt nodes i).right (2 * pattern + 1) (length + 1)
        (walkCodes nodes depth (nodeAt nodes i).left (2 * pattern) (length + 1) t)
    | .unused => t

/-- The code table of a tree: empty, the single leaf's code (0, 1), or the walk from the root
(43_code_table_gen.md R140 to R142). -/
def codesOfTree (nodes : Vector Node 512) (nodeCount root : Nat) : CodeTable :=
  if nodeCount = 0 then CodeTable.none
  else if nodeCount = 1 then CodeTable.none.assign (nodeAt nodes 0).symbol 0 1
  else walkCodes nodes 512 root 0 0 CodeTable.none

/-- The code table of the tree in a state. -/
def State.treeCodes (s : State) : CodeTable := codesOfTree s.nodes s.nodeCount.toNat s.root.toNat

/-- The GEN_CODES stage (43_code_table_gen.md R140). -/
def genCodesBody : StageBody := fun s =>
  if s.status.treeValid then
    .ok { s with
      codeLen := s.treeCodes.len
      codeBits := s.treeCodes.bits
      status := s.status.codesMade }
  else .error (.raised .sequenceError Instr.genCodes.opcode)

/-- GEN_CODES (43_code_table_gen.md R140). -/
def execGenCodes (s : State) : Host.Outcome State Fault Refusal := runStages [genCodesBody] s

end Sys2Proof.Machine
end

