-- ==== Sys2Proof/Machine/BitPacker.lean ====
section
/-! DEFINITION. bitpacker and container_format_serializer: PACK (44_bitpacker.md, 46_container.md R191). -/

namespace Sys2Proof.Machine

/-- TB, the meaningful bits: the sum over the symbols of FREQ[s] * CODE_LEN[s] (44_bitpacker.md R150, R152). -/
def meaningfulBits (freq : SymbolTable Word) (len : SymbolTable (BitVec 8)) : Nat :=
  ((freq.toList.zip len.toList).map fun p => p.1.toNat * p.2.toNat).sum

/-- CL, the length of a container with n records and a payload of some bits (44_bitpacker.md R155). -/
def containerLength (n bitCount : Nat) : Nat := recordOffset n + payloadBytes bitCount

/-- The bits of the codes of the bytes, in order (44_bitpacker.md R152). -/
def encodeBits (len : SymbolTable (BitVec 8)) (bits : SymbolTable (BitVec 256)) (bytes : List Byte) : List Bool :=
  bytes.flatMap fun s => codeBitList (atSymbol len s) (atSymbol bits s)

/-- The records of a frequency table: symbol and frequency, in ascending symbol order, one per symbol with FREQ[s] >= 1
(46_container.md R191, R192). -/
def recordsOf (freq : SymbolTable Word) : List (Byte × Word) :=
  freq.toList.zipIdx.filterMap fun p => if p.1 = 0#64 then none else some (BitVec.ofNat 8 p.2, p.1)

/-- The bytes of a record: u8 symbol, u64 LE frequency (46_container.md R190). -/
def recordBytesOf (r : Byte × Word) : List Byte := r.1 :: le64 r.2

/-- The bytes of the header and the records (46_container.md R191). -/
def headerAndRecords (n : Nat) (ogSize : Word) (freq : SymbolTable Word) : List Byte :=
  le64 (BitVec.ofNat 64 n) ++ le64 ogSize ++ (recordsOf freq).flatMap recordBytesOf

/-- Serialize: header and records from offset 0, the payload from offset 16 + 9n (46_container.md R191). -/
def serialize (outMem : Memory) (n : Nat) (ogSize : Word) (freq : SymbolTable Word) (payload : List Byte) : Memory :=
  (outMem.writeBytes 0 (headerAndRecords n ogSize freq)).writeBytes (recordOffset n) payload

/-- The container length PACK computes before it writes anything (44_bitpacker.md R155). -/
def State.packLength (s : State) : Nat := containerLength s.distinct.toNat (meaningfulBits s.freq s.codeLen)

/-- The PACK stage (44_bitpacker.md R150). -/
def packBody : StageBody := fun s =>
  if !s.status.codesValid || s.status.freqSrc then .error (.raised .sequenceError Instr.pack.opcode)
  else if s.ogSize = 0#64 then .error (.raised .emptyInput Instr.pack.opcode)
  else if s.cfg.outCap.toNat < s.packLength then .error (.raised .capacityExceeded Instr.pack.opcode)
  else
    match s.inMem.coreRead 0 s.ogSize.toNat with
    | .error r => .error (.faulted r)
    | .ok bytes =>
      .ok { s with
        outMem := serialize s.outMem s.distinct.toNat s.ogSize s.freq (packBits (encodeBits s.codeLen s.codeBits bytes))
        outLen := BitVec.ofNat 64 s.packLength
        payloadOff := BitVec.ofNat 64 (recordOffset s.distinct.toNat)
        payloadBits := BitVec.ofNat 64 (meaningfulBits s.freq s.codeLen)
        progress := s.ogSize }

/-- PACK (44_bitpacker.md R150). -/
def execPack (s : State) : Host.Outcome State Fault Refusal := runStages [packBody] s

end Sys2Proof.Machine
end

