-- ==== Sys2Proof/Machine/Container.lean ====
section
/-! DEFINITION. container_format_deserializer: DESERIALIZE (46_container.md R194 to R198). -/

namespace Sys2Proof.Machine

/-- The core's read of a u64 field of the container at address a (20_memory.md R64, R67). -/
def readU64 (mem : Memory) (a : Nat) : Except Fault Nat := (mem.coreRead a 8).map leValue

/-- The core's read of one byte of the container (20_memory.md R64). -/
def readByte (mem : Memory) (a : Nat) : Except Fault Byte :=
  match mem.read a with
  | some b => .ok b
  | none => .error (.uninitRead a)

/-- The core's read of the record at address a: symbol, then frequency (46_container.md R196). -/
def readRecord (mem : Memory) (a : Nat) : Except Fault (Byte × Nat) :=
  match readByte mem a with
  | .error r => .error r
  | .ok s =>
    match readU64 mem (a + 1) with
    | .error r => .error r
    | .ok frequency => .ok (s, frequency)

/-- The core's read of records in order, from address a on (46_container.md R196). -/
def readRecords (mem : Memory) (a : Nat) : Nat → Except Fault (List (Byte × Nat))
  | 0 => .ok []
  | k + 1 =>
    match readRecord mem a with
    | .error r => .error r
    | .ok x =>
      match readRecords mem (a + recordBytes) k with
      | .ok xs => .ok (x :: xs)
      | .error r => .error r

/-- Two records have the same symbol (46_container.md R195 condition c). -/
def duplicateSymbol : List (Byte × Nat) → Bool
  | [] => false
  | x :: xs => xs.any (fun y => y.1 == x.1) || duplicateSymbol xs

/-- The records do not make a frequency table of og symbols: no record, a frequency 0, a symbol twice, or an exact sum
other than og (46_container.md R195, conditions a, b, c, d). -/
def inconsistentRecords (records : List (Byte × Nat)) (og : Nat) : Bool :=
  records.isEmpty || records.any (fun r => r.2 == 0) || duplicateSymbol records || (records.map (·.2)).sum != og

/-- Each frequency stored at its symbol's index, 0 elsewhere (46_container.md R196, R197). -/
def tableOfRecords (records : List (Byte × Nat)) : SymbolTable Word :=
  records.foldl (fun t r => setSymbol t r.1 (BitVec.ofNat 64 r.2)) (Vector.replicate 256 0#64)

/-- The two header fields of the container in a state: distinct_symbol_count, then original_length
(46_container.md R190). -/
def readHeader (mem : Memory) : Except Fault (Nat × Nat) :=
  match readU64 mem 0 with
  | .error r => .error r
  | .ok k =>
    match readU64 mem 8 with
    | .error r => .error r
    | .ok og => .ok (k, og)

/-- The DESERIALIZE stage (46_container.md R196). -/
def deserializeBody : StageBody := fun s =>
  if s.cfg.inCap.toNat < s.inLen.toNat then .error (.raised .capacityExceeded Instr.deserialize.opcode)
  else if s.inLen.toNat < headerBytes then .error (.raised .malformedContainer Instr.deserialize.opcode)
  else
    match readHeader s.inMem with
    | .error r => .error (.faulted r)
    | .ok (k, og) =>
      if (s.inLen.toNat - headerBytes) / recordBytes < k then
        .error (.raised .malformedContainer Instr.deserialize.opcode)
      else
        match readRecords s.inMem headerBytes k with
        | .error r => .error (.faulted r)
        | .ok records =>
          if inconsistentRecords records og then
            .error (.raised .inconsistentFrequencyTable Instr.deserialize.opcode)
          else
            .ok { s with
              freq := tableOfRecords records
              distinct := BitVec.ofNat 9 k
              ogSize := BitVec.ofNat 64 og
              payloadOff := BitVec.ofNat 64 (recordOffset k)
              status := s.status.tableLoaded true }

/-- DESERIALIZE (46_container.md R196). -/
def execDeserialize (s : State) : Host.Outcome State Fault Refusal := runStages [deserializeBody] s

end Sys2Proof.Machine
end

