-- ==== Sys2Proof/Machine/BitUnpacker.lean ====
section
/-! DEFINITION. bitunpacker and symbol_output: UNPACK (45_bitunpacker.md). -/

namespace Sys2Proof.Machine

/-- The decode walk of a tree with internal nodes (45_bitunpacker.md R172). The first argument is how many bits of the
payload are left; t counts the bits consumed, pos is the tree position and need the symbols still to decode. The
answer is the decoded bytes and the bits consumed. -/
def decodeWalk (mem : Memory) (nodes : Vector Node 512) (root off : Nat) :
    Nat → Nat → Nat → Nat → Except Stop (List Byte × Nat)
  | _, t, _, 0 => .ok ([], t)
  | 0, _, _, _ + 1 => .error (.raised .malformedContainer Instr.unpack.opcode)
  | bitsLeft + 1, t, pos, need + 1 =>
    match mem.read (off + t / 8) with
    | none => .error (.faulted (.uninitRead (off + t / 8)))
    | some b =>
      let pos' := if payloadBit b t then (nodeAt nodes pos).right else (nodeAt nodes pos).left
      match (nodeAt nodes pos').kind with
      | .leaf =>
        match decodeWalk mem nodes root off bitsLeft (t + 1) root need with
        | .ok (out, used) => .ok ((nodeAt nodes pos').symbol :: out, used)
        | .error e => .error e
      | .internal | .unused => decodeWalk mem nodes root off bitsLeft (t + 1) pos' (need + 1)

/-- The decode walk of a single-leaf tree: one bit per symbol, its value not examined (45_bitunpacker.md R173). -/
def decodeSingle (mem : Memory) (symbol : Byte) (off : Nat) : Nat → Nat → Nat → Except Stop (List Byte × Nat)
  | _, t, 0 => .ok ([], t)
  | 0, _, _ + 1 => .error (.raised .malformedContainer Instr.unpack.opcode)
  | bitsLeft + 1, t, need + 1 =>
    match mem.read (off + t / 8) with
    | none => .error (.faulted (.uninitRead (off + t / 8)))
    | some _ =>
      match decodeSingle mem symbol off bitsLeft (t + 1) need with
      | .ok (out, used) => .ok (symbol :: out, used)
      | .error e => .error e

/-- PL, the payload's length in bytes: IN_LEN - PAYLOAD_OFF (45_bitunpacker.md R171). -/
def State.payloadLength (s : State) : Nat := s.inLen.toNat - s.payloadOff.toNat

/-- DecodeWalk over the payload of a state, all of OG_SIZE symbols (45_bitunpacker.md R170, R172, R173). -/
def State.decodePayload (s : State) : Except Stop (List Byte × Nat) :=
  if s.nodeCount = 1#10 then
    decodeSingle s.inMem (nodeAt s.nodes 0).symbol s.payloadOff.toNat (8 * s.payloadLength) 0 s.ogSize.toNat
  else
    decodeWalk s.inMem s.nodes s.root.toNat s.payloadOff.toNat (8 * s.payloadLength) 0 s.root.toNat s.ogSize.toNat

/-- The UNPACK stage (45_bitunpacker.md R170): the decoded bytes are written only after the walk produced all of them
(R175). -/
def unpackBody : StageBody := fun s =>
  if !s.status.treeValid || !s.status.freqSrc then .error (.raised .sequenceError Instr.unpack.opcode)
  else if s.cfg.outCap.toNat < s.ogSize.toNat then .error (.raised .capacityExceeded Instr.unpack.opcode)
  else
    match s.decodePayload with
    | .error e => .error e
    | .ok (out, used) =>
      .ok { s with
        outMem := s.outMem.writeBytes 0 out
        outLen := s.ogSize
        payloadBits := BitVec.ofNat 64 used
        progress := s.ogSize }

/-- UNPACK (45_bitunpacker.md R170). -/
def execUnpack (s : State) : Host.Outcome State Fault Refusal := runStages [unpackBody] s

end Sys2Proof.Machine
end

