-- ==== Sys2Proof/Machine/Sequencer.lean ====
section
/-! DEFINITION. The sequencer: ENCODE, DECODE, NOP and CLEAR (47_control.md). -/

namespace Sys2Proof.Machine

/-- NOP completes with success and changes nothing else (47_control.md R214). -/
def execNop (s : State) : Host.Outcome State Fault Refusal := runStages [] s

/-- ENCODE runs FREQ, BUILD_TREE, GEN_CODES and PACK (47_control.md R212). -/
def execEncode (s : State) : Host.Outcome State Fault Refusal :=
  runStages [freqBody, buildTreeBody, genCodesBody, packBody] s

/-- DECODE runs DESERIALIZE, BUILD_TREE and UNPACK (47_control.md R213). -/
def execDecode (s : State) : Host.Outcome State Fault Refusal :=
  runStages [deserializeBody, buildTreeBody, unpackBody] s

/-- The CLEAR stage: the codec state at its reset values, the input and the output memory kept (47_control.md R215). -/
def clearBody : StageBody := fun s =>
  .ok { s with
    freq := Vector.replicate 256 0#64
    codeLen := Vector.replicate 256 0#8
    codeBits := Vector.replicate 256 0#256
    nodes := Vector.replicate 512 Node.blank
    outLen := 0#64
    distinct := 0#9
    ogSize := 0#64
    payloadOff := 0#64
    payloadBits := 0#64
    nodeCount := 0#10
    root := 0#9
    progress := 0#64
    status := s.status.cleared }

/-- CLEAR (47_control.md R215). -/
def execClear (s : State) : Host.Outcome State Fault Refusal := runStages [clearBody] s

end Sys2Proof.Machine
end

