-- ==== Sys2Proof/Machine/Dispatch.lean ====
section
/-! DEFINITION. The meaning of each command: one arm per constructor of Instr (30_encoding.md R82, R83). -/

namespace Sys2Proof.Machine

def exec (i : Instr) (s : State) : Host.Outcome State Fault Refusal :=
  match i with
  | .nop => Sys2Proof.Machine.execNop s
  | .encode => Sys2Proof.Machine.execEncode s
  | .decode => Sys2Proof.Machine.execDecode s
  | .freq => Sys2Proof.Machine.execFreq s
  | .buildTree => Sys2Proof.Machine.execBuildTree s
  | .genCodes => Sys2Proof.Machine.execGenCodes s
  | .pack => Sys2Proof.Machine.execPack s
  | .deserialize => Sys2Proof.Machine.execDeserialize s
  | .unpack => Sys2Proof.Machine.execUnpack s
  | .clear => Sys2Proof.Machine.execClear s

end Sys2Proof.Machine
end

