-- ==== Sys2Proof/Machine/HostBus.lean ====
section
/-! DEFINITION. The host's side of the bus: its transactions (20_memory.md R61 to R63, R66), reset, waiting, and the
statements of host programs (30_encoding.md R89, R90). -/

namespace Sys2Proof.Machine

/-- RegRead(n): exact, or a draw for a result register or window while BUSY = 1; an unmapped number is BusError
(10_state.md R22, R46, R47). -/
def hostRegRead (n : BitVec 16) (s : State) : Host.Outcome State Fault Refusal :=
  match regOfNumber n with
  | none => .fault .busError
  | some r =>
    if s.status.busy && !r.exactWhileBusy then .next s.returnDraw else .next (s.returnWord (s.regValue r))

/-- RegWrite(IN_LEN, v): stored unchanged and the stage state invalidated; HostHazard while BUSY = 1
(10_state.md R29, 20_memory.md R66). -/
def hostWriteInLen (v : Word) (s : State) : Host.Outcome State Fault Refusal :=
  if s.status.busy then .fault .hostHazard else .next { s.invalidate with inLen := v }

/-- RegWrite(n, v): CTRL issues a command, STATUS clears its write-1-to-clear bits, INT_EN stores bit 0, IN_LEN stores v,
a read-only register ignores the write, an unmapped number is BusError (10_state.md R22 to R29, R47). -/
def hostRegWrite (n : BitVec 16) (v : Word) (s : State) : Host.Outcome State Fault Refusal :=
  match regOfNumber n with
  | none => .fault .busError
  | some .ctrl => .next (s.writeCtrl v)
  | some .status => .next { s with status := s.status.writeOneToClear v }
  | some .intEn => .next { s with doneIe := v.getLsbD 0 }
  | some .inLen => hostWriteInLen v s
  | some _ => .next s

/-- InWrite(a, b) (20_memory.md R62). -/
def hostInWrite (a : Nat) (b : Byte) (s : State) : Host.Outcome State Fault Refusal :=
  if s.cfg.inCap.toNat ≤ a then .fault .busError
  else if s.status.busy then .fault .hostHazard
  else .next { s.invalidate with inMem := s.inMem.write a b }

/-- InRead(a): the byte where it was written, a draw where it was not; exact while busy (20_memory.md R62). -/
def hostInRead (a : Nat) (s : State) : Host.Outcome State Fault Refusal :=
  if s.cfg.inCap.toNat ≤ a then .fault .busError
  else
    match s.inMem.read a with
    | some b => .next (s.returnWord (b.setWidth 64))
    | none => .next s.returnDrawByte

/-- OutRead(a): a draw while BUSY = 1 or where the core wrote nothing, else the byte (20_memory.md R63). -/
def hostOutRead (a : Nat) (s : State) : Host.Outcome State Fault Refusal :=
  if s.cfg.outCap.toNat ≤ a then .fault .busError
  else if s.status.busy then .next s.returnDrawByte
  else
    match s.outMem.read a with
    | some b => .next (s.returnWord (b.setWidth 64))
    | none => .next s.returnDrawByte

/-- WAIT reads STATUS, and is the host's next operation again while DONE = 0 (30_encoding.md R90; log 16). -/
def hostWait (s : State) : Host.Outcome State Fault Refusal :=
  let s' := s.returnWord s.status.toWord
  if s.status.done then .next s' else .next { s' with hostProg := .wait :: s'.hostProg }

/-- The host waits for irq = 1: its next operation again while irq = 0 (60_exceptions.md R246; log 16). -/
def hostWaitIrq (s : State) : Host.Outcome State Fault Refusal :=
  if s.irq then .next s else .next { s with hostProg := .waitIrq :: s.hostProg }

/-- One host operation as one atomic step (20_memory.md R61, R69). -/
def hostStep (op : HostOp) (s : State) : Host.Outcome State Fault Refusal :=
  match op with
  | .regRead n => hostRegRead n s
  | .regWrite n v => hostRegWrite n v s
  | .inWrite a b => hostInWrite a b s
  | .inRead a => hostInRead a s
  | .outRead a => hostOutRead a s
  | .outWrite _ _ => .fault .busError
  | .reset => .next s.resetAction
  | .wait => hostWait s
  | .waitIrq => hostWaitIrq s

/-! ### The transactions on a physical bus (20_memory.md R61, R70; log 4) -/

/-- The host space and the item a transaction accesses: a register number or a byte address. WAIT reads STATUS
(30_encoding.md R90); reset and waiting for irq access no space. -/
def HostOp.location : HostOp → Option (HostSpace × Nat)
  | .regRead n => some (.reg, n.toNat)
  | .regWrite n _ => some (.reg, n.toNat)
  | .inWrite a _ => some (.input, a)
  | .inRead a => some (.input, a)
  | .outRead a => some (.output, a)
  | .outWrite a _ => some (.output, a)
  | .wait => some (.reg, RegName.status.number.toNat)
  | .reset | .waitIrq => none

/-- The address on the physical bus at which a binding places a transaction of the host: the base address of its space and
an offset that the binding fixes (00_scope.md R6, 20_memory.md R70). -/
def HostOp.busAddress (b : BusBinding) (op : HostOp) : Option Nat :=
  op.location.map fun l => b.base l.1 + Config.busOffset b l.1 l.2

/-- The bus address of the host's next transaction, under the block's BUS_BINDING. -/
def State.nextBusAddress (s : State) : Option Nat := s.hostProg.head?.bind (HostOp.busAddress s.cfg.binding)

/-- The statements and pseudo-statements of host programs (30_encoding.md R89, R90). -/
inductive HostStmt where
  /-- WR reg, v -/
  | wr (r : RegName) (v : Word)
  /-- RD reg -/
  | rd (r : RegName)
  /-- WB a, b -/
  | wb (a : Nat) (b : Byte)
  /-- RB a -/
  | rb (a : Nat)
  /-- RO a -/
  | ro (a : Nat)
  /-- CMD m -/
  | cmd (m : Instr)
  /-- WAIT -/
  | wait
  /-- LOAD S -/
  | load (bytes : List Byte)
  /-- RUN m -/
  | run (m : Instr)
  /-- ACK -/
  | ack
  deriving DecidableEq, Repr

/-- WB a, S[0]; WB a+1, S[1]; ... -/
def writesFrom : Nat → List Byte → List HostOp
  | _, [] => []
  | a, b :: bs => .inWrite a b :: writesFrom (a + 1) bs

/-- The transactions of a statement (30_encoding.md R89, R90). -/
def HostStmt.expand : HostStmt → List HostOp
  | .wr r v => [.regWrite r.number v]
  | .rd r => [.regRead r.number]
  | .wb a b => [.inWrite a b]
  | .rb a => [.inRead a]
  | .ro a => [.outRead a]
  | .cmd m => [.regWrite RegName.ctrl.number (encode m)]
  | .wait => [.wait]
  | .load bytes => writesFrom 0 bytes ++ [.regWrite RegName.inLen.number (BitVec.ofNat 64 bytes.length)]
  | .run m => [.regWrite RegName.ctrl.number (encode m), .wait]
  | .ack => [.regWrite RegName.status.number 0x2]

/-- The transactions of a host program. -/
def expandProgram (p : List HostStmt) : List HostOp := p.flatMap HostStmt.expand

/-! ### Whose move it is (00_scope.md R11; log 1, log 9) -/

/-- The core has a step exactly when PENDING is not none (47_control.md R217). -/
def State.coreReady (s : State) : Bool := s.pending.isSome

/-- The agent that moves: the one the schedule names, and once the schedule is used up the core while it has a step, so
that every run is weakly fair (70_reset_and_hazards.md R272; log 9). -/
def State.mover (s : State) : Agent :=
  match s.sched with
  | a :: _ => a
  | [] => if s.coreReady then .core else .host

/-- The state with its turn of the schedule taken. -/
def State.turnTaken (s : State) : State := { s with sched := s.sched.tail }

/-- The host's move: its next operation; with none left, its turn passes (log 9). -/
def hostMove (s : State) : Host.Outcome State Fault Refusal :=
  match s.hostProg with
  | [] => .next s
  | op :: rest => hostStep op { s with hostProg := rest }

end Sys2Proof.Machine
end

