-- ==== Sys2Proof/Machine/Step.lean ====
section
/-! DEFINITION. One step of the whole: the core's step or the host's, and the stop after a model fault. -/

namespace Sys2Proof.Machine

/-- The core step on the pending word (47_control.md R217): the command the word decodes to, or IllegalCommand. With no
pending word the core has no step and its turn passes (log 9). -/
def coreMove (s : State) : Host.Outcome State Fault Refusal :=
  match s.pending with
  | none => .next s
  | some v =>
    match decode v with
    | .ok i => exec i s
    | .error _ => execIllegal v s

/-- The move of one agent. -/
def agentMove (a : Agent) (s : State) : Host.Outcome State Fault Refusal :=
  match a with
  | .core => coreMove s
  | .host => hostMove s

/-- One step. After a model fault no further step of any agent is defined (47_control.md R217): the step answers the
recorded fault. Otherwise the agent whose turn it is moves, and a model fault it meets is recorded (log 7). -/
def step (s : State) : Host.Outcome State Fault Refusal :=
  match s.faults with
  | r :: _ => .fault r
  | [] => recordOutcome s (agentMove s.mover s.turnTaken)

/-- s with the command word accepted as a CTRL write of an idle block accepts it (47_control.md R210), and the core's turn
next, so that the next step runs it. The word is w with the bits above nbits 0 (log 2). -/
def State.withFetchWord (s : State) (nbits w : Nat) : State :=
  { s.accept (BitVec.ofNat 64 (w % 2 ^ nbits)) with sched := .core :: s.sched }

end Sys2Proof.Machine
end

