-- ==== Sys2Proof/Safety.lean ====
section
/-! DEFINITION. The terms claims are stated in: safe and ended runs, the invariant of the block, what one state keeps of
another, and the container of an input. -/

namespace Sys2Proof.Machine

/-! ### Runs -/

/-- No model fault is recorded: the premise of a claim about a host program (60_exceptions.md R241). -/
def State.Faultless (s : State) : Prop := s.faults = []

/-- A host program's run has ended (70_reset_and_hazards.md R274). -/
def State.RunEnded (s : State) : Prop := s.hostProg = [] ∧ s.pending = none ∧ s.faults = []

/-- An outcome with its next state changed by f. -/
def mapNext (f : State → State) (o : Host.Outcome State Fault Refusal) : Host.Outcome State Fault Refusal :=
  match o with
  | .next t => .next (f t)
  | .fault r => .fault r
  | .refused r => .refused r

/-- The same block on another bus (00_scope.md R6). -/
def State.withBinding (s : State) (b : BusBinding) : State := { s with cfg := { s.cfg with binding := b } }

/-- A command ended with success (47_control.md R217). -/
def State.Succeeded (s : State) : Prop := s.status.err = .noError

/-- The next command of a sequence, run when the one before it succeeded. -/
def thenRun (o : Host.Outcome State Fault Refusal) (i : Instr) : Host.Outcome State Fault Refusal :=
  match o with
  | .next t => if t.status.err = .noError then exec i t else .next t
  | .fault r => .fault r
  | .refused r => .refused r

/-! ### Bytes in memory -/

/-- The memory holds the bytes from address a on. -/
def Memory.Holds (m : Memory) (a : Nat) (bytes : List Byte) : Prop :=
  ∀ j, j < bytes.length → m.read (a + j) = bytes[j]?

/-- Every byte of the range of n bytes from a was written. -/
def Memory.WrittenFrom (m : Memory) (a n : Nat) : Prop := ∀ j, j < n → (m.read (a + j)).isSome = true

/-! ### The codec of a table and of an input -/

/-- The node count of the tree of a table. -/
def treeSize (table : SymbolTable Word) : Nat := (buildTree table).length

/-- The code table of a frequency table: GEN_CODES of BUILD_TREE of it (42_tree_builder.md R126). -/
def codesOfTable (table : SymbolTable Word) : CodeTable :=
  codesOfTree (arenaOf (buildTree table)) (treeSize table) (treeSize table - 1)

/-- The payload of an input: its codes, packed (44_bitpacker.md R152). -/
def payloadOf (bytes : List Byte) : List Byte :=
  packBits (encodeBits (codesOfTable (freqTable bytes)).len (codesOfTable (freqTable bytes)).bits bytes)

/-- The container of an input (46_container.md R190, R191). -/
def containerOf (bytes : List Byte) : List Byte :=
  headerAndRecords (distinctCount (freqTable bytes)) (BitVec.ofNat 64 bytes.length) (freqTable bytes) ++ payloadOf bytes

/-! ### Containers and payloads, seen from outside the functions that write and read them -/

/-- The present symbols of a table, in ascending order (46_container.md R192). -/
def presentSymbols (freq : SymbolTable Word) : List Byte :=
  ((List.range 256).map (BitVec.ofNat 8)).filter fun c => atSymbol freq c != 0#64

/-- The memory holds a container (46_container.md R190, R192): the record count, the original length, the records in ascending
symbol order, and the packed bits. -/
structure Memory.HoldsContainer (m : Memory) (freq : SymbolTable Word) (ogSize : Word) (bits : List Bool) : Prop where
  count : m.Holds 0 (le64 (BitVec.ofNat 64 (presentSymbols freq).length))
  size : m.Holds 8 (le64 ogSize)
  record : ∀ j c, (presentSymbols freq)[j]? = some c → m.Holds (16 + 9 * j) (c :: le64 (atSymbol freq c))
  payload : m.Holds (16 + 9 * (presentSymbols freq).length) (packBits bits)

/-- The first n bits of the payload in a state begin with the bits: bit t is in byte t div 8 at position 7 - (t mod 8)
(30_encoding.md R85). -/
def State.PayloadBegins (s : State) (n : Nat) (bits : List Bool) : Prop :=
  bits.length ≤ n ∧ ∀ t, t < bits.length →
    (s.inMem.read (s.payloadOff.toNat + t / 8)).map (fun b => b.getLsbD (7 - t % 8)) = bits[t]?

/-! ### Trees, seen from outside the functions that build and walk them -/

/-- The node reached from node i by a path, false to the left and true to the right (43_code_table_gen.md R141). -/
def followPath (nodes : Vector Node 512) : Nat → List Bool → Nat
  | i, [] => i
  | i, b :: path => followPath nodes (if b then (nodeAt nodes i).right else (nodeAt nodes i).left) path

/-- Node p is an internal node among those with index below m, and i is one of its children. -/
def IsChildBelow (nodes : Vector Node 512) (m i p : Nat) : Prop :=
  p < m ∧ (nodeAt nodes p).kind = .internal ∧ ((nodeAt nodes p).left = i ∨ (nodeAt nodes p).right = i)

/-- Node i comes before node j: lower weight, or equal weight and lower index (42_tree_builder.md R123). -/
def NodeBefore (nodes : Vector Node 512) (i j : Nat) : Prop :=
  (nodeAt nodes i).weight.toNat < (nodeAt nodes j).weight.toNat ∨
    ((nodeAt nodes i).weight = (nodeAt nodes j).weight ∧ i < j)

/-- The bits of the code of symbol c in a state, first edge first (30_encoding.md R86). -/
def State.codeOf (s : State) (c : Byte) : List Bool := codeBitList (atSymbol s.codeLen c) (atSymbol s.codeBits c)

/-- The Kraft sum of the codes of a state, times 2^255: each present symbol adds 2^(255 - length)
(43_code_table_gen.md R143). -/
def State.kraftSum (s : State) : Nat :=
  ((List.range 256).map fun c =>
    if atSymbol s.freq (BitVec.ofNat 8 c) = 0#64 then 0 else 2 ^ (255 - (atSymbol s.codeLen (BitVec.ofNat 8 c)).toNat)).sum

/-- FREQ_VALID, TREE_VALID, CODES_VALID, FREQ_SRC (10_state.md R27). -/
def Status.flags (st : Status) : Bool × Bool × Bool × Bool := (st.freqValid, st.treeValid, st.codesValid, st.freqSrc)

/-! ### The invariant -/

/-- STATUS and PENDING agree (10_state.md R24, R26, R43; 47_control.md R210; R27: a flag is set only while the flag of the
stage before it is). -/
structure State.StatusOk (s : State) : Prop where
  busyIffPending : s.status.busy = s.pending.isSome
  busyNotDone : (s.status.busy && s.status.done) = false
  stageOfNoError : s.status.err = .noError → s.status.errStage = 0
  lastCmdOfPending : (s.pending.all fun v => s.status.lastCmd == wordOp v) = true
  treeNeedsTable : s.status.treeValid = true → s.status.freqValid = true
  codesNeedTree : s.status.codesValid = true → s.status.treeValid = true
  sourceNeedsTable : s.status.freqSrc = true → s.status.freqValid = true

/-- The memories are in canonical form and inside their capacities; the last output lies inside OUT_MEM and was written
(10_state.md R41, R42; 30_encoding.md R88). -/
structure State.MemoryOk (s : State) : Prop where
  inCanonical : s.inMem.wf = true
  outCanonical : s.outMem.wf = true
  inInside : s.inMem.below s.cfg.inCap.toNat = true
  outInside : s.outMem.below s.cfg.outCap.toNat = true
  outLenInside : s.outLen.toNat ≤ s.cfg.outCap.toNat
  outLenWritten : s.outMem.WrittenFrom 0 s.outLen.toNat

/-- The frequency table was made from the bytes in IN_MEM below IN_LEN (41_freq_model.md R110, R111). -/
structure State.TableOfInput (s : State) : Prop where
  sizeIsLength : s.ogSize = s.inLen
  lengthInside : s.inLen.toNat ≤ s.cfg.inCap.toNat
  tableOfBytes : ∃ bytes, s.inMem.coreRead 0 s.inLen.toNat = .ok bytes ∧ s.freq = freqTable bytes

/-- The frequency table was read from the container in IN_MEM (46_container.md R195, R196). -/
structure State.TableOfContainer (s : State) : Prop where
  sizePositive : 1 ≤ s.ogSize.toNat
  lengthInside : s.inLen.toNat ≤ s.cfg.inCap.toNat
  payloadOffset : s.payloadOff.toNat = recordOffset s.distinct.toNat
  recordsInside : recordOffset s.distinct.toNat ≤ s.inLen.toNat
  tableOfRecords : ∃ records, readRecords s.inMem headerBytes s.distinct.toNat = .ok records ∧
    inconsistentRecords records s.ogSize.toNat = false ∧ s.freq = tableOfRecords records

/-- The current frequency table is sound: its size, its sum, and its source (41_freq_model.md R111, 46_container.md R195). -/
structure State.TableOk (s : State) : Prop where
  distinctIsCount : s.distinct.toNat = distinctCount s.freq
  sumIsSize : (s.freq.toList.map BitVec.toNat).sum = s.ogSize.toNat
  ofInput : s.status.freqSrc = false → s.TableOfInput
  ofContainer : s.status.freqSrc = true → s.TableOfContainer

/-- The tree is the tree of the current frequency table (10_state.md R24). -/
structure State.TreeOk (s : State) : Prop where
  arena : s.nodes = arenaOf (buildTree s.freq)
  count : s.nodeCount.toNat = treeSize s.freq
  rootIsLast : s.root.toNat = treeSize s.freq - 1

/-- The codes are the codes of the current tree (10_state.md R24). -/
structure State.CodesOk (s : State) : Prop where
  lengths : s.codeLen = (codesOfTable s.freq).len
  patterns : s.codeBits = (codesOfTable s.freq).bits

/-- The invariant of the block: every valid flag means what 10_state.md R24 says it means, and memories and STATUS are in
their legal forms. -/
structure State.Inv (s : State) : Prop where
  parameters : s.cfg.wf = true
  status : s.StatusOk
  memory : s.MemoryOk
  table : s.status.freqValid = true → s.TableOk
  tree : s.status.treeValid = true → s.TreeOk
  codes : s.status.codesValid = true → s.CodesOk
  faultsDistinct : s.faults.Nodup

/-! ### Frames: what state t keeps of state s -/

/-- What no command writes: the parameters, INT_EN, IN_LEN, every byte of IN_MEM, LAST_CMD, FAULT, and the host's side. -/
structure State.KeepsInput (s t : State) : Prop where
  cfg : t.cfg = s.cfg
  doneIe : t.doneIe = s.doneIe
  inLen : t.inLen = s.inLen
  inMem : ∀ a, t.inMem.read a = s.inMem.read a
  lastCmd : t.status.lastCmd = s.status.lastCmd
  faults : t.faults = s.faults
  hostProg : t.hostProg = s.hostProg
  sched : t.sched = s.sched
  hostReads : t.hostReads = s.hostReads
  drawCount : t.drawCount = s.drawCount

/-- The frequency table with its size registers and flags. -/
structure State.KeepsTable (s t : State) : Prop where
  freq : t.freq = s.freq
  distinct : t.distinct = s.distinct
  ogSize : t.ogSize = s.ogSize
  freqValid : t.status.freqValid = s.status.freqValid
  freqSrc : t.status.freqSrc = s.status.freqSrc

/-- The tree with its registers. -/
structure State.KeepsTree (s t : State) : Prop where
  nodes : t.nodes = s.nodes
  nodeCount : t.nodeCount = s.nodeCount
  root : t.root = s.root

/-- The code table. -/
structure State.KeepsCodes (s t : State) : Prop where
  codeLen : t.codeLen = s.codeLen
  codeBits : t.codeBits = s.codeBits

/-- Every byte of OUT_MEM. -/
def State.KeepsOutMem (s t : State) : Prop := ∀ a, t.outMem.read a = s.outMem.read a

/-- Every byte of OUT_MEM outside the first n. -/
def State.KeepsOutMemFrom (s t : State) (n : Nat) : Prop := ∀ a, n ≤ a → t.outMem.read a = s.outMem.read a

end Sys2Proof.Machine
end

