-- ==== Sys2Proof/Certificates/Slice0/Obligations.lean ====
section
/-! DEFINITION. The statements for the provers. Each docstring says which rule of the spec it formalises; unless it says
otherwise, a statement rests on the rule's own words. -/

open Sys2Proof Sys2Proof.Machine

/-! ### Encoding -/

/-- 30_encoding.md R82: a word selects a command exactly when (word AND mask) = match, the mask being all ones. -/
def Obligations.WordSelectsCommandByMaskAndMatch : Prop :=
  ∀ w : Word,
    (decode w = .ok .nop ↔ w &&& 0xFFFFFFFFFFFFFFFF#64 = 0x0000000000000000#64) ∧
    (decode w = .ok .encode ↔ w &&& 0xFFFFFFFFFFFFFFFF#64 = 0x0000000000000001#64) ∧
    (decode w = .ok .decode ↔ w &&& 0xFFFFFFFFFFFFFFFF#64 = 0x0000000000000002#64) ∧
    (decode w = .ok .freq ↔ w &&& 0xFFFFFFFFFFFFFFFF#64 = 0x0000000000000003#64) ∧
    (decode w = .ok .buildTree ↔ w &&& 0xFFFFFFFFFFFFFFFF#64 = 0x0000000000000004#64) ∧
    (decode w = .ok .genCodes ↔ w &&& 0xFFFFFFFFFFFFFFFF#64 = 0x0000000000000005#64) ∧
    (decode w = .ok .pack ↔ w &&& 0xFFFFFFFFFFFFFFFF#64 = 0x0000000000000006#64) ∧
    (decode w = .ok .deserialize ↔ w &&& 0xFFFFFFFFFFFFFFFF#64 = 0x0000000000000007#64) ∧
    (decode w = .ok .unpack ↔ w &&& 0xFFFFFFFFFFFFFFFF#64 = 0x0000000000000008#64) ∧
    (decode w = .ok .clear ↔ w &&& 0xFFFFFFFFFFFFFFFF#64 = 0x000000000000000F#64)

/-- A few words of the table, and three illegal ones, decode to what they stand for (30_encoding.md R82, R84). -/
def Obligations.WrittenOutWordsDecode : Prop :=
  decode 0x0000000000000000#64 = .ok .nop ∧ decode 0x0000000000000001#64 = .ok .encode ∧
  decode 0x0000000000000004#64 = .ok .buildTree ∧ decode 0x0000000000000008#64 = .ok .unpack ∧
  decode 0x000000000000000F#64 = .ok .clear ∧ decode 0x0000000000000009#64 = .error .reservedOpcode ∧
  decode 0x000000000000000E#64 = .error .reservedOpcode ∧ decode 0x0000000000000011#64 = .error .reservedBits

/-- Decoding the encoding of a command gives it back (30_encoding.md R82). -/
def Obligations.DecodeOfEncodeIsTheCommand : Prop := ∀ i : Instr, i.wf = true → decode (encode i) = .ok i

/-- 30_encoding.md R84, 47_control.md R216: a word with RSV not 0, or OP in 0x9 to 0xE, is accepted by an idle block, and
its core step completes with IllegalCommand and its OP as the stage, changing nothing else but what error completion
writes. -/
def Obligations.IllegalWordsAreAcceptedAndCompleteWithIllegalCommand : Prop :=
  ∀ v : Word, (wordRsv v ≠ 0#60 ∨ (0x9 ≤ (wordOp v).toNat ∧ (wordOp v).toNat ≤ 0xE)) →
    (∀ s : State, s.status.busy = false →
      hostRegWrite 0x0000#16 v s = .next { s with
        pending := some v
        status := { s.status with busy := true, done := false, lastCmd := wordOp v } }) ∧
    (∀ s : State, s.pending = some v →
      coreMove s = .next { s with
        status := { s.status with busy := false, done := true, err := .illegalCommand, errStage := wordOp v }
        outLen := 0#64
        progress := 0#64
        pending := none })

/-- Every register's number names that register, so no number aliases another register (10_state.md R20, R22). -/
def Obligations.RegisterNumbersNameTheirRegisters : Prop :=
  (∀ r : RegName, regOfNumber r.number = some r) ∧
  (∀ n : BitVec 16, ∀ r : RegName, regOfNumber n = some r → r.number = n)

/-- 20_memory.md R67, 00_scope.md R9: byte k of the 8-byte field holds bits 8k+7 down to 8k, and reading the field back
gives the value. -/
def Obligations.ContainerIntegersAreLittleEndian : Prop :=
  ∀ v : Word, (le64 v).length = 8 ∧ leValue (le64 v) = v.toNat ∧
    ∀ k b, (le64 v)[k]? = some b → ∀ j, j < 8 → b.getLsbD j = v.getLsbD (8 * k + j)

/-- 30_encoding.md R85: T bits take (T+7) div 8 bytes, bit t is in byte t div 8 at position 7 - (t mod 8), and the at most
7 padding bits are 0. -/
def Obligations.BitsArePackedMostSignificantFirst : Prop :=
  ∀ bits : List Bool, (packBits bits).length = (bits.length + 7) / 8 ∧
    8 * (packBits bits).length - bits.length ≤ 7 ∧
    ∀ t b, (packBits bits)[t / 8]? = some b → b.getLsbD (7 - t % 8) = bits.getD t false

/-- The pattern in which the first edge of a path is the most significant bit is emitted in the order of the path, for
every path a tree can have (30_encoding.md R86). -/
def Obligations.CodePatternIsEmittedInPathOrder : Prop :=
  ∀ path : List Bool, path.length ≤ 255 →
    codeBitList (BitVec.ofNat 8 path.length) (BitVec.ofNat 256 (path.foldl (fun v b => 2 * v + b.toNat) 0)) = path

/-! ### Reset, the step and the invariant -/

/-- 10_state.md R45: the values after reset; FAULT is empty when the model starts, and a reset leaves it unchanged. -/
def Obligations.ResetLeavesTheListedValues : Prop :=
  State.reset.status.toWord = 0#64 ∧ State.reset.regValue .status = 0#64 ∧ State.reset.regValue .intEn = 0#64 ∧
  State.reset.inLen = 0#64 ∧ State.reset.outLen = 0#64 ∧ State.reset.distinct = 0#9 ∧ State.reset.ogSize = 0#64 ∧
  State.reset.payloadOff = 0#64 ∧ State.reset.payloadBits = 0#64 ∧ State.reset.nodeCount = 0#10 ∧
  State.reset.root = 0#9 ∧ State.reset.progress = 0#64 ∧
  State.reset.regValue .capIn = Config.chip.inCap ∧ State.reset.regValue .capOut = Config.chip.outCap ∧
  (∀ c, atSymbol State.reset.freq c = 0#64 ∧ atSymbol State.reset.codeLen c = 0#8 ∧
    atSymbol State.reset.codeBits c = 0#256) ∧
  (∀ i, nodeAt State.reset.nodes i = Node.blank) ∧
  (∀ a, State.reset.inMem.read a = none ∧ State.reset.outMem.read a = none) ∧
  State.reset.pending = none ∧ State.reset.faults = [] ∧ State.reset.irq = false ∧
  (∀ s : State, ∃ t, hostStep .reset s = .next t ∧ t.faults = s.faults)

/-- The reset action puts every piece of hardware state at its reset value, cancels a pending command, and keeps FAULT
(70_reset_and_hazards.md R260, R261); that the parameters and the host's side are no hardware state is log 10. -/
def Obligations.ResetActionRestoresResetValuesAndCancelsTheCommand : Prop :=
  ∀ s : State, ∃ t, hostStep .reset s = .next t ∧
    t = { State.reset with
      cfg := s.cfg, faults := s.faults, hostProg := s.hostProg, sched := s.sched,
      hostReads := s.hostReads, drawCount := s.drawCount } ∧
    t.pending = none ∧ t.irq = false ∧ coreMove t = .next t

/-- The invariant holds after reset. -/
def Obligations.InvariantHoldsAtReset : Prop := State.reset.Inv

/-- Every step from a state with the invariant leads to a state with it: STATUS, PENDING, memories, and the meaning of the
valid flags (10_state.md R24, R26, R27, R41 to R43; 41_freq_model.md R111; 46_container.md R195). -/
def Obligations.EveryStepKeepsTheInvariant : Prop := ∀ s t : State, s.Inv → step s = .next t → t.Inv

/-- A step is the move of the agent whose turn it is, its turn taken from the schedule. The core's move with a pending word
that decodes to a command is that command's exec, and with an illegal word it is the error completion of
IllegalCommand (47_control.md R216, R217). The host's move is its next operation (20_memory.md R61). A fault that a move
meets is recorded in FAULT, with no other effect (how a fault is recorded is the model's choice, log 7; that turns are a
schedule in the state, log 1). -/
def Obligations.StepRunsTheDecodedCommand : Prop :=
  (∀ (s : State) (v : Word) (i : Instr), s.faults = [] → s.mover = .core → s.pending = some v → decode v = .ok i →
    (∀ t, exec i { s with sched := s.sched.tail } = .next t → step s = .next t) ∧
    (∀ r, exec i { s with sched := s.sched.tail } = .fault r → step s = .next { s with faults := [r] })) ∧
  (∀ (s : State) (v : Word) (e : DecodeReject), s.faults = [] → s.mover = .core → s.pending = some v →
    decode v = .error e → step s = .next { s with
      status := { s.status with busy := false, done := true, err := .illegalCommand, errStage := wordOp v }
      outLen := 0#64
      progress := 0#64
      pending := none
      sched := s.sched.tail }) ∧
  (∀ (s : State) (op : HostOp) (rest : List HostOp), s.faults = [] → s.mover = .host → s.hostProg = op :: rest →
    (∀ t, hostStep op { s with sched := s.sched.tail, hostProg := rest } = .next t → step s = .next t) ∧
    (∀ r, hostStep op { s with sched := s.sched.tail, hostProg := rest } = .fault r →
      step s = .next { s with faults := [r] }))

/-- After a recorded model fault no step of any agent is defined: every step answers a recorded fault
(47_control.md R217, 93_implementation_defined.md I13; that it answers the newest is the model's choice, log 7). -/
def Obligations.ModelStopsAfterAFault : Prop :=
  ∀ s : State, s.faults ≠ [] → ∃ r ∈ s.faults, step s = .fault r

/-- A pending command is taken within as many steps as the schedule has entries, and one: then PENDING is none (the command
completed, or a reset cancelled it) or a model fault was recorded (70_reset_and_hazards.md R272, R273; that the core
moves when the schedule is used up is the model's choice, log 9). -/
def Obligations.PendingCommandIsTakenInBoundedSteps : Prop :=
  ∀ s : State, s.faults = [] → s.pending.isSome = true →
    ∃ k t, k ≤ s.sched.length + 1 ∧ core.run k s = .next t ∧ (t.pending = none ∨ t.faults ≠ [])

/-- An idle block with nothing for the host to do keeps all its state (60_exceptions.md R255; that such a step is a step is
the model's choice, log 9). -/
def Obligations.IdleBlockKeepsItsState : Prop :=
  ∀ s : State, s.faults = [] → s.pending = none → s.hostProg = [] → step s = .next { s with sched := s.sched.tail }

/-! ### What every command does -/

/-- 10_state.md R26: acceptance sets BUSY and clears DONE, completion does the reverse, for success and for error, and
BUSY and DONE never both read 1. -/
def Obligations.BusyAndDoneNeverBothReadOne : Prop :=
  (∀ (s : State) (v : Word), (s.accept v).status.busy = true ∧ (s.accept v).status.done = false) ∧
  (∀ (i : Instr) (s t : State), exec i s = .next t →
    t.status.busy = false ∧ t.status.done = true ∧ t.pending = none) ∧
  (∀ (v : Word) (s t : State), execIllegal v s = .next t →
    t.status.busy = false ∧ t.status.done = true ∧ t.pending = none) ∧
  (∀ s t : State, s.Inv → step s = .next t → ¬(t.status.busy = true ∧ t.status.done = true))

/-- 60_exceptions.md R245: irq is DONE AND DONE_IE; at the completion of any command, with success or error, it is high
exactly when DONE_IE = 1. -/
def Obligations.InterruptIsDoneAndEnabled : Prop :=
  (∀ s : State, s.irq = true ↔ s.status.done = true ∧ s.doneIe = true) ∧
  (∀ (i : Instr) (s t : State), exec i s = .next t → t.irq = s.doneIe) ∧
  (∀ (v : Word) (s t : State), execIllegal v s = .next t → t.irq = s.doneIe)

/-- No command writes IN_MEM, and only PACK, UNPACK, ENCODE and DECODE write OUT_MEM (20_memory.md R60, R77). None writes
IN_LEN, INT_EN, LAST_CMD or FAULT: the "State written" and "Unchanged" lines of R110, R120, R140, R150, R170, R196, R214
and R215, and the common end of R217, name none of them. That no command touches the host's side is the model's own
(log 1, log 5, log 14). -/
def Obligations.CommandsKeepTheInputAndOnlyOutputCommandsWriteOutMem : Prop :=
  ∀ (i : Instr) (s t : State), exec i s = .next t →
    State.KeepsInput s t ∧
    (i ≠ .pack → i ≠ .unpack → i ≠ .encode → i ≠ .decode → State.KeepsOutMem s t)

/-- Error completion of a command of one stage writes ERR, ERR_STAGE (the command's opcode), OUT_LEN <- 0, PROGRESS <- 0 and
the common end, and nothing else (60_exceptions.md R235). -/
def Obligations.ErrorCompletionIsPrecise : Prop :=
  ∀ (i : Instr) (s t : State), i ≠ .encode → i ≠ .decode → exec i s = .next t → t.status.err ≠ .noError →
    t = { s with
      status := { s.status with busy := false, done := true, err := t.status.err, errStage := i.opcode }
      outLen := 0#64
      progress := 0#64
      pending := none }

/-- Each error is raised only by the stages the table of errors gives it (60_exceptions.md R230). -/
def Obligations.ErrorsComeFromTheirStages : Prop :=
  ∀ (i : Instr) (s t : State), exec i s = .next t →
    (t.status.err = .noError ∧ t.status.errStage = 0x0#4) ∨
    (t.status.err = .emptyInput ∧ t.status.errStage = 0x6#4) ∨
    (t.status.err = .malformedContainer ∧ (t.status.errStage = 0x7#4 ∨ t.status.errStage = 0x8#4)) ∨
    (t.status.err = .inconsistentFrequencyTable ∧ t.status.errStage = 0x7#4) ∨
    (t.status.err = .sequenceError ∧
      (t.status.errStage = 0x4#4 ∨ t.status.errStage = 0x5#4 ∨ t.status.errStage = 0x6#4 ∨ t.status.errStage = 0x8#4)) ∨
    (t.status.err = .capacityExceeded ∧
      (t.status.errStage = 0x3#4 ∨ t.status.errStage = 0x6#4 ∨ t.status.errStage = 0x7#4 ∨ t.status.errStage = 0x8#4))

/-- The valid flags and FREQ_SRC change only by the success of FREQ, DESERIALIZE, BUILD_TREE and
GEN_CODES (ENCODE and DECODE being their stages), by a host write to IN_LEN or an IN_MEM byte, and by CLEAR and reset;
error completion changes none (10_state.md R27). -/
def Obligations.ValidFlagsChangeOnlyAsListed : Prop :=
  (∀ (i : Instr) (s t : State), i ≠ .encode → i ≠ .decode → exec i s = .next t →
    t.status.flags =
      if t.status.err = .noError then
        match i with
        | .freq => (true, false, false, false)
        | .deserialize => (true, false, false, true)
        | .buildTree => (s.status.freqValid, true, false, s.status.freqSrc)
        | .genCodes => (s.status.freqValid, s.status.treeValid, true, s.status.freqSrc)
        | .clear => (false, false, false, false)
        | _ => s.status.flags
      else s.status.flags) ∧
  (∀ s t : State, exec .encode s = .next t →
    t.status.flags = if t.status.errStage = 0x3#4 then s.status.flags else (true, true, true, false)) ∧
  (∀ s t : State, exec .decode s = .next t →
    t.status.flags = if t.status.errStage = 0x7#4 then s.status.flags else (true, true, false, true)) ∧
  (∀ (op : HostOp) (s t : State), hostStep op s = .next t →
    t.status.flags =
      match op with
      | .inWrite _ _ => (false, false, false, false)
      | .regWrite n _ => if n = RegName.inLen.number then (false, false, false, false) else s.status.flags
      | .reset => (false, false, false, false)
      | _ => s.status.flags) ∧
  (∀ (v : Word) (s t : State), execIllegal v s = .next t → t.status.flags = s.status.flags)

/-- The checks a stage makes first: a missing prerequisite flag, or a table from the wrong source, is SequenceError, and
then an input or output that does not fit is CapacityExceeded, whatever the rest of the state; nothing but the error
completion happens (60_exceptions.md R232; 42_tree_builder.md R120, 43_code_table_gen.md R140, 44_bitpacker.md R150,
45_bitunpacker.md R170, R176, 46_container.md R196). -/
def Obligations.PrerequisiteAndCapacityChecksComeFirst : Prop :=
  ∀ s : State,
    (s.status.freqValid = false → exec .buildTree s = .next (s.errorCompletion .sequenceError 0x4#4)) ∧
    (s.status.treeValid = false → exec .genCodes s = .next (s.errorCompletion .sequenceError 0x5#4)) ∧
    ((s.status.codesValid = false ∨ s.status.freqSrc = true) →
      exec .pack s = .next (s.errorCompletion .sequenceError 0x6#4)) ∧
    ((s.status.treeValid = false ∨ s.status.freqSrc = false) →
      exec .unpack s = .next (s.errorCompletion .sequenceError 0x8#4)) ∧
    (s.cfg.inCap.toNat < s.inLen.toNat → exec .freq s = .next (s.errorCompletion .capacityExceeded 0x3#4)) ∧
    (s.cfg.inCap.toNat < s.inLen.toNat → exec .deserialize s = .next (s.errorCompletion .capacityExceeded 0x7#4)) ∧
    (s.status.treeValid = true → s.status.freqSrc = true → s.cfg.outCap.toNat < s.ogSize.toNat →
      exec .unpack s = .next (s.errorCompletion .capacityExceeded 0x8#4))

/-- What the commands that store nothing leave unchanged: NOP everything but the end of a command; FREQ the tree, the codes
and the payload registers; BUILD_TREE the table, the codes and the result registers; GEN_CODES the table, the tree and
the result registers; DESERIALIZE the tree, the codes, PAYLOAD_BITS; CLEAR the input and the output memory. OUT_LEN and
PROGRESS change by error completion too (60_exceptions.md R235). -/
def Obligations.FramesOfCommandsThatStoreNothing : Prop :=
  ∀ s t : State,
    (exec .nop s = .next t → State.KeepsInput s t ∧ State.KeepsTable s t ∧ State.KeepsTree s t ∧ State.KeepsCodes s t ∧
      State.KeepsOutMem s t ∧ t.outLen = s.outLen ∧ t.payloadOff = s.payloadOff ∧ t.payloadBits = s.payloadBits ∧
      t.progress = s.progress ∧ t.status.flags = s.status.flags ∧ t.status.cmdDropped = s.status.cmdDropped) ∧
    (exec .freq s = .next t → State.KeepsInput s t ∧ State.KeepsTree s t ∧ State.KeepsCodes s t ∧
      State.KeepsOutMem s t ∧ t.payloadOff = s.payloadOff ∧ t.payloadBits = s.payloadBits ∧
      t.status.cmdDropped = s.status.cmdDropped ∧ (t.Succeeded → t.outLen = s.outLen)) ∧
    (exec .buildTree s = .next t → State.KeepsInput s t ∧ State.KeepsTable s t ∧ State.KeepsCodes s t ∧
      State.KeepsOutMem s t ∧ t.payloadOff = s.payloadOff ∧ t.payloadBits = s.payloadBits ∧
      t.status.cmdDropped = s.status.cmdDropped ∧
      (t.Succeeded → t.outLen = s.outLen ∧ t.progress = s.progress)) ∧
    (exec .genCodes s = .next t → State.KeepsInput s t ∧ State.KeepsTable s t ∧ State.KeepsTree s t ∧
      State.KeepsOutMem s t ∧ t.payloadOff = s.payloadOff ∧ t.payloadBits = s.payloadBits ∧
      t.status.treeValid = s.status.treeValid ∧ t.status.cmdDropped = s.status.cmdDropped ∧
      (t.Succeeded → t.outLen = s.outLen ∧ t.progress = s.progress)) ∧
    (exec .deserialize s = .next t → State.KeepsInput s t ∧ State.KeepsTree s t ∧ State.KeepsCodes s t ∧
      State.KeepsOutMem s t ∧ t.payloadBits = s.payloadBits ∧ t.status.cmdDropped = s.status.cmdDropped ∧
      (t.Succeeded → t.outLen = s.outLen ∧ t.progress = s.progress)) ∧
    (exec .clear s = .next t → State.KeepsInput s t ∧ State.KeepsOutMem s t)

/-- What the output commands leave unchanged: PACK every byte of OUT_MEM from the container's length on (the length its
meaning computes), UNPACK every byte from OG_SIZE on, and both the table, the tree, the codes and the flags; on an error
no byte of OUT_MEM changes (44_bitpacker.md R150, 45_bitunpacker.md R170, R175). -/
def Obligations.FramesOfOutputCommands : Prop :=
  ∀ s t : State,
    (s.Inv → exec .pack s = .next t →
      State.KeepsInput s t ∧ State.KeepsTable s t ∧ State.KeepsTree s t ∧ State.KeepsCodes s t ∧
      t.status.flags = s.status.flags ∧ t.status.cmdDropped = s.status.cmdDropped ∧
      State.KeepsOutMemFrom s t s.packLength ∧
      (¬t.Succeeded → State.KeepsOutMem s t ∧ t.payloadOff = s.payloadOff ∧ t.payloadBits = s.payloadBits)) ∧
    (exec .unpack s = .next t →
      State.KeepsInput s t ∧ State.KeepsTable s t ∧ State.KeepsTree s t ∧ State.KeepsCodes s t ∧
      t.status.flags = s.status.flags ∧ t.status.cmdDropped = s.status.cmdDropped ∧ t.payloadOff = s.payloadOff ∧
      State.KeepsOutMemFrom s t s.ogSize.toNat ∧
      (¬t.Succeeded → State.KeepsOutMem s t ∧ t.payloadBits = s.payloadBits))

/-! ### NOP and CLEAR -/

/-- 47_control.md R214: NOP completes with success, ERR and ERR_STAGE become 0, and nothing else changes. -/
def Obligations.NopCompletesAndChangesNothingElse : Prop :=
  decode 0x0000000000000000#64 = .ok .nop ∧
  ∀ s : State, exec .nop s = .next { s with
    status := { s.status with busy := false, done := true, err := .noError, errStage := 0x0#4 }
    pending := none }

/-- 47_control.md R215: CLEAR completes with every table, result register and flag cleared, and the rest unchanged. -/
def Obligations.ClearResetsTheCodecAndKeepsTheMemories : Prop :=
  decode 0x000000000000000F#64 = .ok .clear ∧
  ∀ s : State, exec .clear s = .next { s with
    freq := Vector.replicate 256 0#64
    codeLen := Vector.replicate 256 0#8
    codeBits := Vector.replicate 256 0#256
    nodes := Vector.replicate 512 Node.blank
    outLen := 0#64
    distinct := 0#9
    ogSize := 0#64
    payloadOff := 0#64
    payloadBits := 0#64
    nodeCount := 0#10
    root := 0#9
    progress := 0#64
    pending := none
    status := { s.status with
      busy := false
      done := true
      err := .noError
      errStage := 0x0#4
      freqValid := false
      treeValid := false
      codesValid := false
      freqSrc := false
      cmdDropped := false } }

/-! ### FREQ -/

/-- 41_freq_model.md R110: FREQ counts the bytes of the input; it raises CapacityExceeded before it reads a byte, and meets
UninitRead at the first byte, in the order its loop reads them, that was never written. -/
def Obligations.FreqCountsTheInputBytes : Prop :=
  decode 0x0000000000000003#64 = .ok .freq ∧
  ∀ s : State,
    (s.cfg.inCap.toNat < s.inLen.toNat → exec .freq s = .next { s with
      status := { s.status with busy := false, done := true, err := .capacityExceeded, errStage := 0x3#4 }
      outLen := 0#64
      progress := 0#64
      pending := none }) ∧
    (∀ bytes : List Byte, bytes.length = s.inLen.toNat → s.inLen.toNat ≤ s.cfg.inCap.toNat → s.inMem.Holds 0 bytes →
      ∃ t, exec .freq s = .next t ∧
        (∀ c, (atSymbol t.freq c).toNat = bytes.count c) ∧
        t.distinct.toNat = ((List.range 256).filter fun c => decide (1 ≤ bytes.count (BitVec.ofNat 8 c))).length ∧
        t = { s with
          freq := t.freq
          distinct := t.distinct
          ogSize := s.inLen
          progress := s.inLen
          pending := none
          status := { s.status with
            busy := false
            done := true
            err := .noError
            errStage := 0x0#4
            freqValid := true
            freqSrc := false
            treeValid := false
            codesValid := false } }) ∧
    (∀ a, s.inLen.toNat ≤ s.cfg.inCap.toNat → a < s.inLen.toNat → s.inMem.read a = none →
      (∀ b, b < a → (s.inMem.read b).isSome = true) → exec .freq s = .fault (.uninitRead a))

/-- 41_freq_model.md R111: after a successful FREQ the counts sum to OG_SIZE = IN_LEN, DISTINCT is the number of symbols
present, at most 256, and the number of unique byte values of the input, and it is 0 exactly when OG_SIZE is. -/
def Obligations.FreqTableInvariants : Prop :=
  ∀ s t : State, exec .freq s = .next t → t.Succeeded →
    (t.freq.toList.map BitVec.toNat).sum = t.ogSize.toNat ∧ t.ogSize = t.inLen ∧
    t.distinct.toNat = ((List.range 256).filter fun c => decide (1 ≤ (atSymbol t.freq (BitVec.ofNat 8 c)).toNat)).length ∧
    t.distinct.toNat ≤ 256 ∧ (t.distinct.toNat = 0 ↔ t.ogSize.toNat = 0) ∧
    ∃ bytes : List Byte, bytes.length = s.inLen.toNat ∧ s.inMem.Holds 0 bytes ∧ t.distinct.toNat = bytes.dedup.length

/-! ### BUILD_TREE -/

/-- BUILD_TREE of a table of n distinct symbols completes with the arena of a strict binary tree: n leaves in ascending
symbol order, then internal nodes whose children have smaller indices and whose weight is the sum of theirs, then unused
nodes; every node but the root is the child of exactly one node (10_state.md R34, R40; 42_tree_builder.md R121, R122,
R124). -/
def Obligations.BuildTreeMakesAStrictBinaryTree : Prop :=
  ∀ s : State, s.status.freqValid = true →
    ∃ t, exec .buildTree s = .next t ∧ t.Succeeded ∧
      let n := distinctCount s.freq
      t.nodeCount.toNat = 2 * n - 1 ∧ t.root.toNat = 2 * n - 2 ∧
      (∀ i, i < n → (nodeAt t.nodes i).kind = .leaf ∧ (nodeAt t.nodes i).left = 0 ∧ (nodeAt t.nodes i).right = 0 ∧
        (nodeAt t.nodes i).weight = atSymbol s.freq (nodeAt t.nodes i).symbol ∧ (nodeAt t.nodes i).weight ≠ 0#64) ∧
      (∀ i j, i < j → j < n → (nodeAt t.nodes i).symbol.toNat < (nodeAt t.nodes j).symbol.toNat) ∧
      (∀ i, n ≤ i → i < 2 * n - 1 → (nodeAt t.nodes i).kind = .internal ∧ (nodeAt t.nodes i).symbol = 0#8 ∧
        (nodeAt t.nodes i).left < i ∧ (nodeAt t.nodes i).right < i ∧
        (nodeAt t.nodes i).left ≠ (nodeAt t.nodes i).right ∧
        (nodeAt t.nodes i).weight =
          (nodeAt t.nodes (nodeAt t.nodes i).left).weight + (nodeAt t.nodes (nodeAt t.nodes i).right).weight) ∧
      (∀ i, 2 * n - 1 ≤ i → nodeAt t.nodes i = Node.blank) ∧
      (∀ i, i < 2 * n - 2 → ∃! p, IsChildBelow t.nodes (2 * n - 1) i p)

/-- Merging takes the two least items under (WEIGHT, arena index), the first to the left and the second to the right: when
node m was made, its left child came before every other node with no parent yet, and its right child before every other
but the left one (42_tree_builder.md R122, R123). -/
def Obligations.MergingTakesTheTwoLeastItems : Prop :=
  ∀ s t : State, exec .buildTree s = .next t → t.Succeeded →
    ∀ m, distinctCount s.freq ≤ m → m < t.nodeCount.toNat →
      let left := (nodeAt t.nodes m).left
      let right := (nodeAt t.nodes m).right
      NodeBefore t.nodes left right ∧
      (∀ p, ¬IsChildBelow t.nodes m left p) ∧ (∀ p, ¬IsChildBelow t.nodes m right p) ∧
      ∀ j, j < m → j ≠ left → j ≠ right → (∀ p, ¬IsChildBelow t.nodes m j p) → NodeBefore t.nodes right j

/-- The weights do not wrap: the root's weight is the sum of the frequencies, which is OG_SIZE (42_tree_builder.md R125). -/
def Obligations.RootWeightIsTheOriginalSize : Prop :=
  ∀ s : State, s.Inv → s.status.freqValid = true → s.ogSize ≠ 0#64 →
    ∃ t, exec .buildTree s = .next t ∧ t.Succeeded ∧ (nodeAt t.nodes t.root.toNat).weight = s.ogSize ∧
      ((List.range (distinctCount s.freq)).map fun i => (nodeAt t.nodes i).weight.toNat).sum = s.ogSize.toNat

/-! ### GEN_CODES -/

/-- GEN_CODES completes whenever TREE_VALID = 1, writing CODE_LEN, CODE_BITS and CODES_VALID alone; the empty tree gives the
all-zero table (43_code_table_gen.md R140). -/
def Obligations.GenCodesCompletes : Prop :=
  ∀ s : State, s.status.treeValid = true →
    ∃ t, exec .genCodes s = .next t ∧
      t = { s with
        codeLen := t.codeLen
        codeBits := t.codeBits
        pending := none
        status := { s.status with busy := false, done := true, err := .noError, errStage := 0x0#4, codesValid := true } } ∧
      (s.nodeCount = 0#10 → ∀ c, atSymbol t.codeLen c = 0#8 ∧ atSymbol t.codeBits c = 0#256)

/-- 43_code_table_gen.md R142: when the tree is one leaf, its symbol gets the code (0, length 1). -/
def Obligations.SingleLeafGetsTheOneBitCodeZero : Prop :=
  ∀ s : State, s.status.treeValid = true → s.nodeCount = 1#10 →
    ∃ t, exec .genCodes s = .next t ∧ t.Succeeded ∧
      atSymbol t.codeBits (nodeAt s.nodes 0).symbol = 0#256 ∧ atSymbol t.codeLen (nodeAt s.nodes 0).symbol = 1#8 ∧
      ∀ c, c ≠ (nodeAt s.nodes 0).symbol → atSymbol t.codeLen c = 0#8 ∧ atSymbol t.codeBits c = 0#256

/-- The code of a present symbol is the path from the root to its leaf, left 0 and right 1, held with no bit above its
length; an absent symbol has none (43_code_table_gen.md R141, 10_state.md R37, R38, 30_encoding.md R86). -/
def Obligations.CodesArePathsFromTheRoot : Prop :=
  ∀ s : State, s.status.treeValid = true → s.TreeOk → 2 ≤ distinctCount s.freq →
    ∃ t, exec .genCodes s = .next t ∧ t.Succeeded ∧
      (∀ c, atSymbol s.freq c ≠ 0#64 →
        (nodeAt s.nodes (followPath s.nodes s.root.toNat (t.codeOf c))).kind = .leaf ∧
        (nodeAt s.nodes (followPath s.nodes s.root.toNat (t.codeOf c))).symbol = c ∧
        (atSymbol t.codeBits c).toNat < 2 ^ (atSymbol t.codeLen c).toNat) ∧
      (∀ c, atSymbol s.freq c = 0#64 → atSymbol t.codeLen c = 0#8 ∧ atSymbol t.codeBits c = 0#256)

/-- 43_code_table_gen.md R143: after BUILD_TREE and GEN_CODES of a table of n symbols, exactly the present symbols have
codes, no two share one, for n >= 2 no code is a prefix of another and the Kraft sum is exactly 1, and for n = 1 it is
1/2 (the sums are stated times 2^255). -/
def Obligations.CodesArePrefixFreeWithFullKraftSum : Prop :=
  ∀ s t u : State, exec .buildTree s = .next t → t.Succeeded → exec .genCodes t = .next u →
    u.Succeeded ∧
    (∀ c, 1 ≤ (atSymbol u.codeLen c).toNat ↔ 1 ≤ (atSymbol s.freq c).toNat) ∧
    (∀ c d, atSymbol s.freq c ≠ 0#64 → atSymbol s.freq d ≠ 0#64 → c ≠ d →
      ¬(atSymbol u.codeLen c = atSymbol u.codeLen d ∧ atSymbol u.codeBits c = atSymbol u.codeBits d)) ∧
    (2 ≤ distinctCount s.freq → ∀ c d, atSymbol s.freq c ≠ 0#64 → atSymbol s.freq d ≠ 0#64 → c ≠ d →
      ¬(u.codeOf c <+: u.codeOf d)) ∧
    (2 ≤ distinctCount s.freq → u.kraftSum = 2 ^ 255) ∧
    (distinctCount s.freq = 1 → u.kraftSum = 2 ^ 254)

/-! ### PACK -/

/-- 44_bitpacker.md R154, R155: with current codes of the host's input, PACK raises EmptyInput for OG_SIZE = 0 and otherwise
CapacityExceeded for a container longer than OUT_MEM; OUT_MEM is unchanged and OUT_LEN becomes 0. -/
def Obligations.PackRaisesEmptyInputThenCapacityExceeded : Prop :=
  ∀ s : State, s.status.codesValid = true → s.status.freqSrc = false →
    (s.ogSize = 0#64 → exec .pack s = .next { s with
      status := { s.status with busy := false, done := true, err := .emptyInput, errStage := 0x6#4 }
      outLen := 0#64
      progress := 0#64
      pending := none }) ∧
    (s.ogSize ≠ 0#64 →
      s.cfg.outCap.toNat < 16 + 9 * s.distinct.toNat + (meaningfulBits s.freq s.codeLen + 7) / 8 →
      exec .pack s = .next { s with
        status := { s.status with busy := false, done := true, err := .capacityExceeded, errStage := 0x6#4 }
        outLen := 0#64
        progress := 0#64
        pending := none })

/-- PACK writes the container of the input into OUT_MEM: header, records in ascending symbol order, payload, each at its
offset; it writes exactly OUT_LEN bytes, and PAYLOAD_BITS is the exact bit count (44_bitpacker.md R150, R152, R153; 46_container.md R190 to
R192; 00_scope.md R7). -/
def Obligations.PackWritesTheContainerOfTheInput : Prop :=
  ∀ s : State, s.Inv → s.status.codesValid = true → s.status.freqSrc = false → s.ogSize ≠ 0#64 →
    s.packLength ≤ s.cfg.outCap.toNat →
    ∃ t bytes, bytes.length = s.ogSize.toNat ∧ s.inMem.Holds 0 bytes ∧ exec .pack s = .next t ∧
      t.outMem.HoldsContainer s.freq s.ogSize (bytes.flatMap s.codeOf) ∧
      s.distinct.toNat = (presentSymbols s.freq).length ∧
      s.packLength = 16 + 9 * s.distinct.toNat + ((bytes.flatMap s.codeOf).length + 7) / 8 ∧
      (containerOf bytes).length = s.packLength ∧ t.outMem.Holds 0 (containerOf bytes) ∧
      (∀ a, s.packLength ≤ a → t.outMem.read a = s.outMem.read a) ∧
      t.outLen.toNat = s.packLength ∧ t.payloadOff.toNat = 16 + 9 * s.distinct.toNat ∧
      t.payloadBits.toNat = meaningfulBits s.freq s.codeLen ∧
      t.payloadBits.toNat = (bytes.flatMap s.codeOf).length ∧
      t = { s with
        outMem := t.outMem
        outLen := t.outLen
        payloadOff := t.payloadOff
        payloadBits := t.payloadBits
        progress := s.ogSize
        pending := none
        status := { s.status with busy := false, done := true, err := .noError, errStage := 0x0#4 } }

/-! ### DESERIALIZE -/

/-- 46_container.md R194: a container shorter than its header, or with more records than fit, is MalformedContainer; the
comparison is on naturals. -/
def Obligations.DeserializeRejectsTruncatedContainers : Prop :=
  ∀ s : State, s.inLen.toNat ≤ s.cfg.inCap.toNat →
    (s.inLen.toNat < 16 → exec .deserialize s = .next (s.errorCompletion .malformedContainer 0x7#4)) ∧
    (∀ k og : Word, 16 ≤ s.inLen.toNat → s.inMem.Holds 0 (le64 k ++ le64 og) → (s.inLen.toNat - 16) / 9 < k.toNat →
      exec .deserialize s = .next (s.errorCompletion .malformedContainer 0x7#4))

/-- 46_container.md R195: after the records are read, no record, a frequency 0, a symbol twice, or an exact sum other than
original_length is InconsistentFrequencyTable; otherwise the table has 1 to 256 symbols, exactly the records' entries
nonzero, and sums to og_size. -/
def Obligations.DeserializeChecksTheRecords : Prop :=
  ∀ (s : State) (records : List (Byte × Word)) (og : Word),
    s.inLen.toNat ≤ s.cfg.inCap.toNat → 16 + 9 * records.length ≤ s.inLen.toNat →
    s.inMem.Holds 0 (le64 (BitVec.ofNat 64 records.length) ++ le64 og ++ records.flatMap (fun r => r.1 :: le64 r.2)) →
    ((records = [] ∨ (∃ r ∈ records, r.2 = 0#64) ∨ ¬(records.map Prod.fst).Nodup ∨
        (records.map fun r => r.2.toNat).sum ≠ og.toNat) →
      exec .deserialize s = .next (s.errorCompletion .inconsistentFrequencyTable 0x7#4)) ∧
    (records ≠ [] → (∀ r ∈ records, r.2 ≠ 0#64) → (records.map Prod.fst).Nodup →
      (records.map fun r => r.2.toNat).sum = og.toNat →
      ∃ t, exec .deserialize s = .next t ∧ t.Succeeded ∧ 1 ≤ records.length ∧ records.length ≤ 256 ∧
        distinctCount t.freq = records.length ∧ 1 ≤ og.toNat ∧ (t.freq.toList.map BitVec.toNat).sum = og.toNat)

/-- A consistent container in any record order is read into the frequency table: each frequency at its symbol's index, 0
elsewhere; DISTINCT, OG_SIZE, PAYLOAD_OFF and the flags are written, and nothing else. A header byte that was never
written, or a byte of the records the header claims, is UninitRead at the first of them (46_container.md R196, R197;
20_memory.md R64; the order of the reads is log 8). -/
def Obligations.DeserializeReadsTheFrequencyTable : Prop :=
  (∀ (s : State) (records : List (Byte × Word)) (og : Word),
      s.inLen.toNat ≤ s.cfg.inCap.toNat → 16 + 9 * records.length ≤ s.inLen.toNat →
      s.inMem.Holds 0 (le64 (BitVec.ofNat 64 records.length) ++ le64 og ++ records.flatMap (fun r => r.1 :: le64 r.2)) →
      records ≠ [] → (∀ r ∈ records, r.2 ≠ 0#64) → (records.map Prod.fst).Nodup →
      (records.map fun r => r.2.toNat).sum = og.toNat →
      ∃ t, exec .deserialize s = .next t ∧
        (∀ r ∈ records, atSymbol t.freq r.1 = r.2) ∧ (∀ c, c ∉ records.map Prod.fst → atSymbol t.freq c = 0#64) ∧
        t.distinct.toNat = records.length ∧ t.payloadOff.toNat = 16 + 9 * records.length ∧
        t = { s with
          freq := t.freq
          distinct := t.distinct
          ogSize := og
          payloadOff := t.payloadOff
          pending := none
          status := { s.status with
            busy := false
            done := true
            err := .noError
            errStage := 0x0#4
            freqValid := true
            freqSrc := true
            treeValid := false
            codesValid := false } }) ∧
  (∀ (s : State) (a : Nat), s.inLen.toNat ≤ s.cfg.inCap.toNat → 16 ≤ s.inLen.toNat → a < 16 →
    s.inMem.read a = none → s.inMem.WrittenFrom 0 a → exec .deserialize s = .fault (.uninitRead a)) ∧
  (∀ (s : State) (k og : Word) (a : Nat), s.inLen.toNat ≤ s.cfg.inCap.toNat → 16 ≤ s.inLen.toNat →
    s.inMem.Holds 0 (le64 k ++ le64 og) → k.toNat ≤ (s.inLen.toNat - 16) / 9 → a < 16 + 9 * k.toNat →
    s.inMem.read a = none → s.inMem.WrittenFrom 0 a → exec .deserialize s = .fault (.uninitRead a))

/-- The order of the records does not matter: containers with the same records in another order give the same table and the
same tree (46_container.md R197, 42_tree_builder.md R126). -/
def Obligations.RecordOrderDoesNotMatter : Prop :=
  ∀ (s s' t t' : State) (records records' : List (Byte × Word)) (og : Word), records.Perm records' →
    16 + 9 * records.length ≤ s.inLen.toNat → 16 + 9 * records'.length ≤ s'.inLen.toNat →
    s.inMem.Holds 0 (le64 (BitVec.ofNat 64 records.length) ++ le64 og ++ records.flatMap (fun r => r.1 :: le64 r.2)) →
    s'.inMem.Holds 0 (le64 (BitVec.ofNat 64 records'.length) ++ le64 og ++ records'.flatMap (fun r => r.1 :: le64 r.2)) →
    exec .deserialize s = .next t → exec .deserialize s' = .next t' → t.Succeeded → t'.Succeeded →
    t.freq = t'.freq ∧ t.distinct = t'.distinct ∧ t.ogSize = t'.ogSize ∧
    ∀ u u', exec .buildTree t = .next u → exec .buildTree t' = .next u' →
      u.nodes = u'.nodes ∧ u.nodeCount = u'.nodeCount ∧ u.root = u'.root

/-! ### UNPACK -/

/-- 45_bitunpacker.md R173: with a single-leaf tree UNPACK consumes one bit per symbol and emits the leaf's symbol, whatever
the bits are; too few bits are MalformedContainer; an unwritten byte that is reached is UninitRead. -/
def Obligations.UnpackOfASingleLeafEmitsItsSymbol : Prop :=
  ∀ s : State, s.status.treeValid = true → s.status.freqSrc = true → s.ogSize.toNat ≤ s.cfg.outCap.toNat →
    s.nodeCount = 1#10 →
    (s.ogSize.toNat ≤ 8 * s.payloadLength → s.inMem.WrittenFrom s.payloadOff.toNat ((s.ogSize.toNat + 7) / 8) →
      ∃ t, exec .unpack s = .next t ∧
        t.outMem.Holds 0 (List.replicate s.ogSize.toNat (nodeAt s.nodes 0).symbol) ∧
        (∀ a, s.ogSize.toNat ≤ a → t.outMem.read a = s.outMem.read a) ∧
        t = { s with
          outMem := t.outMem
          outLen := s.ogSize
          payloadBits := s.ogSize
          progress := s.ogSize
          pending := none
          status := { s.status with busy := false, done := true, err := .noError, errStage := 0x0#4 } }) ∧
    (8 * s.payloadLength < s.ogSize.toNat → s.inMem.WrittenFrom s.payloadOff.toNat s.payloadLength →
      exec .unpack s = .next (s.errorCompletion .malformedContainer 0x8#4)) ∧
    (∀ j, j < s.payloadLength → 8 * j < s.ogSize.toNat → s.inMem.read (s.payloadOff.toNat + j) = none →
      s.inMem.WrittenFrom s.payloadOff.toNat j → exec .unpack s = .fault (.uninitRead (s.payloadOff.toNat + j)))

/-- With a tree of two or more symbols, a payload that begins with the codes of OG_SIZE symbols decodes to them; the bits
and bytes after the last code are neither read nor checked, and the symbols' counts are not compared with FREQ. A
written payload that begins with the codes of no OG_SIZE symbols runs out, inside a code or between codes, and is
MalformedContainer. An unwritten payload byte is UninitRead at it when the bytes before it are written and do not hold
the codes of OG_SIZE symbols, so that the walk reaches it (45_bitunpacker.md R170, R172, R174, R175, R176). -/
def Obligations.UnpackDecodesTheCodesInThePayload : Prop :=
  ∀ s : State, s.status.treeValid = true → s.status.freqSrc = true → s.TreeOk → 2 ≤ distinctCount s.freq →
    s.ogSize.toNat ≤ s.cfg.outCap.toNat →
    let table := codesOfTable s.freq
    let codes := fun (symbols : List Byte) =>
      symbols.flatMap fun c => codeBitList (atSymbol table.len c) (atSymbol table.bits c)
    let Begins := fun (n : Nat) (symbols : List Byte) =>
      symbols.length = s.ogSize.toNat ∧ (∀ c ∈ symbols, atSymbol s.freq c ≠ 0#64) ∧ s.PayloadBegins n (codes symbols)
    (∀ symbols, Begins (8 * s.payloadLength) symbols →
      ∃ u, exec .unpack s = .next u ∧ u.outMem.Holds 0 symbols ∧
        (∀ a, s.ogSize.toNat ≤ a → u.outMem.read a = s.outMem.read a) ∧
        u = { s with
          outMem := u.outMem
          outLen := s.ogSize
          payloadBits := BitVec.ofNat 64 (codes symbols).length
          progress := s.ogSize
          pending := none
          status := { s.status with busy := false, done := true, err := .noError, errStage := 0x0#4 } }) ∧
    (s.inMem.WrittenFrom s.payloadOff.toNat s.payloadLength → (∀ symbols, ¬Begins (8 * s.payloadLength) symbols) →
      exec .unpack s = .next { s with
        status := { s.status with busy := false, done := true, err := .malformedContainer, errStage := 0x8#4 }
        outLen := 0#64
        progress := 0#64
        pending := none }) ∧
    (∀ j, j < s.payloadLength → s.inMem.read (s.payloadOff.toNat + j) = none →
      s.inMem.WrittenFrom s.payloadOff.toNat j → (∀ symbols, ¬Begins (8 * j) symbols) →
      exec .unpack s = .fault (.uninitRead (s.payloadOff.toNat + j)))

/-! ### ENCODE and DECODE -/

/-- ENCODE is FREQ, BUILD_TREE, GEN_CODES and PACK run in that order, stopping at the first that does not succeed, and DECODE
is DESERIALIZE, BUILD_TREE and UNPACK run so (47_control.md R212, R213). -/
def Obligations.CompositeCommandsAreTheirStagesInOrder : Prop :=
  ∀ s : State,
    exec .encode s = thenRun (thenRun (thenRun (exec .freq s) .buildTree) .genCodes) .pack ∧
    exec .decode s = thenRun (thenRun (exec .deserialize s) .buildTree) .unpack

/-- ENCODE of an empty input ends with EmptyInput at stage 6, all three valid flags set, an empty tree and no output byte
(47_control.md R212, 44_bitpacker.md R154). -/
def Obligations.EncodeOfEmptyInputRaisesEmptyInput : Prop :=
  ∀ s : State, s.inLen = 0#64 →
    ∃ t, exec .encode s = .next t ∧ t.status.err = .emptyInput ∧ t.status.errStage = 0x6#4 ∧
      t.status.flags = (true, true, true, false) ∧ t.distinct = 0#9 ∧ t.nodeCount = 0#10 ∧ t.root = 0#9 ∧
      t.outLen = 0#64 ∧ t.progress = 0#64 ∧ (∀ c, atSymbol t.codeLen c = 0#8) ∧ State.KeepsOutMem s t ∧
      State.KeepsInput s t

/-- ENCODE of a non-empty input whose container fits OUT_MEM completes and writes that container, its parts at their offsets
and its records in ascending symbol order (47_control.md R212; 46_container.md R190 to R192). -/
def Obligations.EncodeWritesTheContainerOfTheInput : Prop :=
  ∀ (s : State) (bytes : List Byte), bytes ≠ [] → bytes.length = s.inLen.toNat →
    s.inLen.toNat ≤ s.cfg.inCap.toNat → s.inMem.Holds 0 bytes → (containerOf bytes).length ≤ s.cfg.outCap.toNat →
    ∃ t, exec .encode s = .next t ∧ t.Succeeded ∧ t.outMem.Holds 0 (containerOf bytes) ∧
      t.outMem.HoldsContainer t.freq s.inLen (bytes.flatMap t.codeOf) ∧
      t.outLen.toNat = (containerOf bytes).length ∧
      (∀ a, (containerOf bytes).length ≤ a → t.outMem.read a = s.outMem.read a) ∧
      t.status.flags = (true, true, true, false) ∧ t.ogSize = s.inLen ∧ t.progress = s.inLen ∧
      t.freq = freqTable bytes ∧ State.KeepsInput s t

/-- The source's central property: DECODE of the container of a non-empty input restores the input, for all non-empty byte
sequences (44_bitpacker.md R151, 47_control.md R213). -/
def Obligations.DecodeRestoresTheInputOfAContainer : Prop :=
  ∀ (s : State) (bytes : List Byte), bytes ≠ [] → s.inLen.toNat = (containerOf bytes).length →
    s.inLen.toNat ≤ s.cfg.inCap.toNat → s.inMem.Holds 0 (containerOf bytes) → bytes.length ≤ s.cfg.outCap.toNat →
    ∃ t, exec .decode s = .next t ∧ t.Succeeded ∧ t.outMem.Holds 0 bytes ∧ t.outLen.toNat = bytes.length ∧
      (∀ a, bytes.length ≤ a → t.outMem.read a = s.outMem.read a) ∧
      t.status.freqValid = true ∧ t.status.treeValid = true ∧ t.status.freqSrc = true ∧ State.KeepsInput s t

/-- decode(encode(B)) = B: what ENCODE wrote, copied into the input memory of any block with room, decodes to the input
(44_bitpacker.md R151, 70_reset_and_hazards.md R270). -/
def Obligations.DecodeInvertsEncode : Prop :=
  ∀ (s t u : State) (bytes : List Byte), bytes.length = s.inLen.toNat → s.inMem.Holds 0 bytes →
    exec .encode s = .next t → t.Succeeded →
    u.inLen = t.outLen → u.inLen.toNat ≤ u.cfg.inCap.toNat →
    (∀ a, a < t.outLen.toNat → u.inMem.read a = t.outMem.read a) → bytes.length ≤ u.cfg.outCap.toNat →
    ∃ v, exec .decode u = .next v ∧ v.Succeeded ∧ v.outLen.toNat = bytes.length ∧ v.outMem.Holds 0 bytes

/-- Truncation is detected: a container whose payload lost one or more bytes ends DECODE with MalformedContainer at stage 8,
and no byte of OUT_MEM changes (45_bitunpacker.md R174, R175). -/
def Obligations.DecodeDetectsATruncatedPayload : Prop :=
  ∀ (s : State) (bytes : List Byte) (n : Nat), bytes ≠ [] →
    16 + 9 * distinctCount (freqTable bytes) ≤ n → n < (containerOf bytes).length →
    s.inLen.toNat = n → n ≤ s.cfg.inCap.toNat → s.inMem.Holds 0 ((containerOf bytes).take n) →
    bytes.length ≤ s.cfg.outCap.toNat →
    ∃ t, exec .decode s = .next t ∧ t.status.err = .malformedContainer ∧ t.status.errStage = 0x8#4 ∧
      t.outLen = 0#64 ∧ State.KeepsOutMem s t

/-! ### STATUS and the host's transactions -/

/-- The fields of STATUS stand at their bits, and every other bit reads 0 (10_state.md R24); ERR holds the code of its error
(60_exceptions.md R230). -/
def Obligations.StatusFieldsStandAtTheirBits : Prop :=
  ∀ st : Status,
    st.toWord.getLsbD 0 = st.busy ∧ st.toWord.getLsbD 1 = st.done ∧ st.toWord.extractLsb' 2 2 = 0#2 ∧
    st.toWord.extractLsb' 4 4 =
      (match st.err with
        | .noError => 0#4
        | .emptyInput => 1#4
        | .malformedContainer => 2#4
        | .inconsistentFrequencyTable => 3#4
        | .illegalCommand => 4#4
        | .sequenceError => 5#4
        | .capacityExceeded => 6#4) ∧
    st.toWord.extractLsb' 8 4 = st.errStage ∧
    st.toWord.extractLsb' 12 4 = st.lastCmd ∧ st.toWord.getLsbD 16 = st.freqValid ∧
    st.toWord.getLsbD 17 = st.treeValid ∧ st.toWord.getLsbD 18 = st.codesValid ∧ st.toWord.getLsbD 19 = st.freqSrc ∧
    st.toWord.getLsbD 20 = st.cmdDropped ∧ st.toWord.extractLsb' 21 43 = 0#43

/-- 10_state.md R25: a write of w to STATUS clears DONE if w[1] = 1 and CMD_DROPPED if w[20] = 1, and does nothing else;
while BUSY = 1, DONE is 0 already. -/
def Obligations.StatusWriteClearsDoneAndDropped : Prop :=
  ∀ (s : State) (w : Word),
    hostRegWrite 0x0001#16 w s = .next { s with
      status := { s.status with
        done := if w.getLsbD 1 then false else s.status.done
        cmdDropped := if w.getLsbD 20 then false else s.status.cmdDropped } } ∧
    (s.Inv → s.status.busy = true → w.getLsbD 20 = false → hostRegWrite 0x0001#16 w s = .next s)

/-- 47_control.md R210, R211: an idle block accepts any CTRL write; while BUSY = 1 a CTRL write is dropped, which sets
CMD_DROPPED and changes nothing else. -/
def Obligations.CtrlWritesAreAcceptedWhenIdleAndDroppedWhenBusy : Prop :=
  ∀ (s : State) (v : Word),
    (s.status.busy = false → hostRegWrite 0x0000#16 v s = .next { s with
      pending := some v
      status := { s.status with busy := true, done := false, lastCmd := v.extractLsb' 0 4 } }) ∧
    (s.status.busy = true → hostRegWrite 0x0000#16 v s = .next { s with status := { s.status with cmdDropped := true } })

/-- An idle host write of an IN_MEM byte or of IN_LEN clears the valid flags and FREQ_SRC and keeps the tables and results;
while BUSY = 1 it is HostHazard (20_memory.md R66), which the host's step records with no other effect (that a step
records it is log 7). -/
def Obligations.InputWritesInvalidateTheStageState : Prop :=
  (∀ (s : State) (a : Nat) (b : Byte), a < s.cfg.inCap.toNat →
    (s.status.busy = false → ∃ t, hostStep (.inWrite a b) s = .next t ∧
      (∀ x, t.inMem.read x = if x = a then some b else s.inMem.read x) ∧
      t = { s with
        inMem := t.inMem
        status := { s.status with freqValid := false, treeValid := false, codesValid := false, freqSrc := false } }) ∧
    (s.status.busy = true → hostStep (.inWrite a b) s = .fault .hostHazard)) ∧
  (∀ (s : State) (v : Word),
    (s.status.busy = false → hostStep (.regWrite 0x0003#16 v) s = .next { s with
      inLen := v
      status := { s.status with freqValid := false, treeValid := false, codesValid := false, freqSrc := false } }) ∧
    (s.status.busy = true → hostStep (.regWrite 0x0003#16 v) s = .fault .hostHazard)) ∧
  (∀ (s : State) (op : HostOp) (rest : List HostOp), s.faults = [] → s.mover = .host → s.hostProg = op :: rest →
    s.status.busy = true → (∃ a b, op = .inWrite a b ∧ a < s.cfg.inCap.toNat) ∨ (∃ v, op = .regWrite 0x0003#16 v) →
    step s = .next { s with faults := [.hostHazard] })

/-- While BUSY = 1 a read of a result register, a window register or an OUT_MEM byte returns a draw (the
next value of the free sequence Config.draw, of which nothing is known; log 5); STATUS, INT_EN, IN_LEN, CAP_IN, CAP_OUT,
CTRL and IN_MEM read exactly; and while BUSY = 0 every register reads exactly (10_state.md R46; the value returned is held
in hostReads, log 14). -/
def Obligations.ResultReadsAreDrawsWhileBusy : Prop :=
  (∀ (s : State) (r : RegName),
    hostStep (.regRead r.number) s =
      if s.status.busy = true ∧ r ≠ .ctrl ∧ r ≠ .status ∧ r ≠ .intEn ∧ r ≠ .inLen ∧ r ≠ .capIn ∧ r ≠ .capOut then
        .next { s with hostReads := Config.draw s.drawCount :: s.hostReads, drawCount := s.drawCount + 1 }
      else .next { s with hostReads := s.regValue r :: s.hostReads }) ∧
  (∀ (s : State) (a : Nat), s.status.busy = true → a < s.cfg.outCap.toNat →
    hostStep (.outRead a) s = .next { s with
      hostReads := ((Config.draw s.drawCount).setWidth 8).setWidth 64 :: s.hostReads, drawCount := s.drawCount + 1 }) ∧
  (∀ (s : State) (a : Nat) (b : Byte), a < s.cfg.inCap.toNat → s.inMem.read a = some b →
    hostStep (.inRead a) s = .next { s with hostReads := b.setWidth 64 :: s.hostReads })

/-- InWrite below IN_CAP stores the byte, marks it written and invalidates the stage state when idle, and
is HostHazard when busy; InRead below IN_CAP returns the byte where it was written and a draw elsewhere, busy or not; at
or above IN_CAP both are BusError (20_memory.md R62; the form of a draw is log 5, of a returned value log 14). -/
def Obligations.InTransactionsStoreAndReturnBytes : Prop :=
  ∀ (s : State) (a : Nat) (b : Byte),
    (a < s.cfg.inCap.toNat → s.status.busy = false → ∃ t, hostStep (.inWrite a b) s = .next t ∧
      t.inMem.read a = some b ∧ (∀ x, x ≠ a → t.inMem.read x = s.inMem.read x) ∧
      t = { s with
        inMem := t.inMem
        status := { s.status with freqValid := false, treeValid := false, codesValid := false, freqSrc := false } }) ∧
    (a < s.cfg.inCap.toNat → s.status.busy = true → hostStep (.inWrite a b) s = .fault .hostHazard) ∧
    (a < s.cfg.inCap.toNat → ∀ v, s.inMem.read a = some v →
      hostStep (.inRead a) s = .next { s with hostReads := v.setWidth 64 :: s.hostReads }) ∧
    (a < s.cfg.inCap.toNat → s.inMem.read a = none →
      hostStep (.inRead a) s = .next { s with
        hostReads := ((Config.draw s.drawCount).setWidth 8).setWidth 64 :: s.hostReads, drawCount := s.drawCount + 1 }) ∧
    (s.cfg.inCap.toNat ≤ a → hostStep (.inWrite a b) s = .fault .busError ∧ hostStep (.inRead a) s = .fault .busError)

/-- OutRead returns the byte the core wrote, a draw where it wrote none or while BUSY = 1, and BusError at
or above OUT_CAP; a write to OUT is BusError (20_memory.md R63; the form of a draw is log 5, of a returned value log 14). -/
def Obligations.OutReadReturnsTheByteOrADraw : Prop :=
  ∀ (s : State) (a : Nat),
    (a < s.cfg.outCap.toNat → (s.status.busy = true ∨ s.outMem.read a = none) →
      hostStep (.outRead a) s = .next { s with
        hostReads := ((Config.draw s.drawCount).setWidth 8).setWidth 64 :: s.hostReads, drawCount := s.drawCount + 1 }) ∧
    (∀ b, a < s.cfg.outCap.toNat → s.status.busy = false → s.outMem.read a = some b →
      hostStep (.outRead a) s = .next { s with hostReads := b.setWidth 64 :: s.hostReads }) ∧
    (s.cfg.outCap.toNat ≤ a → hostStep (.outRead a) s = .fault .busError) ∧
    (∀ b, hostStep (.outWrite a b) s = .fault .busError)

/-- A host write to a read-only register is ignored, reserved bits read 0 and ignore writes but for CTRL, where they make the
command illegal, and an access to an unmapped number is BusError (10_state.md R47), which the host's step records with no
other effect (that a step records it is log 7). -/
def Obligations.ReadOnlyWritesAreIgnoredAndUnmappedIsBusError : Prop :=
  (∀ (s : State) (r : RegName) (v : Word), r ≠ .ctrl → r ≠ .status → r ≠ .intEn → r ≠ .inLen →
    hostStep (.regWrite r.number v) s = .next s) ∧
  (∀ (s : State) (v : Word), hostStep (.regWrite 0x0002#16 v) s = .next { s with doneIe := v.getLsbD 0 }) ∧
  (∀ s : State, (s.regValue .intEn).getLsbD 0 = s.doneIe ∧ (s.regValue .intEn).extractLsb' 1 63 = 0#63 ∧
    (s.regValue .status).extractLsb' 2 2 = 0#2 ∧ (s.regValue .status).extractLsb' 21 43 = 0#43) ∧
  (∀ v : Word, wordRsv v ≠ 0#60 → ∃ e, decode v = .error e) ∧
  (∀ (s : State) (w : Word), w.getLsbD 1 = false → w.getLsbD 20 = false → hostRegWrite 0x0001#16 w s = .next s) ∧
  (∀ (s : State) (n : BitVec 16) (v : Word),
    ((0x000E ≤ n.toNat ∧ n.toNat ≤ 0x00FF) ∨ (0x0300 ≤ n.toNat ∧ n.toNat ≤ 0x0FFF) ∨
      (0x1400 ≤ n.toNat ∧ n.toNat ≤ 0x1FFF) ∨ 0x2800 ≤ n.toNat) →
    hostStep (.regRead n) s = .fault .busError ∧ hostStep (.regWrite n v) s = .fault .busError) ∧
  (∀ (s : State) (op : HostOp) (rest : List HostOp), s.faults = [] → s.mover = .host → s.hostProg = op :: rest →
    hostStep op { s with sched := s.sched.tail, hostProg := rest } = .fault .busError →
    step s = .next { s with faults := [.busError] })

/-- No read has a side effect on the block: only the value returned, and the count of draws, change (20_memory.md R69). -/
def Obligations.ReadsHaveNoSideEffect : Prop :=
  ∀ (op : HostOp) (s t : State),
    ((∃ n, op = .regRead n) ∨ (∃ a, op = .inRead a) ∨ (∃ a, op = .outRead a)) → hostStep op s = .next t →
    ∃ v, t = { s with hostReads := v :: s.hostReads, drawCount := t.drawCount }

/-- In an idle block every register reads what it shows: the control, status and result registers at their numbers, a
frequency, a code length, a word of a code pattern, and the four fields of a node, KIND being 0 for an unused node, 1
for a leaf and 2 for an internal one (10_state.md R22 to R39; the value returned is held in hostReads, log 14). -/
def Obligations.WindowsReadTheTables : Prop :=
  ∀ (s : State) (c : Byte) (w f : BitVec 2) (i : BitVec 9), s.status.busy = false →
    let Reads := fun (n : BitVec 16) (v : Word) => hostStep (.regRead n) s = .next { s with hostReads := v :: s.hostReads }
    (Reads 0x0000 0#64 ∧ Reads 0x0001 s.status.toWord ∧ Reads 0x0002 (if s.doneIe then 1#64 else 0#64) ∧
      Reads 0x0003 s.inLen ∧ Reads 0x0004 s.outLen ∧ Reads 0x0005 (BitVec.ofNat 64 s.distinct.toNat) ∧
      Reads 0x0006 s.ogSize ∧ Reads 0x0007 s.payloadOff ∧ Reads 0x0008 s.payloadBits ∧
      Reads 0x0009 (BitVec.ofNat 64 s.nodeCount.toNat) ∧ Reads 0x000A (BitVec.ofNat 64 s.root.toNat) ∧
      Reads 0x000B s.progress ∧ Reads 0x000C s.cfg.inCap ∧ Reads 0x000D s.cfg.outCap) ∧
    Reads (BitVec.ofNat 16 (0x0100 + c.toNat)) (atSymbol s.freq c) ∧
    Reads (BitVec.ofNat 16 (0x0200 + c.toNat)) (BitVec.ofNat 64 (atSymbol s.codeLen c).toNat) ∧
    Reads (BitVec.ofNat 16 (0x1000 + 4 * c.toNat + w.toNat)) ((atSymbol s.codeBits c).extractLsb' (64 * w.toNat) 64) ∧
    Reads (BitVec.ofNat 16 (0x2000 + 4 * i.toNat + f.toNat))
      (let nd := nodeAt s.nodes i.toNat
      match f.toNat with
        | 0 => BitVec.ofNat 64 (256 * nd.symbol.toNat +
            match nd.kind with
            | .unused => 0
            | .leaf => 1
            | .internal => 2)
        | 1 => BitVec.ofNat 64 nd.left
        | 2 => BitVec.ofNat 64 nd.right
        | _ => nd.weight)
end

