-- ==== Sys2Proof/Laws/State.lean ====
section
/-! SUPPORT. One lemma per field per update of State and of STATUS, true by rfl, so that no later proof unfolds a record
update. -/

namespace Sys2Proof.Machine


/-! ### Status.writeOneToClear -/

@[simp] theorem Status.writeOneToClear_busy (st : Status) (w : Word) : (st.writeOneToClear w).busy = st.busy := rfl
@[simp] theorem Status.writeOneToClear_done (st : Status) (w : Word) : (st.writeOneToClear w).done = (st.done && !w.getLsbD 1) := rfl
@[simp] theorem Status.writeOneToClear_err (st : Status) (w : Word) : (st.writeOneToClear w).err = st.err := rfl
@[simp] theorem Status.writeOneToClear_errStage (st : Status) (w : Word) : (st.writeOneToClear w).errStage = st.errStage := rfl
@[simp] theorem Status.writeOneToClear_lastCmd (st : Status) (w : Word) : (st.writeOneToClear w).lastCmd = st.lastCmd := rfl
@[simp] theorem Status.writeOneToClear_freqValid (st : Status) (w : Word) : (st.writeOneToClear w).freqValid = st.freqValid := rfl
@[simp] theorem Status.writeOneToClear_treeValid (st : Status) (w : Word) : (st.writeOneToClear w).treeValid = st.treeValid := rfl
@[simp] theorem Status.writeOneToClear_codesValid (st : Status) (w : Word) : (st.writeOneToClear w).codesValid = st.codesValid := rfl
@[simp] theorem Status.writeOneToClear_freqSrc (st : Status) (w : Word) : (st.writeOneToClear w).freqSrc = st.freqSrc := rfl
@[simp] theorem Status.writeOneToClear_cmdDropped (st : Status) (w : Word) : (st.writeOneToClear w).cmdDropped = (st.cmdDropped && !w.getLsbD 20) := rfl

/-! ### Status.invalidate -/

@[simp] theorem Status.invalidate_busy (st : Status) : (st.invalidate).busy = st.busy := rfl
@[simp] theorem Status.invalidate_done (st : Status) : (st.invalidate).done = st.done := rfl
@[simp] theorem Status.invalidate_err (st : Status) : (st.invalidate).err = st.err := rfl
@[simp] theorem Status.invalidate_errStage (st : Status) : (st.invalidate).errStage = st.errStage := rfl
@[simp] theorem Status.invalidate_lastCmd (st : Status) : (st.invalidate).lastCmd = st.lastCmd := rfl
@[simp] theorem Status.invalidate_freqValid (st : Status) : (st.invalidate).freqValid = false := rfl
@[simp] theorem Status.invalidate_treeValid (st : Status) : (st.invalidate).treeValid = false := rfl
@[simp] theorem Status.invalidate_codesValid (st : Status) : (st.invalidate).codesValid = false := rfl
@[simp] theorem Status.invalidate_freqSrc (st : Status) : (st.invalidate).freqSrc = false := rfl
@[simp] theorem Status.invalidate_cmdDropped (st : Status) : (st.invalidate).cmdDropped = st.cmdDropped := rfl

/-! ### Status.tableLoaded -/

@[simp] theorem Status.tableLoaded_busy (st : Status) (src : Bool) : (st.tableLoaded src).busy = st.busy := rfl
@[simp] theorem Status.tableLoaded_done (st : Status) (src : Bool) : (st.tableLoaded src).done = st.done := rfl
@[simp] theorem Status.tableLoaded_err (st : Status) (src : Bool) : (st.tableLoaded src).err = st.err := rfl
@[simp] theorem Status.tableLoaded_errStage (st : Status) (src : Bool) : (st.tableLoaded src).errStage = st.errStage := rfl
@[simp] theorem Status.tableLoaded_lastCmd (st : Status) (src : Bool) : (st.tableLoaded src).lastCmd = st.lastCmd := rfl
@[simp] theorem Status.tableLoaded_freqValid (st : Status) (src : Bool) : (st.tableLoaded src).freqValid = true := rfl
@[simp] theorem Status.tableLoaded_treeValid (st : Status) (src : Bool) : (st.tableLoaded src).treeValid = false := rfl
@[simp] theorem Status.tableLoaded_codesValid (st : Status) (src : Bool) : (st.tableLoaded src).codesValid = false := rfl
@[simp] theorem Status.tableLoaded_freqSrc (st : Status) (src : Bool) : (st.tableLoaded src).freqSrc = src := rfl
@[simp] theorem Status.tableLoaded_cmdDropped (st : Status) (src : Bool) : (st.tableLoaded src).cmdDropped = st.cmdDropped := rfl

/-! ### Status.treeBuilt -/

@[simp] theorem Status.treeBuilt_busy (st : Status) : (st.treeBuilt).busy = st.busy := rfl
@[simp] theorem Status.treeBuilt_done (st : Status) : (st.treeBuilt).done = st.done := rfl
@[simp] theorem Status.treeBuilt_err (st : Status) : (st.treeBuilt).err = st.err := rfl
@[simp] theorem Status.treeBuilt_errStage (st : Status) : (st.treeBuilt).errStage = st.errStage := rfl
@[simp] theorem Status.treeBuilt_lastCmd (st : Status) : (st.treeBuilt).lastCmd = st.lastCmd := rfl
@[simp] theorem Status.treeBuilt_freqValid (st : Status) : (st.treeBuilt).freqValid = st.freqValid := rfl
@[simp] theorem Status.treeBuilt_treeValid (st : Status) : (st.treeBuilt).treeValid = true := rfl
@[simp] theorem Status.treeBuilt_codesValid (st : Status) : (st.treeBuilt).codesValid = false := rfl
@[simp] theorem Status.treeBuilt_freqSrc (st : Status) : (st.treeBuilt).freqSrc = st.freqSrc := rfl
@[simp] theorem Status.treeBuilt_cmdDropped (st : Status) : (st.treeBuilt).cmdDropped = st.cmdDropped := rfl

/-! ### Status.codesMade -/

@[simp] theorem Status.codesMade_busy (st : Status) : (st.codesMade).busy = st.busy := rfl
@[simp] theorem Status.codesMade_done (st : Status) : (st.codesMade).done = st.done := rfl
@[simp] theorem Status.codesMade_err (st : Status) : (st.codesMade).err = st.err := rfl
@[simp] theorem Status.codesMade_errStage (st : Status) : (st.codesMade).errStage = st.errStage := rfl
@[simp] theorem Status.codesMade_lastCmd (st : Status) : (st.codesMade).lastCmd = st.lastCmd := rfl
@[simp] theorem Status.codesMade_freqValid (st : Status) : (st.codesMade).freqValid = st.freqValid := rfl
@[simp] theorem Status.codesMade_treeValid (st : Status) : (st.codesMade).treeValid = st.treeValid := rfl
@[simp] theorem Status.codesMade_codesValid (st : Status) : (st.codesMade).codesValid = true := rfl
@[simp] theorem Status.codesMade_freqSrc (st : Status) : (st.codesMade).freqSrc = st.freqSrc := rfl
@[simp] theorem Status.codesMade_cmdDropped (st : Status) : (st.codesMade).cmdDropped = st.cmdDropped := rfl

/-! ### Status.cleared -/

@[simp] theorem Status.cleared_busy (st : Status) : (st.cleared).busy = st.busy := rfl
@[simp] theorem Status.cleared_done (st : Status) : (st.cleared).done = st.done := rfl
@[simp] theorem Status.cleared_err (st : Status) : (st.cleared).err = st.err := rfl
@[simp] theorem Status.cleared_errStage (st : Status) : (st.cleared).errStage = st.errStage := rfl
@[simp] theorem Status.cleared_lastCmd (st : Status) : (st.cleared).lastCmd = st.lastCmd := rfl
@[simp] theorem Status.cleared_freqValid (st : Status) : (st.cleared).freqValid = false := rfl
@[simp] theorem Status.cleared_treeValid (st : Status) : (st.cleared).treeValid = false := rfl
@[simp] theorem Status.cleared_codesValid (st : Status) : (st.cleared).codesValid = false := rfl
@[simp] theorem Status.cleared_freqSrc (st : Status) : (st.cleared).freqSrc = false := rfl
@[simp] theorem Status.cleared_cmdDropped (st : Status) : (st.cleared).cmdDropped = false := rfl

/-! ### Status.accepted -/

@[simp] theorem Status.accepted_busy (st : Status) (v : Word) : (st.accepted v).busy = true := rfl
@[simp] theorem Status.accepted_done (st : Status) (v : Word) : (st.accepted v).done = false := rfl
@[simp] theorem Status.accepted_err (st : Status) (v : Word) : (st.accepted v).err = st.err := rfl
@[simp] theorem Status.accepted_errStage (st : Status) (v : Word) : (st.accepted v).errStage = st.errStage := rfl
@[simp] theorem Status.accepted_lastCmd (st : Status) (v : Word) : (st.accepted v).lastCmd = wordOp v := rfl
@[simp] theorem Status.accepted_freqValid (st : Status) (v : Word) : (st.accepted v).freqValid = st.freqValid := rfl
@[simp] theorem Status.accepted_treeValid (st : Status) (v : Word) : (st.accepted v).treeValid = st.treeValid := rfl
@[simp] theorem Status.accepted_codesValid (st : Status) (v : Word) : (st.accepted v).codesValid = st.codesValid := rfl
@[simp] theorem Status.accepted_freqSrc (st : Status) (v : Word) : (st.accepted v).freqSrc = st.freqSrc := rfl
@[simp] theorem Status.accepted_cmdDropped (st : Status) (v : Word) : (st.accepted v).cmdDropped = st.cmdDropped := rfl

/-! ### Status.completed -/

@[simp] theorem Status.completed_busy (st : Status) (e : ErrKind) (stage : BitVec 4) : (st.completed e stage).busy = false := rfl
@[simp] theorem Status.completed_done (st : Status) (e : ErrKind) (stage : BitVec 4) : (st.completed e stage).done = true := rfl
@[simp] theorem Status.completed_err (st : Status) (e : ErrKind) (stage : BitVec 4) : (st.completed e stage).err = e := rfl
@[simp] theorem Status.completed_errStage (st : Status) (e : ErrKind) (stage : BitVec 4) : (st.completed e stage).errStage = stage := rfl
@[simp] theorem Status.completed_lastCmd (st : Status) (e : ErrKind) (stage : BitVec 4) : (st.completed e stage).lastCmd = st.lastCmd := rfl
@[simp] theorem Status.completed_freqValid (st : Status) (e : ErrKind) (stage : BitVec 4) : (st.completed e stage).freqValid = st.freqValid := rfl
@[simp] theorem Status.completed_treeValid (st : Status) (e : ErrKind) (stage : BitVec 4) : (st.completed e stage).treeValid = st.treeValid := rfl
@[simp] theorem Status.completed_codesValid (st : Status) (e : ErrKind) (stage : BitVec 4) : (st.completed e stage).codesValid = st.codesValid := rfl
@[simp] theorem Status.completed_freqSrc (st : Status) (e : ErrKind) (stage : BitVec 4) : (st.completed e stage).freqSrc = st.freqSrc := rfl
@[simp] theorem Status.completed_cmdDropped (st : Status) (e : ErrKind) (stage : BitVec 4) : (st.completed e stage).cmdDropped = st.cmdDropped := rfl

/-! ### State.succeed -/

@[simp] theorem State.succeed_cfg (s : State) : (s.succeed).cfg = s.cfg := rfl
@[simp] theorem State.succeed_status (s : State) : (s.succeed).status = s.status.completed .noError 0#4 := rfl
@[simp] theorem State.succeed_doneIe (s : State) : (s.succeed).doneIe = s.doneIe := rfl
@[simp] theorem State.succeed_inLen (s : State) : (s.succeed).inLen = s.inLen := rfl
@[simp] theorem State.succeed_outLen (s : State) : (s.succeed).outLen = s.outLen := rfl
@[simp] theorem State.succeed_distinct (s : State) : (s.succeed).distinct = s.distinct := rfl
@[simp] theorem State.succeed_ogSize (s : State) : (s.succeed).ogSize = s.ogSize := rfl
@[simp] theorem State.succeed_payloadOff (s : State) : (s.succeed).payloadOff = s.payloadOff := rfl
@[simp] theorem State.succeed_payloadBits (s : State) : (s.succeed).payloadBits = s.payloadBits := rfl
@[simp] theorem State.succeed_nodeCount (s : State) : (s.succeed).nodeCount = s.nodeCount := rfl
@[simp] theorem State.succeed_root (s : State) : (s.succeed).root = s.root := rfl
@[simp] theorem State.succeed_progress (s : State) : (s.succeed).progress = s.progress := rfl
@[simp] theorem State.succeed_freq (s : State) : (s.succeed).freq = s.freq := rfl
@[simp] theorem State.succeed_codeLen (s : State) : (s.succeed).codeLen = s.codeLen := rfl
@[simp] theorem State.succeed_codeBits (s : State) : (s.succeed).codeBits = s.codeBits := rfl
@[simp] theorem State.succeed_nodes (s : State) : (s.succeed).nodes = s.nodes := rfl
@[simp] theorem State.succeed_inMem (s : State) : (s.succeed).inMem = s.inMem := rfl
@[simp] theorem State.succeed_outMem (s : State) : (s.succeed).outMem = s.outMem := rfl
@[simp] theorem State.succeed_pending (s : State) : (s.succeed).pending = none := rfl
@[simp] theorem State.succeed_faults (s : State) : (s.succeed).faults = s.faults := rfl
@[simp] theorem State.succeed_hostProg (s : State) : (s.succeed).hostProg = s.hostProg := rfl
@[simp] theorem State.succeed_sched (s : State) : (s.succeed).sched = s.sched := rfl
@[simp] theorem State.succeed_hostReads (s : State) : (s.succeed).hostReads = s.hostReads := rfl
@[simp] theorem State.succeed_drawCount (s : State) : (s.succeed).drawCount = s.drawCount := rfl

/-! ### State.errorCompletion -/

@[simp] theorem State.errorCompletion_cfg (s : State) (e : ErrKind) (stage : BitVec 4) :
    (s.errorCompletion e stage).cfg = s.cfg := rfl
@[simp] theorem State.errorCompletion_status (s : State) (e : ErrKind) (stage : BitVec 4) :
    (s.errorCompletion e stage).status = s.status.completed e stage := rfl
@[simp] theorem State.errorCompletion_doneIe (s : State) (e : ErrKind) (stage : BitVec 4) :
    (s.errorCompletion e stage).doneIe = s.doneIe := rfl
@[simp] theorem State.errorCompletion_inLen (s : State) (e : ErrKind) (stage : BitVec 4) :
    (s.errorCompletion e stage).inLen = s.inLen := rfl
@[simp] theorem State.errorCompletion_outLen (s : State) (e : ErrKind) (stage : BitVec 4) :
    (s.errorCompletion e stage).outLen = 0#64 := rfl
@[simp] theorem State.errorCompletion_distinct (s : State) (e : ErrKind) (stage : BitVec 4) :
    (s.errorCompletion e stage).distinct = s.distinct := rfl
@[simp] theorem State.errorCompletion_ogSize (s : State) (e : ErrKind) (stage : BitVec 4) :
    (s.errorCompletion e stage).ogSize = s.ogSize := rfl
@[simp] theorem State.errorCompletion_payloadOff (s : State) (e : ErrKind) (stage : BitVec 4) :
    (s.errorCompletion e stage).payloadOff = s.payloadOff := rfl
@[simp] theorem State.errorCompletion_payloadBits (s : State) (e : ErrKind) (stage : BitVec 4) :
    (s.errorCompletion e stage).payloadBits = s.payloadBits := rfl
@[simp] theorem State.errorCompletion_nodeCount (s : State) (e : ErrKind) (stage : BitVec 4) :
    (s.errorCompletion e stage).nodeCount = s.nodeCount := rfl
@[simp] theorem State.errorCompletion_root (s : State) (e : ErrKind) (stage : BitVec 4) :
    (s.errorCompletion e stage).root = s.root := rfl
@[simp] theorem State.errorCompletion_progress (s : State) (e : ErrKind) (stage : BitVec 4) :
    (s.errorCompletion e stage).progress = 0#64 := rfl
@[simp] theorem State.errorCompletion_freq (s : State) (e : ErrKind) (stage : BitVec 4) :
    (s.errorCompletion e stage).freq = s.freq := rfl
@[simp] theorem State.errorCompletion_codeLen (s : State) (e : ErrKind) (stage : BitVec 4) :
    (s.errorCompletion e stage).codeLen = s.codeLen := rfl
@[simp] theorem State.errorCompletion_codeBits (s : State) (e : ErrKind) (stage : BitVec 4) :
    (s.errorCompletion e stage).codeBits = s.codeBits := rfl
@[simp] theorem State.errorCompletion_nodes (s : State) (e : ErrKind) (stage : BitVec 4) :
    (s.errorCompletion e stage).nodes = s.nodes := rfl
@[simp] theorem State.errorCompletion_inMem (s : State) (e : ErrKind) (stage : BitVec 4) :
    (s.errorCompletion e stage).inMem = s.inMem := rfl
@[simp] theorem State.errorCompletion_outMem (s : State) (e : ErrKind) (stage : BitVec 4) :
    (s.errorCompletion e stage).outMem = s.outMem := rfl
@[simp] theorem State.errorCompletion_pending (s : State) (e : ErrKind) (stage : BitVec 4) :
    (s.errorCompletion e stage).pending = none := rfl
@[simp] theorem State.errorCompletion_faults (s : State) (e : ErrKind) (stage : BitVec 4) :
    (s.errorCompletion e stage).faults = s.faults := rfl
@[simp] theorem State.errorCompletion_hostProg (s : State) (e : ErrKind) (stage : BitVec 4) :
    (s.errorCompletion e stage).hostProg = s.hostProg := rfl
@[simp] theorem State.errorCompletion_sched (s : State) (e : ErrKind) (stage : BitVec 4) :
    (s.errorCompletion e stage).sched = s.sched := rfl
@[simp] theorem State.errorCompletion_hostReads (s : State) (e : ErrKind) (stage : BitVec 4) :
    (s.errorCompletion e stage).hostReads = s.hostReads := rfl
@[simp] theorem State.errorCompletion_drawCount (s : State) (e : ErrKind) (stage : BitVec 4) :
    (s.errorCompletion e stage).drawCount = s.drawCount := rfl

/-! ### State.accept -/

@[simp] theorem State.accept_cfg (s : State) (v : Word) : (s.accept v).cfg = s.cfg := rfl
@[simp] theorem State.accept_status (s : State) (v : Word) : (s.accept v).status = s.status.accepted v := rfl
@[simp] theorem State.accept_doneIe (s : State) (v : Word) : (s.accept v).doneIe = s.doneIe := rfl
@[simp] theorem State.accept_inLen (s : State) (v : Word) : (s.accept v).inLen = s.inLen := rfl
@[simp] theorem State.accept_outLen (s : State) (v : Word) : (s.accept v).outLen = s.outLen := rfl
@[simp] theorem State.accept_distinct (s : State) (v : Word) : (s.accept v).distinct = s.distinct := rfl
@[simp] theorem State.accept_ogSize (s : State) (v : Word) : (s.accept v).ogSize = s.ogSize := rfl
@[simp] theorem State.accept_payloadOff (s : State) (v : Word) : (s.accept v).payloadOff = s.payloadOff := rfl
@[simp] theorem State.accept_payloadBits (s : State) (v : Word) : (s.accept v).payloadBits = s.payloadBits := rfl
@[simp] theorem State.accept_nodeCount (s : State) (v : Word) : (s.accept v).nodeCount = s.nodeCount := rfl
@[simp] theorem State.accept_root (s : State) (v : Word) : (s.accept v).root = s.root := rfl
@[simp] theorem State.accept_progress (s : State) (v : Word) : (s.accept v).progress = s.progress := rfl
@[simp] theorem State.accept_freq (s : State) (v : Word) : (s.accept v).freq = s.freq := rfl
@[simp] theorem State.accept_codeLen (s : State) (v : Word) : (s.accept v).codeLen = s.codeLen := rfl
@[simp] theorem State.accept_codeBits (s : State) (v : Word) : (s.accept v).codeBits = s.codeBits := rfl
@[simp] theorem State.accept_nodes (s : State) (v : Word) : (s.accept v).nodes = s.nodes := rfl
@[simp] theorem State.accept_inMem (s : State) (v : Word) : (s.accept v).inMem = s.inMem := rfl
@[simp] theorem State.accept_outMem (s : State) (v : Word) : (s.accept v).outMem = s.outMem := rfl
@[simp] theorem State.accept_pending (s : State) (v : Word) : (s.accept v).pending = some v := rfl
@[simp] theorem State.accept_faults (s : State) (v : Word) : (s.accept v).faults = s.faults := rfl
@[simp] theorem State.accept_hostProg (s : State) (v : Word) : (s.accept v).hostProg = s.hostProg := rfl
@[simp] theorem State.accept_sched (s : State) (v : Word) : (s.accept v).sched = s.sched := rfl
@[simp] theorem State.accept_hostReads (s : State) (v : Word) : (s.accept v).hostReads = s.hostReads := rfl
@[simp] theorem State.accept_drawCount (s : State) (v : Word) : (s.accept v).drawCount = s.drawCount := rfl

/-! ### State.invalidate -/

@[simp] theorem State.invalidate_cfg (s : State) : (s.invalidate).cfg = s.cfg := rfl
@[simp] theorem State.invalidate_status (s : State) : (s.invalidate).status = s.status.invalidate := rfl
@[simp] theorem State.invalidate_doneIe (s : State) : (s.invalidate).doneIe = s.doneIe := rfl
@[simp] theorem State.invalidate_inLen (s : State) : (s.invalidate).inLen = s.inLen := rfl
@[simp] theorem State.invalidate_outLen (s : State) : (s.invalidate).outLen = s.outLen := rfl
@[simp] theorem State.invalidate_distinct (s : State) : (s.invalidate).distinct = s.distinct := rfl
@[simp] theorem State.invalidate_ogSize (s : State) : (s.invalidate).ogSize = s.ogSize := rfl
@[simp] theorem State.invalidate_payloadOff (s : State) : (s.invalidate).payloadOff = s.payloadOff := rfl
@[simp] theorem State.invalidate_payloadBits (s : State) : (s.invalidate).payloadBits = s.payloadBits := rfl
@[simp] theorem State.invalidate_nodeCount (s : State) : (s.invalidate).nodeCount = s.nodeCount := rfl
@[simp] theorem State.invalidate_root (s : State) : (s.invalidate).root = s.root := rfl
@[simp] theorem State.invalidate_progress (s : State) : (s.invalidate).progress = s.progress := rfl
@[simp] theorem State.invalidate_freq (s : State) : (s.invalidate).freq = s.freq := rfl
@[simp] theorem State.invalidate_codeLen (s : State) : (s.invalidate).codeLen = s.codeLen := rfl
@[simp] theorem State.invalidate_codeBits (s : State) : (s.invalidate).codeBits = s.codeBits := rfl
@[simp] theorem State.invalidate_nodes (s : State) : (s.invalidate).nodes = s.nodes := rfl
@[simp] theorem State.invalidate_inMem (s : State) : (s.invalidate).inMem = s.inMem := rfl
@[simp] theorem State.invalidate_outMem (s : State) : (s.invalidate).outMem = s.outMem := rfl
@[simp] theorem State.invalidate_pending (s : State) : (s.invalidate).pending = s.pending := rfl
@[simp] theorem State.invalidate_faults (s : State) : (s.invalidate).faults = s.faults := rfl
@[simp] theorem State.invalidate_hostProg (s : State) : (s.invalidate).hostProg = s.hostProg := rfl
@[simp] theorem State.invalidate_sched (s : State) : (s.invalidate).sched = s.sched := rfl
@[simp] theorem State.invalidate_hostReads (s : State) : (s.invalidate).hostReads = s.hostReads := rfl
@[simp] theorem State.invalidate_drawCount (s : State) : (s.invalidate).drawCount = s.drawCount := rfl

/-! ### State.returnWord -/

@[simp] theorem State.returnWord_cfg (s : State) (v : Word) : (s.returnWord v).cfg = s.cfg := rfl
@[simp] theorem State.returnWord_status (s : State) (v : Word) : (s.returnWord v).status = s.status := rfl
@[simp] theorem State.returnWord_doneIe (s : State) (v : Word) : (s.returnWord v).doneIe = s.doneIe := rfl
@[simp] theorem State.returnWord_inLen (s : State) (v : Word) : (s.returnWord v).inLen = s.inLen := rfl
@[simp] theorem State.returnWord_outLen (s : State) (v : Word) : (s.returnWord v).outLen = s.outLen := rfl
@[simp] theorem State.returnWord_distinct (s : State) (v : Word) : (s.returnWord v).distinct = s.distinct := rfl
@[simp] theorem State.returnWord_ogSize (s : State) (v : Word) : (s.returnWord v).ogSize = s.ogSize := rfl
@[simp] theorem State.returnWord_payloadOff (s : State) (v : Word) : (s.returnWord v).payloadOff = s.payloadOff := rfl
@[simp] theorem State.returnWord_payloadBits (s : State) (v : Word) :
    (s.returnWord v).payloadBits = s.payloadBits := rfl
@[simp] theorem State.returnWord_nodeCount (s : State) (v : Word) : (s.returnWord v).nodeCount = s.nodeCount := rfl
@[simp] theorem State.returnWord_root (s : State) (v : Word) : (s.returnWord v).root = s.root := rfl
@[simp] theorem State.returnWord_progress (s : State) (v : Word) : (s.returnWord v).progress = s.progress := rfl
@[simp] theorem State.returnWord_freq (s : State) (v : Word) : (s.returnWord v).freq = s.freq := rfl
@[simp] theorem State.returnWord_codeLen (s : State) (v : Word) : (s.returnWord v).codeLen = s.codeLen := rfl
@[simp] theorem State.returnWord_codeBits (s : State) (v : Word) : (s.returnWord v).codeBits = s.codeBits := rfl
@[simp] theorem State.returnWord_nodes (s : State) (v : Word) : (s.returnWord v).nodes = s.nodes := rfl
@[simp] theorem State.returnWord_inMem (s : State) (v : Word) : (s.returnWord v).inMem = s.inMem := rfl
@[simp] theorem State.returnWord_outMem (s : State) (v : Word) : (s.returnWord v).outMem = s.outMem := rfl
@[simp] theorem State.returnWord_pending (s : State) (v : Word) : (s.returnWord v).pending = s.pending := rfl
@[simp] theorem State.returnWord_faults (s : State) (v : Word) : (s.returnWord v).faults = s.faults := rfl
@[simp] theorem State.returnWord_hostProg (s : State) (v : Word) : (s.returnWord v).hostProg = s.hostProg := rfl
@[simp] theorem State.returnWord_sched (s : State) (v : Word) : (s.returnWord v).sched = s.sched := rfl
@[simp] theorem State.returnWord_hostReads (s : State) (v : Word) :
    (s.returnWord v).hostReads = v :: s.hostReads := rfl
@[simp] theorem State.returnWord_drawCount (s : State) (v : Word) : (s.returnWord v).drawCount = s.drawCount := rfl

/-! ### State.returnDraw -/

@[simp] theorem State.returnDraw_cfg (s : State) : (s.returnDraw).cfg = s.cfg := rfl
@[simp] theorem State.returnDraw_status (s : State) : (s.returnDraw).status = s.status := rfl
@[simp] theorem State.returnDraw_doneIe (s : State) : (s.returnDraw).doneIe = s.doneIe := rfl
@[simp] theorem State.returnDraw_inLen (s : State) : (s.returnDraw).inLen = s.inLen := rfl
@[simp] theorem State.returnDraw_outLen (s : State) : (s.returnDraw).outLen = s.outLen := rfl
@[simp] theorem State.returnDraw_distinct (s : State) : (s.returnDraw).distinct = s.distinct := rfl
@[simp] theorem State.returnDraw_ogSize (s : State) : (s.returnDraw).ogSize = s.ogSize := rfl
@[simp] theorem State.returnDraw_payloadOff (s : State) : (s.returnDraw).payloadOff = s.payloadOff := rfl
@[simp] theorem State.returnDraw_payloadBits (s : State) : (s.returnDraw).payloadBits = s.payloadBits := rfl
@[simp] theorem State.returnDraw_nodeCount (s : State) : (s.returnDraw).nodeCount = s.nodeCount := rfl
@[simp] theorem State.returnDraw_root (s : State) : (s.returnDraw).root = s.root := rfl
@[simp] theorem State.returnDraw_progress (s : State) : (s.returnDraw).progress = s.progress := rfl
@[simp] theorem State.returnDraw_freq (s : State) : (s.returnDraw).freq = s.freq := rfl
@[simp] theorem State.returnDraw_codeLen (s : State) : (s.returnDraw).codeLen = s.codeLen := rfl
@[simp] theorem State.returnDraw_codeBits (s : State) : (s.returnDraw).codeBits = s.codeBits := rfl
@[simp] theorem State.returnDraw_nodes (s : State) : (s.returnDraw).nodes = s.nodes := rfl
@[simp] theorem State.returnDraw_inMem (s : State) : (s.returnDraw).inMem = s.inMem := rfl
@[simp] theorem State.returnDraw_outMem (s : State) : (s.returnDraw).outMem = s.outMem := rfl
@[simp] theorem State.returnDraw_pending (s : State) : (s.returnDraw).pending = s.pending := rfl
@[simp] theorem State.returnDraw_faults (s : State) : (s.returnDraw).faults = s.faults := rfl
@[simp] theorem State.returnDraw_hostProg (s : State) : (s.returnDraw).hostProg = s.hostProg := rfl
@[simp] theorem State.returnDraw_sched (s : State) : (s.returnDraw).sched = s.sched := rfl
@[simp] theorem State.returnDraw_hostReads (s : State) :
    (s.returnDraw).hostReads = Config.draw s.drawCount :: s.hostReads := rfl
@[simp] theorem State.returnDraw_drawCount (s : State) : (s.returnDraw).drawCount = s.drawCount + 1 := rfl

/-! ### State.returnDrawByte -/

@[simp] theorem State.returnDrawByte_cfg (s : State) : (s.returnDrawByte).cfg = s.cfg := rfl
@[simp] theorem State.returnDrawByte_status (s : State) : (s.returnDrawByte).status = s.status := rfl
@[simp] theorem State.returnDrawByte_doneIe (s : State) : (s.returnDrawByte).doneIe = s.doneIe := rfl
@[simp] theorem State.returnDrawByte_inLen (s : State) : (s.returnDrawByte).inLen = s.inLen := rfl
@[simp] theorem State.returnDrawByte_outLen (s : State) : (s.returnDrawByte).outLen = s.outLen := rfl
@[simp] theorem State.returnDrawByte_distinct (s : State) : (s.returnDrawByte).distinct = s.distinct := rfl
@[simp] theorem State.returnDrawByte_ogSize (s : State) : (s.returnDrawByte).ogSize = s.ogSize := rfl
@[simp] theorem State.returnDrawByte_payloadOff (s : State) : (s.returnDrawByte).payloadOff = s.payloadOff := rfl
@[simp] theorem State.returnDrawByte_payloadBits (s : State) : (s.returnDrawByte).payloadBits = s.payloadBits := rfl
@[simp] theorem State.returnDrawByte_nodeCount (s : State) : (s.returnDrawByte).nodeCount = s.nodeCount := rfl
@[simp] theorem State.returnDrawByte_root (s : State) : (s.returnDrawByte).root = s.root := rfl
@[simp] theorem State.returnDrawByte_progress (s : State) : (s.returnDrawByte).progress = s.progress := rfl
@[simp] theorem State.returnDrawByte_freq (s : State) : (s.returnDrawByte).freq = s.freq := rfl
@[simp] theorem State.returnDrawByte_codeLen (s : State) : (s.returnDrawByte).codeLen = s.codeLen := rfl
@[simp] theorem State.returnDrawByte_codeBits (s : State) : (s.returnDrawByte).codeBits = s.codeBits := rfl
@[simp] theorem State.returnDrawByte_nodes (s : State) : (s.returnDrawByte).nodes = s.nodes := rfl
@[simp] theorem State.returnDrawByte_inMem (s : State) : (s.returnDrawByte).inMem = s.inMem := rfl
@[simp] theorem State.returnDrawByte_outMem (s : State) : (s.returnDrawByte).outMem = s.outMem := rfl
@[simp] theorem State.returnDrawByte_pending (s : State) : (s.returnDrawByte).pending = s.pending := rfl
@[simp] theorem State.returnDrawByte_faults (s : State) : (s.returnDrawByte).faults = s.faults := rfl
@[simp] theorem State.returnDrawByte_hostProg (s : State) : (s.returnDrawByte).hostProg = s.hostProg := rfl
@[simp] theorem State.returnDrawByte_sched (s : State) : (s.returnDrawByte).sched = s.sched := rfl
@[simp] theorem State.returnDrawByte_hostReads (s : State) :
    (s.returnDrawByte).hostReads = ((Config.draw s.drawCount).setWidth 8).setWidth 64 :: s.hostReads := rfl
@[simp] theorem State.returnDrawByte_drawCount (s : State) : (s.returnDrawByte).drawCount = s.drawCount + 1 := rfl

/-! ### State.turnTaken -/

@[simp] theorem State.turnTaken_cfg (s : State) : (s.turnTaken).cfg = s.cfg := rfl
@[simp] theorem State.turnTaken_status (s : State) : (s.turnTaken).status = s.status := rfl
@[simp] theorem State.turnTaken_doneIe (s : State) : (s.turnTaken).doneIe = s.doneIe := rfl
@[simp] theorem State.turnTaken_inLen (s : State) : (s.turnTaken).inLen = s.inLen := rfl
@[simp] theorem State.turnTaken_outLen (s : State) : (s.turnTaken).outLen = s.outLen := rfl
@[simp] theorem State.turnTaken_distinct (s : State) : (s.turnTaken).distinct = s.distinct := rfl
@[simp] theorem State.turnTaken_ogSize (s : State) : (s.turnTaken).ogSize = s.ogSize := rfl
@[simp] theorem State.turnTaken_payloadOff (s : State) : (s.turnTaken).payloadOff = s.payloadOff := rfl
@[simp] theorem State.turnTaken_payloadBits (s : State) : (s.turnTaken).payloadBits = s.payloadBits := rfl
@[simp] theorem State.turnTaken_nodeCount (s : State) : (s.turnTaken).nodeCount = s.nodeCount := rfl
@[simp] theorem State.turnTaken_root (s : State) : (s.turnTaken).root = s.root := rfl
@[simp] theorem State.turnTaken_progress (s : State) : (s.turnTaken).progress = s.progress := rfl
@[simp] theorem State.turnTaken_freq (s : State) : (s.turnTaken).freq = s.freq := rfl
@[simp] theorem State.turnTaken_codeLen (s : State) : (s.turnTaken).codeLen = s.codeLen := rfl
@[simp] theorem State.turnTaken_codeBits (s : State) : (s.turnTaken).codeBits = s.codeBits := rfl
@[simp] theorem State.turnTaken_nodes (s : State) : (s.turnTaken).nodes = s.nodes := rfl
@[simp] theorem State.turnTaken_inMem (s : State) : (s.turnTaken).inMem = s.inMem := rfl
@[simp] theorem State.turnTaken_outMem (s : State) : (s.turnTaken).outMem = s.outMem := rfl
@[simp] theorem State.turnTaken_pending (s : State) : (s.turnTaken).pending = s.pending := rfl
@[simp] theorem State.turnTaken_faults (s : State) : (s.turnTaken).faults = s.faults := rfl
@[simp] theorem State.turnTaken_hostProg (s : State) : (s.turnTaken).hostProg = s.hostProg := rfl
@[simp] theorem State.turnTaken_sched (s : State) : (s.turnTaken).sched = s.sched.tail := rfl
@[simp] theorem State.turnTaken_hostReads (s : State) : (s.turnTaken).hostReads = s.hostReads := rfl
@[simp] theorem State.turnTaken_drawCount (s : State) : (s.turnTaken).drawCount = s.drawCount := rfl

/-! ### State.recordFault -/

@[simp] theorem State.recordFault_cfg (s : State) (r : Fault) : (s.recordFault r).cfg = s.cfg := rfl
@[simp] theorem State.recordFault_status (s : State) (r : Fault) : (s.recordFault r).status = s.status := rfl
@[simp] theorem State.recordFault_doneIe (s : State) (r : Fault) : (s.recordFault r).doneIe = s.doneIe := rfl
@[simp] theorem State.recordFault_inLen (s : State) (r : Fault) : (s.recordFault r).inLen = s.inLen := rfl
@[simp] theorem State.recordFault_outLen (s : State) (r : Fault) : (s.recordFault r).outLen = s.outLen := rfl
@[simp] theorem State.recordFault_distinct (s : State) (r : Fault) : (s.recordFault r).distinct = s.distinct := rfl
@[simp] theorem State.recordFault_ogSize (s : State) (r : Fault) : (s.recordFault r).ogSize = s.ogSize := rfl
@[simp] theorem State.recordFault_payloadOff (s : State) (r : Fault) :
    (s.recordFault r).payloadOff = s.payloadOff := rfl
@[simp] theorem State.recordFault_payloadBits (s : State) (r : Fault) :
    (s.recordFault r).payloadBits = s.payloadBits := rfl
@[simp] theorem State.recordFault_nodeCount (s : State) (r : Fault) : (s.recordFault r).nodeCount = s.nodeCount := rfl
@[simp] theorem State.recordFault_root (s : State) (r : Fault) : (s.recordFault r).root = s.root := rfl
@[simp] theorem State.recordFault_progress (s : State) (r : Fault) : (s.recordFault r).progress = s.progress := rfl
@[simp] theorem State.recordFault_freq (s : State) (r : Fault) : (s.recordFault r).freq = s.freq := rfl
@[simp] theorem State.recordFault_codeLen (s : State) (r : Fault) : (s.recordFault r).codeLen = s.codeLen := rfl
@[simp] theorem State.recordFault_codeBits (s : State) (r : Fault) : (s.recordFault r).codeBits = s.codeBits := rfl
@[simp] theorem State.recordFault_nodes (s : State) (r : Fault) : (s.recordFault r).nodes = s.nodes := rfl
@[simp] theorem State.recordFault_inMem (s : State) (r : Fault) : (s.recordFault r).inMem = s.inMem := rfl
@[simp] theorem State.recordFault_outMem (s : State) (r : Fault) : (s.recordFault r).outMem = s.outMem := rfl
@[simp] theorem State.recordFault_pending (s : State) (r : Fault) : (s.recordFault r).pending = s.pending := rfl
@[simp] theorem State.recordFault_faults (s : State) (r : Fault) :
    (s.recordFault r).faults = if r ∈ s.faults then s.faults else r :: s.faults := rfl
@[simp] theorem State.recordFault_hostProg (s : State) (r : Fault) : (s.recordFault r).hostProg = s.hostProg := rfl
@[simp] theorem State.recordFault_sched (s : State) (r : Fault) : (s.recordFault r).sched = s.sched := rfl
@[simp] theorem State.recordFault_hostReads (s : State) (r : Fault) : (s.recordFault r).hostReads = s.hostReads := rfl
@[simp] theorem State.recordFault_drawCount (s : State) (r : Fault) : (s.recordFault r).drawCount = s.drawCount := rfl

/-! ### State.resetAction -/

@[simp] theorem State.resetAction_cfg (s : State) : (s.resetAction).cfg = s.cfg := rfl
@[simp] theorem State.resetAction_status (s : State) : (s.resetAction).status = State.reset.status := rfl
@[simp] theorem State.resetAction_doneIe (s : State) : (s.resetAction).doneIe = State.reset.doneIe := rfl
@[simp] theorem State.resetAction_inLen (s : State) : (s.resetAction).inLen = State.reset.inLen := rfl
@[simp] theorem State.resetAction_outLen (s : State) : (s.resetAction).outLen = State.reset.outLen := rfl
@[simp] theorem State.resetAction_distinct (s : State) : (s.resetAction).distinct = State.reset.distinct := rfl
@[simp] theorem State.resetAction_ogSize (s : State) : (s.resetAction).ogSize = State.reset.ogSize := rfl
@[simp] theorem State.resetAction_payloadOff (s : State) : (s.resetAction).payloadOff = State.reset.payloadOff := rfl
@[simp] theorem State.resetAction_payloadBits (s : State) :
    (s.resetAction).payloadBits = State.reset.payloadBits := rfl
@[simp] theorem State.resetAction_nodeCount (s : State) : (s.resetAction).nodeCount = State.reset.nodeCount := rfl
@[simp] theorem State.resetAction_root (s : State) : (s.resetAction).root = State.reset.root := rfl
@[simp] theorem State.resetAction_progress (s : State) : (s.resetAction).progress = State.reset.progress := rfl
@[simp] theorem State.resetAction_freq (s : State) : (s.resetAction).freq = State.reset.freq := rfl
@[simp] theorem State.resetAction_codeLen (s : State) : (s.resetAction).codeLen = State.reset.codeLen := rfl
@[simp] theorem State.resetAction_codeBits (s : State) : (s.resetAction).codeBits = State.reset.codeBits := rfl
@[simp] theorem State.resetAction_nodes (s : State) : (s.resetAction).nodes = State.reset.nodes := rfl
@[simp] theorem State.resetAction_inMem (s : State) : (s.resetAction).inMem = State.reset.inMem := rfl
@[simp] theorem State.resetAction_outMem (s : State) : (s.resetAction).outMem = State.reset.outMem := rfl
@[simp] theorem State.resetAction_pending (s : State) : (s.resetAction).pending = State.reset.pending := rfl
@[simp] theorem State.resetAction_faults (s : State) : (s.resetAction).faults = s.faults := rfl
@[simp] theorem State.resetAction_hostProg (s : State) : (s.resetAction).hostProg = s.hostProg := rfl
@[simp] theorem State.resetAction_sched (s : State) : (s.resetAction).sched = s.sched := rfl
@[simp] theorem State.resetAction_hostReads (s : State) : (s.resetAction).hostReads = s.hostReads := rfl
@[simp] theorem State.resetAction_drawCount (s : State) : (s.resetAction).drawCount = s.drawCount := rfl

end Sys2Proof.Machine
end

