-- ==== Sys2Proof/Laws/Stages.lean ====
section
/-! SUPPORT. Once for all: what running stages can answer, and what each stage body can answer. Later proofs cite these and
unfold neither. -/

namespace Sys2Proof.Machine

/-! ### Running stages (47_control.md R212, R217) -/

@[simp] theorem runStages_nil (s : State) : runStages [] s = .next s.succeed := rfl

theorem runStages_ok {body : StageBody} {s u : State} (h : body s = .ok u) (rest : List StageBody) :
    runStages (body :: rest) s = runStages rest u := by simp [runStages, h]

theorem runStages_raised {body : StageBody} {s : State} {e : ErrKind} {stage : BitVec 4}
    (h : body s = .error (.raised e stage)) (rest : List StageBody) :
    runStages (body :: rest) s = .next (s.errorCompletion e stage) := by simp [runStages, h]

theorem runStages_faulted {body : StageBody} {s : State} {r : Fault} (h : body s = .error (.faulted r))
    (rest : List StageBody) : runStages (body :: rest) s = .fault r := by simp [runStages, h]

/-- Stages that answer a next state: the first completed and the rest ran on, or the first raised. -/
theorem runStages_cons_next {body : StageBody} {rest : List StageBody} {s t : State} :
    runStages (body :: rest) s = .next t ↔
      (∃ u, body s = .ok u ∧ runStages rest u = .next t) ∨
      (∃ e stage, body s = .error (.raised e stage) ∧ t = s.errorCompletion e stage) := by
  cases h : body s with
  | ok u => simp [runStages, h]
  | error x =>
    cases x with
    | raised e stage =>
      simp only [runStages, h, Host.Outcome.next.injEq]
      constructor
      · rintro rfl
        exact .inr ⟨e, stage, rfl, rfl⟩
      · rintro (⟨u, hu, -⟩ | ⟨e', stage', he, rfl⟩)
        · simp at hu
        · simp only [Except.error.injEq, Stop.raised.injEq] at he
          rw [he.1, he.2]
    | faulted r => simp [runStages, h]

/-- A single stage that answers a next state: it completed with success, or it raised (47_control.md R217). -/
theorem runStages_single_next {body : StageBody} {s t : State} :
    runStages [body] s = .next t ↔
      (∃ u, body s = .ok u ∧ t = u.succeed) ∨
      (∃ e stage, body s = .error (.raised e stage) ∧ t = s.errorCompletion e stage) := by
  rw [runStages_cons_next]
  simp only [runStages_nil, Host.Outcome.next.injEq, eq_comm (b := t)]

/-- No stage refuses. -/
theorem runStages_not_refused (bodies : List StageBody) (s : State) (r : Refusal) :
    runStages bodies s ≠ .refused r := by
  induction bodies generalizing s with
  | nil => simp
  | cons body rest ih =>
    simp only [runStages]
    split
    · exact ih _
    · simp
    · simp

/-- What every stage body, success and error completion keep, running stages keeps. -/
theorem runStages_keeps {P : State → Prop} {bodies : List StageBody}
    (hbody : ∀ body ∈ bodies, ∀ s u, P s → body s = .ok u → P u)
    (hsucceed : ∀ s, P s → P s.succeed)
    (herror : ∀ s e stage, P s → P (s.errorCompletion e stage))
    {s t : State} (hs : P s) (h : runStages bodies s = .next t) : P t := by
  induction bodies generalizing s with
  | nil =>
    rw [runStages_nil, Host.Outcome.next.injEq] at h
    exact h ▸ hsucceed s hs
  | cons body rest ih =>
    rcases runStages_cons_next.1 h with ⟨u, hu, hrest⟩ | ⟨e, stage, -, rfl⟩
    · exact ih (fun b hb => hbody b (List.mem_cons_of_mem _ hb))
        (hbody body List.mem_cons_self s u hs hu) hrest
    · exact herror s e stage hs

/-! ### The stage bodies -/

theorem freqBody_ok {s u : State} :
    freqBody s = .ok u ↔ s.inLen.toNat ≤ s.cfg.inCap.toNat ∧
      ∃ bytes, s.inMem.coreRead 0 s.inLen.toNat = .ok bytes ∧
        u = { s with
          freq := freqTable bytes
          distinct := BitVec.ofNat 9 (distinctCount (freqTable bytes))
          ogSize := s.inLen
          progress := s.inLen
          status := s.status.tableLoaded false } := by
  unfold freqBody
  split
  · simp only [reduceCtorEq, false_iff]
    omega
  · rename_i h
    cases hr : s.inMem.coreRead 0 s.inLen.toNat with
    | error r => simp
    | ok bytes => simp [Nat.le_of_not_lt h, eq_comm]

theorem freqBody_raised {s : State} {e : ErrKind} {stage : BitVec 4} :
    freqBody s = .error (.raised e stage) ↔
      s.cfg.inCap.toNat < s.inLen.toNat ∧ e = .capacityExceeded ∧ stage = 3#4 := by
  unfold freqBody
  split
  · rename_i h
    simp [h, Instr.opcode, eq_comm]
  · rename_i h
    cases s.inMem.coreRead 0 s.inLen.toNat <;> simp [h]

theorem freqBody_faulted {s : State} {r : Fault} :
    freqBody s = .error (.faulted r) ↔
      s.inLen.toNat ≤ s.cfg.inCap.toNat ∧ s.inMem.coreRead 0 s.inLen.toNat = .error r := by
  unfold freqBody
  split
  · simp only [Except.error.injEq, reduceCtorEq, false_iff]
    omega
  · rename_i h
    cases s.inMem.coreRead 0 s.inLen.toNat <;> simp [Nat.le_of_not_lt h]

theorem buildTreeBody_ok {s u : State} :
    buildTreeBody s = .ok u ↔ s.status.freqValid = true ∧
      u = { s with
        nodes := arenaOf (buildTree s.freq)
        nodeCount := BitVec.ofNat 10 (buildTree s.freq).length
        root := BitVec.ofNat 9 ((buildTree s.freq).length - 1)
        status := s.status.treeBuilt } := by
  unfold buildTreeBody
  cases s.status.freqValid <;> simp [eq_comm]

theorem buildTreeBody_raised {s : State} {e : ErrKind} {stage : BitVec 4} :
    buildTreeBody s = .error (.raised e stage) ↔
      s.status.freqValid = false ∧ e = .sequenceError ∧ stage = 4#4 := by
  unfold buildTreeBody
  cases s.status.freqValid <;> simp [Instr.opcode, eq_comm]

theorem genCodesBody_ok {s u : State} :
    genCodesBody s = .ok u ↔ s.status.treeValid = true ∧
      u = { s with
        codeLen := s.treeCodes.len
        codeBits := s.treeCodes.bits
        status := s.status.codesMade } := by
  unfold genCodesBody
  cases s.status.treeValid <;> simp [eq_comm]

theorem genCodesBody_raised {s : State} {e : ErrKind} {stage : BitVec 4} :
    genCodesBody s = .error (.raised e stage) ↔
      s.status.treeValid = false ∧ e = .sequenceError ∧ stage = 5#4 := by
  unfold genCodesBody
  cases s.status.treeValid <;> simp [Instr.opcode, eq_comm]

theorem packBody_ok {s u : State} :
    packBody s = .ok u ↔ s.status.codesValid = true ∧ s.status.freqSrc = false ∧ s.ogSize ≠ 0#64 ∧
      s.packLength ≤ s.cfg.outCap.toNat ∧
      ∃ bytes, s.inMem.coreRead 0 s.ogSize.toNat = .ok bytes ∧
        u = { s with
          outMem := serialize s.outMem s.distinct.toNat s.ogSize s.freq
            (packBits (encodeBits s.codeLen s.codeBits bytes))
          outLen := BitVec.ofNat 64 s.packLength
          payloadOff := BitVec.ofNat 64 (recordOffset s.distinct.toNat)
          payloadBits := BitVec.ofNat 64 (meaningfulBits s.freq s.codeLen)
          progress := s.ogSize } := by
  unfold packBody
  split
  · rename_i h
    simp only [reduceCtorEq, false_iff]
    rintro ⟨hc, hs, -⟩
    simp [hc, hs] at h
  · rename_i h
    split
    · rename_i ho
      simp [ho]
    · rename_i ho
      split
      · simp only [reduceCtorEq, false_iff]
        omega
      · rename_i hl
        simp only [Bool.or_eq_true, Bool.not_eq_true', not_or, Bool.not_eq_true] at h
        cases s.inMem.coreRead 0 s.ogSize.toNat with
        | error r => simp
        | ok bytes =>
          simp only [Except.ok.injEq, exists_eq_left', h.1, h.2, ne_eq, ho, not_false_eq_true, true_and,
            Nat.le_of_not_lt hl]
          exact eq_comm

theorem deserializeBody_ok {s u : State} :
    deserializeBody s = .ok u ↔ s.inLen.toNat ≤ s.cfg.inCap.toNat ∧ headerBytes ≤ s.inLen.toNat ∧
      ∃ k og records, readHeader s.inMem = .ok (k, og) ∧ k ≤ (s.inLen.toNat - headerBytes) / recordBytes ∧
        readRecords s.inMem headerBytes k = .ok records ∧ inconsistentRecords records og = false ∧
        u = { s with
          freq := tableOfRecords records
          distinct := BitVec.ofNat 9 k
          ogSize := BitVec.ofNat 64 og
          payloadOff := BitVec.ofNat 64 (recordOffset k)
          status := s.status.tableLoaded true } := by
  unfold deserializeBody
  split
  · simp only [reduceCtorEq, false_iff]
    omega
  · split
    · rename_i h
      simp only [reduceCtorEq, false_iff]
      omega
    · rename_i hc hl
      cases hh : readHeader s.inMem with
      | error r => simp
      | ok p =>
        obtain ⟨k, og⟩ := p
        simp only [Except.ok.injEq, Prod.mk.injEq]
        by_cases hk : (s.inLen.toNat - headerBytes) / recordBytes < k
        · rw [if_pos hk]
          simp only [reduceCtorEq, false_iff]
          rintro ⟨-, -, k', og', records, ⟨rfl, rfl⟩, hle, -⟩
          omega
        · rw [if_neg hk]
          constructor
          · intro h
            cases hr : readRecords s.inMem headerBytes k with
            | error r => simp [hr] at h
            | ok records =>
              cases hi : inconsistentRecords records og with
              | true => simp [hr, hi] at h
              | false =>
                exact ⟨by omega, by omega, k, og, records, ⟨rfl, rfl⟩, by omega, hr, hi,
                  by simpa [hr, hi, eq_comm] using h⟩
          · rintro ⟨-, -, k', og', records, ⟨rfl, rfl⟩, -, hr, hi, rfl⟩
            simp [hr, hi]

theorem unpackBody_ok {s u : State} :
    unpackBody s = .ok u ↔ s.status.treeValid = true ∧ s.status.freqSrc = true ∧
      s.ogSize.toNat ≤ s.cfg.outCap.toNat ∧
      ∃ out used, s.decodePayload = .ok (out, used) ∧
        u = { s with
          outMem := s.outMem.writeBytes 0 out
          outLen := s.ogSize
          payloadBits := BitVec.ofNat 64 used
          progress := s.ogSize } := by
  unfold unpackBody
  split
  · rename_i h
    simp only [reduceCtorEq, false_iff]
    rintro ⟨hc, hs, -⟩
    simp [hc, hs] at h
  · rename_i h
    simp only [Bool.or_eq_true, Bool.not_eq_true', not_or, Bool.not_eq_false] at h
    split
    · simp only [reduceCtorEq, false_iff]
      omega
    · rename_i hl
      cases s.decodePayload with
      | error r => simp
      | ok p =>
        obtain ⟨out, used⟩ := p
        constructor
        · intro e
          exact ⟨h.1, h.2, by omega, out, used, rfl, by simpa [eq_comm] using e⟩
        · rintro ⟨-, -, -, out', used', e, rfl⟩
          simp only [Except.ok.injEq, Prod.mk.injEq] at e
          rw [← e.1, ← e.2]

/-- The errors a stage of each command can raise are those of 60_exceptions.md R230. -/
theorem packBody_raised {s : State} {e : ErrKind} {stage : BitVec 4} (h : packBody s = .error (.raised e stage)) :
    stage = 6#4 ∧ (e = .sequenceError ∨ e = .emptyInput ∨ e = .capacityExceeded) := by
  unfold packBody at h
  split at h
  · simp_all [Instr.opcode]
  · split at h
    · simp_all [Instr.opcode]
    · split at h
      · simp_all [Instr.opcode]
      · split at h <;> simp_all

theorem deserializeBody_raised {s : State} {e : ErrKind} {stage : BitVec 4}
    (h : deserializeBody s = .error (.raised e stage)) :
    stage = 7#4 ∧ (e = .capacityExceeded ∨ e = .malformedContainer ∨ e = .inconsistentFrequencyTable) := by
  unfold deserializeBody at h
  split at h
  · simp_all [Instr.opcode]
  · split at h
    · simp_all [Instr.opcode]
    · split at h
      · simp at h
      · split at h
        · simp_all [Instr.opcode]
        · split at h
          · simp at h
          · split at h <;> simp_all [Instr.opcode]

/-- The decode walk raises nothing but MalformedContainer at stage 8 (45_bitunpacker.md R174). -/
theorem decodeWalk_raised {mem : Memory} {nodes : Vector Node 512} {root off bitsLeft t pos need : Nat} {e : ErrKind}
    {stage : BitVec 4} (h : decodeWalk mem nodes root off bitsLeft t pos need = .error (.raised e stage)) :
    e = .malformedContainer ∧ stage = 8#4 := by
  induction bitsLeft generalizing t pos need with
  | zero =>
    cases need with
    | zero => simp [decodeWalk] at h
    | succ need =>
      simp only [decodeWalk, Except.error.injEq, Stop.raised.injEq] at h
      exact ⟨h.1.symm, h.2.symm⟩
  | succ bitsLeft ih =>
    cases need with
    | zero => simp [decodeWalk] at h
    | succ need =>
      simp only [decodeWalk] at h
      split at h
      · simp at h
      · split at h
        · split at h
          · simp at h
          · rename_i e' he'
            simp only [Except.error.injEq] at h
            subst h
            exact ih he'
        · exact ih h
        · exact ih h

/-- The decode walk of a single leaf raises nothing but MalformedContainer at stage 8 (45_bitunpacker.md R174). -/
theorem decodeSingle_raised {mem : Memory} {symbol : Byte} {off bitsLeft t need : Nat} {e : ErrKind} {stage : BitVec 4}
    (h : decodeSingle mem symbol off bitsLeft t need = .error (.raised e stage)) :
    e = .malformedContainer ∧ stage = 8#4 := by
  induction bitsLeft generalizing t need with
  | zero =>
    cases need with
    | zero => simp [decodeSingle] at h
    | succ need =>
      simp only [decodeSingle, Except.error.injEq, Stop.raised.injEq] at h
      exact ⟨h.1.symm, h.2.symm⟩
  | succ bitsLeft ih =>
    cases need with
    | zero => simp [decodeSingle] at h
    | succ need =>
      simp only [decodeSingle] at h
      split at h
      · simp at h
      · split at h
        · simp at h
        · rename_i e' he'
          simp only [Except.error.injEq] at h
          subst h
          exact ih he'

theorem decodePayload_raised {s : State} {e : ErrKind} {stage : BitVec 4}
    (h : s.decodePayload = .error (.raised e stage)) : e = .malformedContainer ∧ stage = 8#4 := by
  unfold State.decodePayload at h
  split at h
  · exact decodeSingle_raised h
  · exact decodeWalk_raised h

theorem unpackBody_raised {s : State} {e : ErrKind} {stage : BitVec 4} (h : unpackBody s = .error (.raised e stage)) :
    stage = 8#4 ∧ (e = .sequenceError ∨ e = .capacityExceeded ∨ e = .malformedContainer) := by
  unfold unpackBody at h
  split at h
  · simp_all [Instr.opcode]
  · split at h
    · simp_all [Instr.opcode]
    · split at h
      · rename_i e' he'
        simp only [Except.error.injEq] at h
        subst h
        obtain ⟨rfl, rfl⟩ := decodePayload_raised he'
        simp
      · simp at h

/-! ### The core's step on a command -/

/-- Every meaning is a run of stages. -/
def stagesOf : Instr → List StageBody
  | .nop => []
  | .encode => [freqBody, buildTreeBody, genCodesBody, packBody]
  | .decode => [deserializeBody, buildTreeBody, unpackBody]
  | .freq => [freqBody]
  | .buildTree => [buildTreeBody]
  | .genCodes => [genCodesBody]
  | .pack => [packBody]
  | .deserialize => [deserializeBody]
  | .unpack => [unpackBody]
  | .clear => [clearBody]

theorem exec_eq_runStages (i : Instr) (s : State) : exec i s = runStages (stagesOf i) s := by cases i <;> rfl

theorem exec_not_refused (i : Instr) (s : State) (r : Refusal) : exec i s ≠ .refused r := by
  rw [exec_eq_runStages]
  exact runStages_not_refused _ _ _

/-- What every stage body, success and error completion keep, every command keeps. -/
theorem exec_keeps {P : State → Prop}
    (hfreq : ∀ s u, P s → freqBody s = .ok u → P u)
    (htree : ∀ s u, P s → buildTreeBody s = .ok u → P u)
    (hcodes : ∀ s u, P s → genCodesBody s = .ok u → P u)
    (hpack : ∀ s u, P s → packBody s = .ok u → P u)
    (hdeser : ∀ s u, P s → deserializeBody s = .ok u → P u)
    (hunpack : ∀ s u, P s → unpackBody s = .ok u → P u)
    (hclear : ∀ s u, P s → clearBody s = .ok u → P u)
    (hsucceed : ∀ s, P s → P s.succeed)
    (herror : ∀ s e stage, P s → P (s.errorCompletion e stage))
    {i : Instr} {s t : State} (hs : P s) (h : exec i s = .next t) : P t := by
  rw [exec_eq_runStages] at h
  refine runStages_keeps (fun body hb => ?_) hsucceed herror hs h
  cases i <;> simp only [stagesOf, List.mem_cons, List.not_mem_nil, or_false] at hb
  case encode => rcases hb with rfl | rfl | rfl | rfl <;> assumption
  case decode => rcases hb with rfl | rfl | rfl <;> assumption
  all_goals subst hb; assumption

/-! ### The step -/

/-- A step that answers a next state: no fault was recorded, and the mover answered it or met a fault that is recorded. -/
theorem step_next {s t : State} :
    step s = .next t ↔ s.faults = [] ∧
      (agentMove s.mover s.turnTaken = .next t ∨
        ∃ r, agentMove s.mover s.turnTaken = .fault r ∧ t = s.recordFault r) := by
  unfold step
  split
  · rename_i h
    simp [h]
  · rename_i h
    cases hm : agentMove s.mover s.turnTaken <;> simp [recordOutcome, h, eq_comm]

/-- After a recorded fault every step answers it (47_control.md R217). -/
theorem step_of_fault {s : State} {r : Fault} {rest : List Fault} (h : s.faults = r :: rest) : step s = .fault r := by
  simp [step, h]

/-- A command word laid for the next step is accepted, and the step runs the command it decodes to (47_control.md R210,
R217). -/
theorem step_withFetchWord {s : State} {w : Nat} {i : Instr} (hf : s.faults = [])
    (hd : decode (BitVec.ofNat 64 (w % 2 ^ 64)) = .ok i) :
    step (s.withFetchWord 64 w) = recordOutcome (s.withFetchWord 64 w) (exec i (s.accept (BitVec.ofNat 64 (w % 2 ^ 64)))) := by
  have hc : agentMove (s.withFetchWord 64 w).mover (s.withFetchWord 64 w).turnTaken =
      exec i (s.accept (BitVec.ofNat 64 (w % 2 ^ 64))) := by
    show coreMove (s.accept (BitVec.ofNat 64 (w % 2 ^ 64))) = _
    unfold coreMove State.accept
    simp only [hd]
  unfold step
  rw [show (s.withFetchWord 64 w).faults = [] from hf]
  simp only [hc]

end Sys2Proof.Machine
end

