-- ==== Sys2Proof/Laws/Binding.lean ====
section
/-! SUPPORT. "A bus binding changes no codec result" (92_eei_decisions.md D1): the step commutes with a change of BUS_BINDING. -/

namespace Sys2Proof.Machine

/-! ### What the same block on another bus is -/

@[simp] theorem State.withBinding_inCap (s : State) (b : BusBinding) : (s.withBinding b).cfg.inCap = s.cfg.inCap := rfl
@[simp] theorem State.withBinding_outCap (s : State) (b : BusBinding) : (s.withBinding b).cfg.outCap = s.cfg.outCap := rfl
@[simp] theorem State.withBinding_binding (s : State) (b : BusBinding) : (s.withBinding b).cfg.binding = b := rfl
@[simp] theorem State.withBinding_status (s : State) (b : BusBinding) : (s.withBinding b).status = s.status := rfl
@[simp] theorem State.withBinding_doneIe (s : State) (b : BusBinding) : (s.withBinding b).doneIe = s.doneIe := rfl
@[simp] theorem State.withBinding_inLen (s : State) (b : BusBinding) : (s.withBinding b).inLen = s.inLen := rfl
@[simp] theorem State.withBinding_outLen (s : State) (b : BusBinding) : (s.withBinding b).outLen = s.outLen := rfl
@[simp] theorem State.withBinding_distinct (s : State) (b : BusBinding) : (s.withBinding b).distinct = s.distinct := rfl
@[simp] theorem State.withBinding_ogSize (s : State) (b : BusBinding) : (s.withBinding b).ogSize = s.ogSize := rfl
@[simp] theorem State.withBinding_payloadOff (s : State) (b : BusBinding) : (s.withBinding b).payloadOff = s.payloadOff := rfl
@[simp] theorem State.withBinding_payloadBits (s : State) (b : BusBinding) : (s.withBinding b).payloadBits = s.payloadBits := rfl
@[simp] theorem State.withBinding_nodeCount (s : State) (b : BusBinding) : (s.withBinding b).nodeCount = s.nodeCount := rfl
@[simp] theorem State.withBinding_root (s : State) (b : BusBinding) : (s.withBinding b).root = s.root := rfl
@[simp] theorem State.withBinding_progress (s : State) (b : BusBinding) : (s.withBinding b).progress = s.progress := rfl
@[simp] theorem State.withBinding_freq (s : State) (b : BusBinding) : (s.withBinding b).freq = s.freq := rfl
@[simp] theorem State.withBinding_codeLen (s : State) (b : BusBinding) : (s.withBinding b).codeLen = s.codeLen := rfl
@[simp] theorem State.withBinding_codeBits (s : State) (b : BusBinding) : (s.withBinding b).codeBits = s.codeBits := rfl
@[simp] theorem State.withBinding_nodes (s : State) (b : BusBinding) : (s.withBinding b).nodes = s.nodes := rfl
@[simp] theorem State.withBinding_inMem (s : State) (b : BusBinding) : (s.withBinding b).inMem = s.inMem := rfl
@[simp] theorem State.withBinding_outMem (s : State) (b : BusBinding) : (s.withBinding b).outMem = s.outMem := rfl
@[simp] theorem State.withBinding_pending (s : State) (b : BusBinding) : (s.withBinding b).pending = s.pending := rfl
@[simp] theorem State.withBinding_faults (s : State) (b : BusBinding) : (s.withBinding b).faults = s.faults := rfl
@[simp] theorem State.withBinding_hostProg (s : State) (b : BusBinding) : (s.withBinding b).hostProg = s.hostProg := rfl
@[simp] theorem State.withBinding_sched (s : State) (b : BusBinding) : (s.withBinding b).sched = s.sched := rfl
@[simp] theorem State.withBinding_hostReads (s : State) (b : BusBinding) : (s.withBinding b).hostReads = s.hostReads := rfl
@[simp] theorem State.withBinding_drawCount (s : State) (b : BusBinding) : (s.withBinding b).drawCount = s.drawCount := rfl
@[simp] theorem State.withBinding_irq (s : State) (b : BusBinding) : (s.withBinding b).irq = s.irq := rfl
@[simp] theorem State.withBinding_packLength (s : State) (b : BusBinding) : (s.withBinding b).packLength = s.packLength := rfl
@[simp] theorem State.withBinding_treeCodes (s : State) (b : BusBinding) : (s.withBinding b).treeCodes = s.treeCodes := rfl
@[simp] theorem State.withBinding_decodePayload (s : State) (b : BusBinding) :
    (s.withBinding b).decodePayload = s.decodePayload := rfl
@[simp] theorem State.withBinding_regValue (s : State) (b : BusBinding) (r : RegName) :
    (s.withBinding b).regValue r = s.regValue r := by cases r <;> rfl

/-! ### The stages, the commands, the host and the step -/

/-- A stage body does not depend on BUS_BINDING. -/
def StageBody.IgnoresBinding (body : StageBody) : Prop :=
  ∀ s b, body (s.withBinding b) = (body s).map fun t => t.withBinding b

theorem freqBody_ignoresBinding : StageBody.IgnoresBinding freqBody := by
  intro s b
  by_cases h : s.cfg.inCap.toNat < s.inLen.toNat
  · simp [freqBody, h, Except.map]
  · cases hb : s.inMem.coreRead 0 s.inLen.toNat <;> simp [freqBody, h, hb, Except.map, State.withBinding]

theorem buildTreeBody_ignoresBinding : StageBody.IgnoresBinding buildTreeBody := by
  intro s b
  cases h : s.status.freqValid <;> simp [buildTreeBody, h, Except.map, State.withBinding]

theorem genCodesBody_ignoresBinding : StageBody.IgnoresBinding genCodesBody := by
  intro s b
  cases h : s.status.treeValid <;> simp [genCodesBody, h, Except.map]
  rfl

theorem packBody_ignoresBinding : StageBody.IgnoresBinding packBody := by
  intro s b
  simp only [packBody, State.withBinding_status, State.withBinding_ogSize, State.withBinding_outCap,
    State.withBinding_packLength, State.withBinding_inMem, apply_ite (Except.map _)]
  refine ite_congr rfl (fun _ => rfl) fun _ => ite_congr rfl (fun _ => rfl) fun _ => ite_congr rfl (fun _ => rfl) fun _ => ?_
  cases s.inMem.coreRead 0 s.ogSize.toNat <;> rfl

theorem deserializeBody_ignoresBinding : StageBody.IgnoresBinding deserializeBody := by
  intro s b
  simp only [deserializeBody, State.withBinding_inCap, State.withBinding_inLen, State.withBinding_inMem,
    apply_ite (Except.map _)]
  refine ite_congr rfl (fun _ => rfl) fun _ => ite_congr rfl (fun _ => rfl) fun _ => ?_
  cases readHeader s.inMem with
  | error r => rfl
  | ok x =>
    simp only [apply_ite (Except.map _)]
    refine ite_congr rfl (fun _ => rfl) fun _ => ?_
    cases readRecords s.inMem headerBytes x.1 with
    | error r => rfl
    | ok records =>
      simp only [apply_ite (Except.map _)]
      exact ite_congr rfl (fun _ => rfl) fun _ => rfl

theorem unpackBody_ignoresBinding : StageBody.IgnoresBinding unpackBody := by
  intro s b
  simp only [unpackBody, State.withBinding_status, State.withBinding_ogSize, State.withBinding_outCap,
    State.withBinding_decodePayload, apply_ite (Except.map _)]
  refine ite_congr rfl (fun _ => rfl) fun _ => ite_congr rfl (fun _ => rfl) fun _ => ?_
  cases s.decodePayload <;> rfl

theorem clearBody_ignoresBinding : StageBody.IgnoresBinding clearBody := fun _ _ => rfl

theorem runStages_withBinding {bodies : List StageBody} (h : ∀ body ∈ bodies, body.IgnoresBinding) (s : State)
    (b : BusBinding) : runStages bodies (s.withBinding b) = mapNext (State.withBinding · b) (runStages bodies s) := by
  induction bodies generalizing s with
  | nil => rfl
  | cons body rest ih =>
    have hb := h body List.mem_cons_self s b
    cases hs : body s with
    | ok u =>
      rw [hs] at hb
      rw [runStages_ok hb, runStages_ok hs]
      exact ih (fun x hx => h x (List.mem_cons_of_mem _ hx)) u
    | error e =>
      rw [hs] at hb
      cases e with
      | raised e stage =>
        rw [runStages_raised hb, runStages_raised hs]
        rfl
      | faulted r =>
        rw [runStages_faulted hb, runStages_faulted hs]
        rfl

/-- No command depends on BUS_BINDING. -/
theorem exec_withBinding (i : Instr) (s : State) (b : BusBinding) :
    exec i (s.withBinding b) = mapNext (State.withBinding · b) (exec i s) := by
  rw [exec_eq_runStages, exec_eq_runStages]
  refine runStages_withBinding (fun body hb => ?_) s b
  cases i <;> simp only [stagesOf, List.mem_cons, List.not_mem_nil, or_false] at hb
  case encode =>
    rcases hb with rfl | rfl | rfl | rfl
    exacts [freqBody_ignoresBinding, buildTreeBody_ignoresBinding, genCodesBody_ignoresBinding, packBody_ignoresBinding]
  case decode =>
    rcases hb with rfl | rfl | rfl
    exacts [deserializeBody_ignoresBinding, buildTreeBody_ignoresBinding, unpackBody_ignoresBinding]
  all_goals subst hb
  exacts [freqBody_ignoresBinding, buildTreeBody_ignoresBinding, genCodesBody_ignoresBinding, packBody_ignoresBinding,
    deserializeBody_ignoresBinding, unpackBody_ignoresBinding, clearBody_ignoresBinding]

theorem coreMove_withBinding (s : State) (b : BusBinding) :
    coreMove (s.withBinding b) = mapNext (State.withBinding · b) (coreMove s) := by
  have hp : (s.withBinding b).pending = s.pending := rfl
  unfold coreMove
  rw [hp]
  cases s.pending with
  | none => rfl
  | some v =>
    cases hd : decode v with
    | ok i => simpa only [hd] using exec_withBinding i s b
    | error e =>
      simp only [hd]
      rfl

/-- No host operation depends on BUS_BINDING. -/
theorem hostStep_withBinding (op : HostOp) (s : State) (b : BusBinding) :
    hostStep op (s.withBinding b) = mapNext (State.withBinding · b) (hostStep op s) := by
  cases op
  case regRead n =>
    simp only [hostStep, hostRegRead, State.withBinding_status, State.withBinding_regValue]
    cases regOfNumber n with
    | none => rfl
    | some r =>
      simp only [apply_ite (mapNext _)]
      exact ite_congr rfl (fun _ => rfl) fun _ => rfl
  case regWrite n v =>
    simp only [hostStep, hostRegWrite]
    cases regOfNumber n with
    | none => rfl
    | some r =>
      cases r <;> try rfl
      · simp only [State.writeCtrl, apply_ite Host.Outcome.next, apply_ite (mapNext _)]
        exact ite_congr rfl (fun _ => rfl) fun _ => rfl
      · simp only [hostWriteInLen, apply_ite (mapNext _)]
        exact ite_congr rfl (fun _ => rfl) fun _ => rfl
  case inWrite a v =>
    simp only [hostStep, hostInWrite, apply_ite (mapNext _)]
    exact ite_congr rfl (fun _ => rfl) fun _ => ite_congr rfl (fun _ => rfl) fun _ => rfl
  case inRead a =>
    simp only [hostStep, hostInRead, State.withBinding_inMem, apply_ite (mapNext _)]
    refine ite_congr rfl (fun _ => rfl) fun _ => ?_
    cases s.inMem.read a <;> rfl
  case outRead a =>
    simp only [hostStep, hostOutRead, State.withBinding_outMem, apply_ite (mapNext _)]
    refine ite_congr rfl (fun _ => rfl) fun _ => ite_congr rfl (fun _ => rfl) fun _ => ?_
    cases s.outMem.read a <;> rfl
  case outWrite => rfl
  case reset => rfl
  case wait =>
    simp only [hostStep, hostWait, apply_ite (mapNext _)]
    exact ite_congr rfl (fun _ => rfl) fun _ => rfl
  case waitIrq =>
    simp only [hostStep, hostWaitIrq, apply_ite (mapNext _)]
    exact ite_congr rfl (fun _ => rfl) fun _ => rfl

theorem hostMove_withBinding (s : State) (b : BusBinding) :
    hostMove (s.withBinding b) = mapNext (State.withBinding · b) (hostMove s) := by
  have hp : (s.withBinding b).hostProg = s.hostProg := rfl
  unfold hostMove
  rw [hp]
  cases s.hostProg with
  | nil => rfl
  | cons op rest => exact hostStep_withBinding op { s with hostProg := rest } b

/-- A bus binding changes no result of a step. -/
theorem step_withBinding (s : State) (b : BusBinding) :
    step (s.withBinding b) = mapNext (State.withBinding · b) (step s) := by
  have hm : agentMove (s.withBinding b).mover (s.withBinding b).turnTaken =
      mapNext (State.withBinding · b) (agentMove s.mover s.turnTaken) := by
    show agentMove s.mover (s.turnTaken.withBinding b) = _
    cases s.mover
    · exact hostMove_withBinding s.turnTaken b
    · exact coreMove_withBinding s.turnTaken b
  have hf : (s.withBinding b).faults = s.faults := rfl
  unfold step
  rw [hm, hf]
  cases s.faults with
  | cons r rest => rfl
  | nil => cases agentMove s.mover s.turnTaken <;> rfl

end Sys2Proof.Machine
end

