-- ==== Sys2Proof/Laws/Memory.lean ====
section
/-! SUPPORT. The laws of memory: a read after a write, the canonical form, the capacity, ranges of bytes, and what the
core's read answers. -/

namespace Sys2Proof.Machine

/-! ### One byte -/

@[simp] theorem Memory.read_nil (a : Nat) : Memory.read [] a = none := rfl

theorem Memory.read_cons (k : Nat) (b : Byte) (m : Memory) (a : Nat) :
    Memory.read ((k, b) :: m) a = if k = a then some b else Memory.read m a := rfl

theorem Memory.read_write (m : Memory) (a : Nat) (v : Byte) (x : Nat) :
    (m.write a v).read x = if x = a then some v else m.read x := by
  induction m with
  | nil => simp only [Memory.write, Memory.read_cons, Memory.read_nil, eq_comm]
  | cons c m ih =>
    obtain ⟨k, b⟩ := c
    simp only [Memory.write]
    split
    · simp only [Memory.read_cons, eq_comm (a := a)]
    · split
      · subst_vars
        simp only [Memory.read_cons]
        split <;> split <;> first | rfl | omega
      · simp only [Memory.read_cons, ih]
        split <;> split <;> first | rfl | omega

@[simp] theorem Memory.read_write_same (m : Memory) (a : Nat) (v : Byte) : (m.write a v).read a = some v := by
  rw [Memory.read_write, if_pos rfl]

theorem Memory.read_write_other (m : Memory) {a x : Nat} (v : Byte) (h : x ≠ a) : (m.write a v).read x = m.read x := by
  rw [Memory.read_write, if_neg h]

/-! ### The canonical form -/

/-- The canonical form is: addresses strictly rising. -/
theorem Memory.wf_iff_sorted (m : Memory) : m.wf = true ↔ m.Pairwise fun c d => c.1 < d.1 := by
  induction m with
  | nil => simp [Memory.wf]
  | cons c m ih =>
    cases m with
    | nil => simp [Memory.wf]
    | cons d m =>
      simp only [Memory.wf, Bool.and_eq_true, decide_eq_true_eq, ih, List.pairwise_cons]
      constructor
      · rintro ⟨hcd, hd, hm⟩
        refine ⟨fun x hx => ?_, hd, hm⟩
        rcases List.mem_cons.1 hx with rfl | hx
        · exact hcd
        · exact hcd.trans (hd x hx)
      · rintro ⟨hc, hd, hm⟩
        exact ⟨hc d List.mem_cons_self, hd, hm⟩

theorem Memory.mem_write {m : Memory} {a : Nat} {v : Byte} {c : Host.Cell} (h : c ∈ m.write a v) :
    c = (a, v) ∨ c ∈ m := by
  induction m with
  | nil => simpa [Memory.write] using h
  | cons d m ih =>
    obtain ⟨k, b⟩ := d
    simp only [Memory.write] at h
    split at h
    · simpa using h
    · split at h
      · rcases List.mem_cons.1 h with h | h
        · exact .inl h
        · exact .inr (List.mem_cons_of_mem _ h)
      · rcases List.mem_cons.1 h with h | h
        · exact .inr (h ▸ List.mem_cons_self)
        · exact (ih h).imp_right (List.mem_cons_of_mem _)

/-- A write keeps the canonical form. -/
theorem Memory.write_wf {m : Memory} (h : m.wf = true) (a : Nat) (v : Byte) : (m.write a v).wf = true := by
  rw [Memory.wf_iff_sorted] at h ⊢
  induction m with
  | nil => simp [Memory.write]
  | cons d m ih =>
    obtain ⟨k, b⟩ := d
    rw [List.pairwise_cons] at h
    simp only [Memory.write]
    split
    · rename_i hak
      refine List.pairwise_cons.2 ⟨fun x hx => ?_, List.pairwise_cons.2 h⟩
      rcases List.mem_cons.1 hx with rfl | hx
      · exact hak
      · exact hak.trans (h.1 x hx)
    · split
      · subst_vars
        exact List.pairwise_cons.2 h
      · refine List.pairwise_cons.2 ⟨fun x hx => ?_, ih h.2⟩
        rcases Memory.mem_write hx with rfl | hx
        · simp only; omega
        · exact h.1 x hx

/-- A write below the capacity keeps every address below it. -/
theorem Memory.write_below {m : Memory} {cap a : Nat} (h : m.below cap = true) (ha : a < cap) (v : Byte) :
    (m.write a v).below cap = true := by
  simp only [Memory.below, List.all_eq_true, decide_eq_true_eq] at h ⊢
  intro c hc
  rcases Memory.mem_write hc with rfl | hc
  · exact ha
  · exact h c hc

/-! ### Ranges of bytes -/

@[simp] theorem Memory.writeBytes_nil (m : Memory) (a : Nat) : m.writeBytes a [] = m := rfl

theorem Memory.writeBytes_cons (m : Memory) (a : Nat) (b : Byte) (bs : List Byte) :
    m.writeBytes a (b :: bs) = (m.write a b).writeBytes (a + 1) bs := rfl

theorem Memory.writeBytes_append (m : Memory) (a : Nat) (bs cs : List Byte) :
    m.writeBytes a (bs ++ cs) = (m.writeBytes a bs).writeBytes (a + bs.length) cs := by
  induction bs generalizing m a with
  | nil => rfl
  | cons b bs ih =>
    simp only [List.cons_append, Memory.writeBytes_cons, ih, List.length_cons]
    congr 1
    omega

/-- What a byte reads as after a range was written: inside the range its new byte, outside it what it was. -/
theorem Memory.read_writeBytes (m : Memory) (a : Nat) (bs : List Byte) (x : Nat) :
    (m.writeBytes a bs).read x = if a ≤ x ∧ x < a + bs.length then bs[x - a]? else m.read x := by
  induction bs generalizing m a with
  | nil =>
    rw [if_neg (by simp)]
    rfl
  | cons b bs ih =>
    rw [Memory.writeBytes_cons, ih, Memory.read_write, List.length_cons]
    rcases Nat.lt_trichotomy x a with h | h | h
    · rw [if_neg (by omega), if_neg (by omega), if_neg (by omega)]
    · subst h
      rw [if_neg (by omega), if_pos rfl, if_pos (by omega)]
      simp
    · by_cases hx : x < a + 1 + bs.length
      · rw [if_pos (by omega), if_pos (by omega), show x - a = (x - (a + 1)) + 1 by omega, List.getElem?_cons_succ]
      · rw [if_neg (by omega), if_neg (by omega), if_neg (by omega)]

theorem Memory.writeBytes_wf {m : Memory} (h : m.wf = true) (a : Nat) (bs : List Byte) :
    (m.writeBytes a bs).wf = true := by
  induction bs generalizing m a with
  | nil => exact h
  | cons b bs ih => exact ih (Memory.write_wf h a b) (a + 1)

theorem Memory.writeBytes_below {m : Memory} {cap a : Nat} {bs : List Byte} (h : m.below cap = true)
    (ha : a + bs.length ≤ cap) : (m.writeBytes a bs).below cap = true := by
  induction bs generalizing m a with
  | nil => exact h
  | cons b bs ih =>
    rw [List.length_cons] at ha
    exact ih (Memory.write_below h (by omega) b) (by omega)

/-! ### The core's read (20_memory.md R64) -/

/-- The core's read answers bytes exactly when every one of them was written, and answers those. -/
theorem Memory.coreRead_ok {m : Memory} {a n : Nat} {bytes : List Byte} :
    m.coreRead a n = .ok bytes ↔ bytes.length = n ∧ ∀ j, j < n → m.read (a + j) = bytes[j]? := by
  induction n generalizing a bytes with
  | zero =>
    cases bytes <;> simp [Memory.coreRead]
  | succ n ih =>
    simp only [Memory.coreRead]
    constructor
    · intro h
      split at h
      · simp at h
      · rename_i b hb
        split at h
        · rename_i bs hbs
          obtain ⟨hl, hr⟩ := ih.1 hbs
          simp only [Except.ok.injEq] at h
          subst h
          refine ⟨by simp [hl], fun j hj => ?_⟩
          cases j with
          | zero => simpa using hb
          | succ j => rw [show a + (j + 1) = a + 1 + j by omega, hr j (by omega), List.getElem?_cons_succ]
        · simp at h
    · rintro ⟨hl, hr⟩
      cases bytes with
      | nil => simp at hl
      | cons b bs =>
        have hb : m.read a = some b := by simpa using hr 0 (by omega)
        have hbs : m.coreRead (a + 1) n = .ok bs := by
          refine ih.2 ⟨by simpa using hl, fun j hj => ?_⟩
          rw [show a + 1 + j = a + (j + 1) by omega, hr (j + 1) (by omega), List.getElem?_cons_succ]
        rw [hb]
        simp [hbs]

theorem Memory.coreRead_length {m : Memory} {a n : Nat} {bytes : List Byte} (h : m.coreRead a n = .ok bytes) :
    bytes.length = n := (Memory.coreRead_ok.1 h).1

/-- The core's read faults exactly at the first unwritten byte (log 8). -/
theorem Memory.coreRead_error {m : Memory} {a n : Nat} {r : Fault} :
    m.coreRead a n = .error r ↔
      ∃ k, k < n ∧ r = .uninitRead (a + k) ∧ m.read (a + k) = none ∧ ∀ j, j < k → (m.read (a + j)).isSome = true := by
  induction n generalizing a with
  | zero => simp [Memory.coreRead]
  | succ n ih =>
    simp only [Memory.coreRead]
    cases hb : m.read a with
    | none =>
      constructor
      · intro h
        refine ⟨0, by omega, ?_, by simpa using hb, fun j hj => absurd hj (by omega)⟩
        simpa using h.symm
      · rintro ⟨k, hk, rfl, hn, hall⟩
        cases k with
        | zero => rfl
        | succ k => simpa [hb] using hall 0 (by omega)
    | some b =>
      have step : (m.coreRead (a + 1) n = .error r) ↔
          ∃ k, k < n + 1 ∧ r = .uninitRead (a + k) ∧ m.read (a + k) = none ∧
            ∀ j, j < k → (m.read (a + j)).isSome = true := by
        rw [ih]
        constructor
        · rintro ⟨k, hk, rfl, hn, hall⟩
          refine ⟨k + 1, by omega, by rw [show a + (k + 1) = a + 1 + k by omega],
            by rw [show a + (k + 1) = a + 1 + k by omega]; exact hn, fun j hj => ?_⟩
          cases j with
          | zero => simp [hb]
          | succ j => rw [show a + (j + 1) = a + 1 + j by omega]; exact hall j (by omega)
        · rintro ⟨k, hk, rfl, hn, hall⟩
          cases k with
          | zero => simp [hb] at hn
          | succ k =>
            refine ⟨k, by omega, by rw [show a + (k + 1) = a + 1 + k by omega],
              by rw [show a + 1 + k = a + (k + 1) by omega]; exact hn, fun j hj => ?_⟩
            rw [show a + 1 + j = a + (j + 1) by omega]
            exact hall (j + 1) (by omega)
      rw [← step]
      cases m.coreRead (a + 1) n <;> simp

/-! ### Every operation on a memory keeps its canonical form -/

/-- Writing a container keeps the canonical form. -/
theorem serialize_wf {m : Memory} (h : m.wf = true) (n : Nat) (og : Word) (freq : SymbolTable Word) (payload : List Byte) :
    (serialize m n og freq payload).wf = true :=
  Memory.writeBytes_wf (Memory.writeBytes_wf h _ _) _ _

/-- The memories after reset are in canonical form. -/
theorem reset_memories_wf : State.reset.inMem.wf = true ∧ State.reset.outMem.wf = true := ⟨rfl, rfl⟩

end Sys2Proof.Machine
end

