-- ==== Sys2Proof/Laws/PerInstr.lean ====
section
/-! SUPPORT. What holds of every command as syntax: its word has RSV = 0 and its opcode in OP (30_encoding.md R80, R81). -/

namespace Sys2Proof.Laws.ReservedBitsZero

/-- The word of a command has RSV = 0, its OP is the command's opcode, and it is a legal word. -/
def Statement (i : Instr) : Prop :=
  wordRsv (encode i) = 0#60 ∧ wordOp (encode i) = i.opcode ∧ wordLegal (encode i) = true

theorem nop : Statement .nop := by unfold Statement; decide
theorem encode : Statement .encode := by unfold Statement; decide
theorem decode : Statement .decode := by unfold Statement; decide
theorem freq : Statement .freq := by unfold Statement; decide
theorem buildTree : Statement .buildTree := by unfold Statement; decide
theorem genCodes : Statement .genCodes := by unfold Statement; decide
theorem pack : Statement .pack := by unfold Statement; decide
theorem deserialize : Statement .deserialize := by unfold Statement; decide
theorem unpack : Statement .unpack := by unfold Statement; decide
theorem clear : Statement .clear := by unfold Statement; decide

end Sys2Proof.Laws.ReservedBitsZero
end

