-- ==== Sys2Proof/Laws/Tables.lean ====
section
/-! SUPPORT. The laws of the 256-entry tables and of the node arena: what an entry reads as. -/

namespace Sys2Proof.Machine

@[simp] theorem tabulate_getElem {α : Type} (n : Nat) (f : Nat → α) (i : Nat) (h : i < n) : (tabulate n f)[i] = f i := by
  simp [tabulate]

theorem tabulate_toList {α : Type} (n : Nat) (f : Nat → α) : (tabulate n f).toList = (List.range n).map f := by
  simp [tabulate]

@[simp] theorem atSymbol_tabulate {α : Type} (f : Nat → α) (s : Byte) : atSymbol (tabulate 256 f) s = f s.toNat := by
  simp [atSymbol]

@[simp] theorem atSymbol_replicate {α : Type} (v : α) (s : Byte) : atSymbol (Vector.replicate 256 v) s = v := by
  simp [atSymbol]

@[simp] theorem atSymbol_setSymbol_same {α : Type} (t : SymbolTable α) (s : Byte) (v : α) :
    atSymbol (setSymbol t s v) s = v := by
  simp [atSymbol, setSymbol]

theorem atSymbol_setSymbol_other {α : Type} (t : SymbolTable α) {s c : Byte} (v : α) (h : c ≠ s) :
    atSymbol (setSymbol t s v) c = atSymbol t c := by
  have : s.toNat ≠ c.toNat := fun e => h (BitVec.eq_of_toNat_eq e.symm)
  simp [atSymbol, setSymbol, this]

/-- Two tables that agree at every symbol are equal. -/
theorem symbolTable_ext {α : Type} {t u : SymbolTable α} (h : ∀ s, atSymbol t s = atSymbol u s) : t = u := by
  refine Vector.ext fun i hi => ?_
  have e : (BitVec.ofNat 8 i).toNat = i := Nat.mod_eq_of_lt hi
  simpa [atSymbol, e] using h (BitVec.ofNat 8 i)

/-- FREQ[s] is the count of s among the bytes (41_freq_model.md R110). -/
@[simp] theorem atSymbol_freqTable (bytes : List Byte) (s : Byte) :
    atSymbol (freqTable bytes) s = BitVec.ofNat 64 (bytes.count s) := by
  simp [freqTable]

@[simp] theorem nodeAt_replicate (i : Nat) : nodeAt (Vector.replicate 512 Node.blank) i = Node.blank := by
  unfold nodeAt
  rw [Vector.toList_replicate, List.getD_eq_getElem?_getD, List.getElem?_replicate]
  split <;> rfl

/-- A node of an arena is the node created with that index, and unused where none was (42_tree_builder.md R120). -/
theorem nodeAt_arenaOf (nodes : List Node) (i : Nat) :
    nodeAt (arenaOf nodes) i = if i < 512 then nodes.getD i Node.blank else Node.blank := by
  unfold nodeAt arenaOf
  rw [tabulate_toList, List.getD_eq_getElem?_getD, List.getElem?_map]
  split
  · rename_i h
    simp [List.getElem?_range h]
  · rename_i h
    rw [List.getElem?_eq_none (by simpa using h)]
    rfl

@[simp] theorem CodeTable.assign_len_same (t : CodeTable) (s : Byte) (p l : Nat) :
    atSymbol (t.assign s p l).len s = BitVec.ofNat 8 l := atSymbol_setSymbol_same _ _ _

@[simp] theorem CodeTable.assign_bits_same (t : CodeTable) (s : Byte) (p l : Nat) :
    atSymbol (t.assign s p l).bits s = BitVec.ofNat 256 p := atSymbol_setSymbol_same _ _ _

theorem CodeTable.assign_len_other (t : CodeTable) {s c : Byte} (p l : Nat) (h : c ≠ s) :
    atSymbol (t.assign s p l).len c = atSymbol t.len c := atSymbol_setSymbol_other _ _ h

theorem CodeTable.assign_bits_other (t : CodeTable) {s c : Byte} (p l : Nat) (h : c ≠ s) :
    atSymbol (t.assign s p l).bits c = atSymbol t.bits c := atSymbol_setSymbol_other _ _ h

@[simp] theorem CodeTable.none_len (s : Byte) : atSymbol CodeTable.none.len s = 0#8 := atSymbol_replicate _ _

@[simp] theorem CodeTable.none_bits (s : Byte) : atSymbol CodeTable.none.bits s = 0#256 := atSymbol_replicate _ _

/-- Record j starts at byte 16 + 9j (46_container.md R190). -/
theorem recordOffset_eq (j : Nat) : recordOffset j = 16 + 9 * j := rfl

@[simp] theorem le64_length (v : Word) : (le64 v).length = 8 := by simp [le64]

@[simp] theorem recordBytesOf_length (r : Byte × Word) : (recordBytesOf r).length = 9 := by simp [recordBytesOf]

@[simp] theorem packBits_length (bits : List Bool) : (packBits bits).length = payloadBytes bits.length := by
  simp [packBits]

@[simp] theorem codeBitList_length (len : BitVec 8) (bits : BitVec 256) : (codeBitList len bits).length = len.toNat := by
  simp [codeBitList]

/-- The records take 9 bytes each, after the 16 bytes of the header (46_container.md R190). -/
theorem headerAndRecords_length (n : Nat) (og : Word) (freq : SymbolTable Word) :
    (headerAndRecords n og freq).length = recordOffset (recordsOf freq).length := by
  simp only [headerAndRecords, List.length_append, le64_length, List.length_flatMap, recordBytesOf_length, recordOffset_eq,
    List.map_const', List.sum_replicate, smul_eq_mul]
  omega

/-- One record per symbol with FREQ[s] >= 1 (46_container.md R192). -/
theorem recordsOf_length (freq : SymbolTable Word) : (recordsOf freq).length = distinctCount freq := by
  have key : ∀ (l : List Word) (k : Nat),
      ((l.zipIdx k).filterMap fun p => if p.1 = 0#64 then none else some (BitVec.ofNat 8 p.2, p.1)).length =
        l.countP fun w => w != 0#64 := by
    intro l
    induction l with
    | nil => intro k; rfl
    | cons w l ih =>
      intro k
      rw [List.zipIdx_cons, List.filterMap_cons, List.countP_cons]
      by_cases hw : w = 0#64
      · simp [hw, ih]
      · simp [hw, ih]
  exact key _ _

/-- A table as the list of its entries in symbol order. -/
theorem symbolTable_toList {α : Type} (t : SymbolTable α) :
    t.toList = (List.range 256).map fun s => atSymbol t (BitVec.ofNat 8 s) := by
  refine List.ext_getElem (by simp) fun i h₁ h₂ => ?_
  have hi : i < 256 := by simpa using h₁
  simp [atSymbol, Nat.mod_eq_of_lt hi]

/-- TB as a sum over the symbols (44_bitpacker.md R152). -/
theorem meaningfulBits_eq (freq : SymbolTable Word) (len : SymbolTable (BitVec 8)) :
    meaningfulBits freq len = ((List.range 256).map fun s =>
      (atSymbol freq (BitVec.ofNat 8 s)).toNat * (atSymbol len (BitVec.ofNat 8 s)).toNat).sum := by
  unfold meaningfulBits
  rw [symbolTable_toList freq, symbolTable_toList len, List.zip_map', List.map_map]
  rfl

end Sys2Proof.Machine
end

