-- ==== Sys2Proof/Tests/Slice0.lean ====
section
/-! SUPPORT. Small tests, each of one step, with results taken from the vectors of 95_test_vectors.md; and for every
statement with hypotheses a witness that meets them all. -/

namespace Sys2Proof.Tests

set_option Elab.async false

open Sys2Proof Sys2Proof.Machine

/-- A configuration with these capacities, on some bus. -/
def caps (inCap outCap : Word) : Config := ⟨inCap, outCap, Config.busBinding⟩

/-! ### Ill-formed terms are refused (30_encoding.md R84, 00_scope.md R6) -/

theorem test_wf_commands : ∀ i ∈ [Instr.nop, .encode, .decode, .freq, .buildTree, .genCodes, .pack, .deserialize, .unpack,
    .clear], i.wf = true := by decide
theorem test_wf_reserved_opcode : wordLegal 0x9#64 = false ∧ wordLegal 0xE#64 = false := by decide
theorem test_wf_reserved_bits : wordLegal 0x11#64 = false ∧ wordLegal 0x8000000000000001#64 = false := by decide
theorem test_wf_legal_words : wordLegal 0x8#64 = true ∧ wordLegal 0xF#64 = true := by decide
theorem test_wf_config_zero : Config.wf (caps 0#64 1#64) = false ∧ Config.wf (caps 1#64 0#64) = false := by decide
theorem test_wf_config_large : Config.wf (caps 0x100000000000001#64 1#64) = false ∧
    Config.wf (caps 1#64 0x100000000000001#64) = false ∧ Config.wf (caps 0x100000000000000#64 1#64) = true := by decide
theorem test_wf_memory : Memory.wf [(1, 0#8), (1, 0#8)] = false ∧ Memory.wf [(1, 0#8), (2, 0#8)] = true := by decide

/-! ### Decoding: each word written out from the table (30_encoding.md R81, R82) -/

theorem test_decode_nop : decode 0x0000000000000000#64 = .ok .nop := by rfl
theorem test_decode_encode : decode 0x0000000000000001#64 = .ok .encode := by rfl
theorem test_decode_decode : decode 0x0000000000000002#64 = .ok .decode := by rfl
theorem test_decode_freq : decode 0x0000000000000003#64 = .ok .freq := by rfl
theorem test_decode_buildTree : decode 0x0000000000000004#64 = .ok .buildTree := by rfl
theorem test_decode_genCodes : decode 0x0000000000000005#64 = .ok .genCodes := by rfl
theorem test_decode_pack : decode 0x0000000000000006#64 = .ok .pack := by rfl
theorem test_decode_deserialize : decode 0x0000000000000007#64 = .ok .deserialize := by rfl
theorem test_decode_unpack : decode 0x0000000000000008#64 = .ok .unpack := by rfl
theorem test_decode_clear : decode 0x000000000000000F#64 = .ok .clear := by rfl
theorem test_decode_reserved : decode 0x9#64 = .error .reservedOpcode ∧ decode 0x11#64 = .error .reservedBits :=
  ⟨rfl, rfl⟩
theorem test_decodeTableWord : decodeTableWord 64 15 = some .clear ∧ decodeTableWord 64 9 = none ∧
    decodeTableWord 8 3 = some .freq ∧ decodeTableWord 72 3 = none := by decide

/-- No two rows of the opcode table select one word: the masks are whole and the patterns differ. -/
theorem opcode_rows_disjoint : opcodeTable.Pairwise fun r r' => r.pattern ≠ r'.pattern ∧ r.mask = r'.mask := by decide

/-! ### States to test on -/

/-- The capacities of the vectors: IN_CAP = OUT_CAP = 4096. -/
def config : Config := caps 4096#64 4096#64

/-- A block after reset. -/
def block : State := { State.reset with cfg := config }

/-- A block after reset into which the host loaded the bytes. -/
def loaded (bytes : List Byte) : State :=
  { block with inLen := BitVec.ofNat 64 bytes.length, inMem := Memory.writeBytes [] 0 bytes }

/-- The state a step answers, or s where it answers none. -/
def nextOr (s : State) (o : Host.Outcome State Fault Refusal) : State :=
  match o with
  | .next t => t
  | .fault _ | .refused _ => s

/-- The state after the command with word w. -/
def run (w : Nat) (s : State) : State := nextOr s (step (s.withFetchWord 64 w))

/-- The state after the host's operation. -/
def host (op : HostOp) (s : State) : State := nextOr s (step { s with hostProg := [op], sched := [.host] })

/-- An outcome is a next state with a property. -/
def ends (o : Host.Outcome State Fault Refusal) (p : State → Bool) : Bool :=
  match o with
  | .next t => p t
  | .fault _ | .refused _ => false

/-- An outcome is a fault. -/
def stops (o : Host.Outcome State Fault Refusal) (r : Fault) : Bool :=
  match o with
  | .fault r' => r == r'
  | .next _ | .refused _ => false

theorem exists_next {o : Host.Outcome State Fault Refusal} {p : State → Bool} (h : ends o p = true) :
    ∃ t, o = .next t ∧ p t = true := by
  cases o <;> simp_all [ends]

theorem is_fault {o : Host.Outcome State Fault Refusal} {r : Fault} (h : stops o r = true) : o = .fault r := by
  cases o <;> simp_all [stops]

/-- "aaaabbbcc" (V-L1-1). -/
def letters9 : List Byte := [0x61, 0x61, 0x61, 0x61, 0x62, 0x62, 0x62, 0x63, 0x63]

/-- "aabbc" (V-BT-2). -/
def letters5 : List Byte := [0x61, 0x61, 0x62, 0x62, 0x63]

/-- The 45 bytes of V-L1-1. -/
def container9 : List Byte :=
  [3, 0, 0, 0, 0, 0, 0, 0] ++ [9, 0, 0, 0, 0, 0, 0, 0] ++ [0x61, 4, 0, 0, 0, 0, 0, 0, 0] ++
  [0x62, 3, 0, 0, 0, 0, 0, 0, 0] ++ [0x63, 2, 0, 0, 0, 0, 0, 0, 0] ++ [0x0F, 0xE8]

/-- The container of "zzzzzzzzz" (V-L1-3), 27 bytes. -/
def containerZ : List Byte :=
  [1, 0, 0, 0, 0, 0, 0, 0] ++ [9, 0, 0, 0, 0, 0, 0, 0] ++ [0x7A, 9, 0, 0, 0, 0, 0, 0, 0] ++ [0, 0]

/-- FREQ, BUILD_TREE, GEN_CODES of "aabbc". -/
def coded : State := run 5 (run 4 (run 3 (loaded letters5)))

/-- DESERIALIZE, BUILD_TREE of the container of V-L1-1. -/
def treed : State := run 4 (run 7 (loaded container9))

/-- DESERIALIZE, BUILD_TREE of the container of V-L1-3. -/
def treedZ : State := run 4 (run 7 (loaded containerZ))

/-! ### Vectors of the spec, one step each -/

/-- V-FQ-1. -/
theorem test_freq : let t := run 3 (loaded letters9)
    t.status.toWord = 0x00013002#64 ∧ atSymbol t.freq 0x61 = 4#64 ∧ atSymbol t.freq 0x62 = 3#64 ∧
      atSymbol t.freq 0x64 = 0#64 ∧ t.distinct = 3#9 ∧ t.ogSize = 9#64 ∧ t.progress = 9#64 := by decide +kernel

/-- V-FQ-5, V-FQ-6. -/
theorem test_freq_stops :
    (run 3 { loaded letters9 with cfg := caps 8#64 4096#64 }).status.toWord = 0x00003362#64 ∧
    (run 3 { loaded [0x61] with inLen := 2#64 }).faults = [.uninitRead 1] := by decide +kernel

/-- V-BT-2: leaf order, and a tie of two leaves. -/
theorem test_buildTree : let t := run 4 (run 3 (loaded letters5))
    nodeAt t.nodes 2 = ⟨.leaf, 0x63, 0, 0, 1#64⟩ ∧ nodeAt t.nodes 3 = ⟨.internal, 0, 2, 0, 3#64⟩ ∧
      nodeAt t.nodes 4 = ⟨.internal, 0, 1, 3, 5#64⟩ ∧ nodeAt t.nodes 5 = Node.blank ∧ t.root = 4#9 ∧
      t.nodeCount = 5#10 ∧ t.status.toWord = 0x00034002#64 := by decide +kernel

/-- V-BT-3: a tie of a leaf and an internal node; V-BT-10. -/
theorem test_buildTree_ties :
    nodeAt (run 4 (run 3 (loaded [0x61, 0x61, 0x62, 0x63]))).nodes 4 = ⟨.internal, 0, 0, 3, 4#64⟩ ∧
    (run 4 block).status.toWord = 0x00004452#64 := by decide +kernel

/-- V-GC-2. -/
theorem test_genCodes :
    coded.codeOf 0x61 = [true, true] ∧ coded.codeOf 0x62 = [false] ∧ coded.codeOf 0x63 = [true, false] ∧
      atSymbol coded.codeBits 0x61 = 3#256 ∧ coded.codeOf 0x64 = [] ∧ coded.status.toWord = 0x00075002#64 := by
  decide +kernel

/-- V-GC-8, V-GC-10. -/
theorem test_genCodes_single :
    (run 5 treedZ).codeOf 0x7A = [false] ∧ (run 5 block).status.toWord = 0x00005552#64 := by decide +kernel

/-- V-PK-2. -/
theorem test_pack : let t := run 6 coded
    t.outLen = 44#64 ∧ t.payloadOff = 43#64 ∧ t.payloadBits = 8#64 ∧ t.outMem.read 0 = some 3 ∧ t.outMem.read 8 = some 5 ∧
      t.outMem.read 16 = some 0x61 ∧ t.outMem.read 17 = some 2 ∧ t.outMem.read 43 = some 0xF2 ∧
      t.outMem.read 44 = none := by decide +kernel

/-- V-PK-12, V-PK-11. -/
theorem test_pack_sequence :
    (run 6 (host (.inWrite 4 0x63) coded)).status.toWord = 0x00006652#64 ∧
    (run 6 (run 5 treed)).status.toWord = 0x000F6652#64 := by decide +kernel

/-- V-DS-1. -/
theorem test_deserialize : let t := run 7 (loaded container9)
    t.status.toWord = 0x00097002#64 ∧ t.distinct = 3#9 ∧ t.ogSize = 9#64 ∧ t.payloadOff = 43#64 ∧
      atSymbol t.freq 0x61 = 4#64 ∧ atSymbol t.freq 0x62 = 3#64 ∧ atSymbol t.freq 0x63 = 2#64 := by decide +kernel

/-- V-DS-4, and V-DS-9 as DESERIALIZE alone: a symbol twice. -/
theorem test_deserialize_errors :
    (run 7 (loaded (container9.take 42))).status.toWord = 0x00007722#64 ∧
    (run 7 (loaded (le64 2 ++ le64 4 ++ [0x61] ++ le64 2 ++ [0x61] ++ le64 2 ++ [0]))).status.toWord = 0x00007732#64 := by
  decide +kernel

/-- V-UP-1. -/
theorem test_unpack : let t := run 8 treed
    t.status.toWord = 0x000B8002#64 ∧ t.outLen = 9#64 ∧ t.payloadBits = 14#64 ∧ t.outMem.read 0 = some 0x61 ∧
      t.outMem.read 4 = some 0x62 ∧ t.outMem.read 8 = some 0x63 ∧ t.outMem.read 9 = none := by decide +kernel

/-- V-UP-8; V-UP-5, the bits of a single-leaf payload are not examined. -/
theorem test_unpack_single :
    (run 8 (run 4 (run 3 (loaded letters9)))).status.toWord = 0x00038852#64 ∧
    (run 8 (run 4 (run 7 (loaded (containerZ.take 25 ++ [0xFF, 0xFF]))))).outMem.read 8 = some 0x7A := by decide +kernel

/-- V-L1-1. -/
theorem test_encode : let t := run 1 (loaded letters9)
    t.status.toWord = 0x00071002#64 ∧ (List.range 46).map t.outMem.read = container9.map some ++ [none] ∧
      t.outLen = 45#64 ∧ t.payloadBits = 14#64 := by decide +kernel

/-- V-L1-2, V-PK-9. -/
theorem test_encode_errors :
    (run 1 block).status.toWord = 0x00071612#64 ∧
    (run 1 { loaded letters9 with cfg := caps 4096#64 44#64 }).status.toWord = 0x00071662#64 := by decide +kernel

/-- V-UP-3: padding bits are not checked. -/
theorem test_decode_command : let t := run 2 (loaded (container9.take 44 ++ [0xEB]))
    t.status.toWord = 0x000B2002#64 ∧ (List.range 9).map t.outMem.read = letters9.map some := by decide +kernel

/-- V-UP-4, V-UP-7. -/
theorem test_decode_errors :
    (run 2 (loaded (container9.take 44))).status.toWord = 0x000B2822#64 ∧
    (run 2 { loaded container9 with cfg := caps 4096#64 8#64 }).status.toWord = 0x000B2862#64 := by decide +kernel

/-- V-CT-1. -/
theorem test_nop : (run 0 (run 2 (loaded (container9.take 44)))).status.toWord = 0x000B0002#64 := by decide +kernel

/-- V-CT-4, after UNPACK. -/
theorem test_clear : let t := run 15 (run 8 treed)
    t.status.toWord = 0x0000F002#64 ∧ t.outLen = 0#64 ∧ atSymbol t.freq 0x61 = 0#64 ∧ t.outMem.read 0 = some 0x61 := by
  decide +kernel

/-- V-CT-2, V-CT-3. -/
theorem test_illegal :
    (run 0x9 block).status.toWord = 0x9942#64 ∧ (run 0x11 (loaded letters9)).status.toWord = 0x1142#64 := by
  decide +kernel

/-- V-CT-5, V-CT-10, V-CT-6. -/
theorem test_register_writes :
    (host (.regWrite 0x0000 0) (host (.regWrite 0x0000 1) block)).status.toWord = 0x00101001#64 ∧
    (host (.regWrite 0x0004 5) block).outLen = 0#64 ∧
    (host (.regWrite 0x0001 2) (run 0 block)).status.toWord = 0x0#64 := by decide +kernel

/-- V-CT-7, V-CT-8, V-CT-9, V-CT-11. -/
theorem test_host :
    (run 0 (host (.regWrite 0x0002 1) block)).irq = true ∧
    (host (.inWrite 0 0x61) (host (.regWrite 0x0000 0) block)).faults = [.hostHazard] ∧
    (host (.regRead 0x000E) block).faults = [.busError] ∧
    (host .reset (host (.regWrite 0x0000 1) block)).status.toWord = 0x0#64 := by decide +kernel

/-- V-CT-12, V-CT-13, V-CT-14. -/
theorem test_windows :
    (host (.regRead 0x2012) (run 4 (run 3 (loaded letters9)))).hostReads = [3#64] ∧
    (host (.regRead 0x2008) (run 4 (run 3 (loaded letters9)))).hostReads = [0x6301#64] ∧
    (host (.regRead 0x1184) coded).hostReads = [3#64] ∧ (host (.regRead 0x0261) coded).hostReads = [2#64] := by
  decide +kernel

/-! ### Witnesses: for each statement with hypotheses, states and operands that meet them all -/

theorem of_toOption {α : Type} {e : Except Fault α} {x : α} (h : e.toOption = some x) : e = .ok x := by
  cases e <;> simp_all [Except.toOption]

theorem written_none {m : Memory} {a : Nat} {n : Word} (h : n = 0#64) : m.WrittenFrom a n.toNat := by
  subst h
  exact fun j hj => absurd hj (Nat.not_lt_zero j)

/-- The command with word w, run on a state with no recorded fault. -/
theorem run_command {s u : State} {w : Nat} {i : Instr} (hf : s.faults = [])
    (hd : decode (BitVec.ofNat 64 (w % 2 ^ 64)) = .ok i)
    (hu : exec i (s.accept (BitVec.ofNat 64 (w % 2 ^ 64))) = .next u) : run w s = u := by
  unfold run
  rw [step_withFetchWord hf hd, hu]
  rfl

theorem run_freq {s : State} {bytes : List Byte} (hf : s.faults = []) (hl : s.inLen.toNat ≤ s.cfg.inCap.toNat)
    (hb : s.inMem.coreRead 0 s.inLen.toNat = .ok bytes) : (run 3 s).freq = freqTable bytes := by
  rw [run_command (i := .freq) hf rfl (by
    rw [exec_eq_runStages]
    exact runStages_single_next.2 (.inl ⟨_, freqBody_ok.2 ⟨hl, bytes, hb, rfl⟩, rfl⟩))]
  rfl

theorem run_buildTree {s : State} (hf : s.faults = []) (hv : s.status.freqValid = true) :
    (run 4 s).nodes = arenaOf (buildTree (run 4 s).freq) ∧ (run 4 s).freq = s.freq := by
  rw [run_command (i := .buildTree) hf rfl (by
    rw [exec_eq_runStages]
    exact runStages_single_next.2 (.inl ⟨_, buildTreeBody_ok.2 ⟨hv, rfl⟩, rfl⟩))]
  exact ⟨rfl, rfl⟩

theorem run_genCodes {s : State} (hf : s.faults = []) (hv : s.status.treeValid = true) (h : s.TreeOk) :
    (run 5 s).TreeOk ∧ (run 5 s).CodesOk ∧ (run 5 s).freq = s.freq := by
  have e : s.treeCodes = codesOfTable s.freq := by
    unfold State.treeCodes codesOfTable
    rw [h.arena, h.count, h.rootIsLast]
  rw [run_command (i := .genCodes) hf rfl (by
    rw [exec_eq_runStages]
    exact runStages_single_next.2 (.inl ⟨_, genCodesBody_ok.2 ⟨hv, rfl⟩, rfl⟩))]
  exact ⟨⟨h.arena, h.count, h.rootIsLast⟩, ⟨congrArg CodeTable.len e, congrArg CodeTable.bits e⟩, rfl⟩

/-- FREQ of "aabbc". -/
def counted : State := run 3 (loaded letters5)

/-- FREQ and BUILD_TREE of "aabbc". -/
def built : State := run 4 counted

theorem built_fields : built.nodes = arenaOf (buildTree built.freq) ∧ built.freq = counted.freq :=
  run_buildTree (by decide +kernel) (by decide +kernel)

theorem tree_built : built.TreeOk := ⟨built_fields.1, by decide +kernel, by decide +kernel⟩

theorem coded_fields : coded.TreeOk ∧ coded.CodesOk ∧ coded.freq = built.freq :=
  run_genCodes (s := built) (by decide +kernel) (by decide +kernel) tree_built

theorem freq_coded : coded.freq = freqTable letters5 := by
  rw [coded_fields.2.2, built_fields.2]
  exact run_freq rfl (by decide) (of_toOption (by decide))

theorem status_coded : coded.StatusOk := by constructor <;> decide +kernel
theorem memory_coded : coded.MemoryOk := by
  constructor
  case outLenWritten => exact written_none (by decide +kernel)
  all_goals decide +kernel
theorem table_coded : coded.TableOk := by
  constructor
  case ofInput => exact fun _ => ⟨by decide +kernel, by decide +kernel, letters5, of_toOption (by decide +kernel), freq_coded⟩
  case ofContainer => exact fun h => absurd h (by decide +kernel)
  all_goals decide +kernel

/-- A state with codes of the host's input meets the invariant. -/
theorem inv_coded : coded.Inv where
  parameters := by decide
  status := status_coded
  memory := memory_coded
  table _ := table_coded
  tree _ := coded_fields.1
  codes _ := coded_fields.2.1
  faultsDistinct := by decide +kernel

theorem tree_treed : treed.TreeOk :=
  ⟨(run_buildTree (s := run 7 (loaded container9)) (by decide +kernel) (by decide +kernel)).1, by decide +kernel,
    by decide +kernel⟩

theorem bits_coded : meaningfulBits coded.freq coded.codeLen = 8 := by decide +kernel

theorem packLength_coded : coded.packLength = 44 := by
  unfold State.packLength
  rw [bits_coded, show coded.distinct = 3#9 by decide +kernel]
  rfl

/-- DecodeOfEncodeIsTheCommand. -/
theorem witness_DecodeOfEncodeIsTheCommand : Instr.wf .clear = true := rfl

/-- IllegalWordsAreAcceptedAndCompleteWithIllegalCommand: both grounds, at the ends of the reserved range. -/
theorem witness_IllegalWords :
    (0x9 ≤ (wordOp 0x9#64).toNat ∧ (wordOp 0xE#64).toNat ≤ 0xE) ∧ wordRsv 0x10#64 ≠ 0#60 ∧
      wordRsv 0x8000000000000000#64 ≠ 0#60 ∧ block.status.busy = false ∧ (block.accept 0x9#64).pending = some 0x9#64 := by
  decide

/-- RegisterNumbersNameTheirRegisters: the ends of every window. -/
theorem witness_RegisterNumbersNameTheirRegisters :
    regOfNumber 0x000D = some .capOut ∧ regOfNumber 0x0100 = some (.freq 0) ∧ regOfNumber 0x02FF = some (.codeLen 255) ∧
      regOfNumber 0x1000 = some (.codeBits 0 0) ∧ regOfNumber 0x13FF = some (.codeBits 255 3) ∧
      regOfNumber 0x2000 = some (.node 0 0) ∧ regOfNumber 0x27FF = some (.node 511 3) := by decide

/-- ContainerIntegersAreLittleEndian. -/
theorem witness_ContainerIntegersAreLittleEndian : (le64 0x0123456789ABCDEF#64)[7]? = some 0x01#8 := by decide

/-- BitsArePackedMostSignificantFirst: nine bits, the last in a byte of its own. -/
theorem witness_BitsArePackedMostSignificantFirst :
    (packBits [false, false, false, false, false, false, false, true, true])[8 / 8]? = some 0x80#8 := by decide

/-- CodePatternIsEmittedInPathOrder: the longest path. -/
theorem witness_CodePatternIsEmittedInPathOrder : (List.replicate 255 true).length ≤ 255 := List.length_replicate.le

/-- EveryStepKeepsTheInvariant, and the premises of BusyAndDoneNeverBothReadOne. -/
theorem witness_EveryStepKeepsTheInvariant :
    coded.Inv ∧ (∃ t, step coded = .next t) ∧ (∃ t, exec .nop block = .next t) ∧ (∃ t, execIllegal 9 block = .next t) :=
  ⟨inv_coded, (exists_next (p := fun _ => true) (by decide +kernel)).imp fun _ h => h.1, ⟨_, rfl⟩, ⟨_, rfl⟩⟩

/-- StepRunsTheDecodedCommand: a command that completes, and one that meets a fault; an illegal word; an operation of the
host that completes, and one that meets a fault. -/
theorem witness_StepRunsTheDecodedCommand :
    (let s := (loaded [0x61]).accept 3#64;
      s.faults = [] ∧ s.mover = .core ∧ s.pending = some 3#64 ∧ decode 3#64 = .ok .freq ∧
      (∃ t, exec .freq { s with sched := s.sched.tail } = .next t) ∧
      ∃ r, exec .freq { s with inLen := 2#64, sched := s.sched.tail } = .fault r) ∧
    (let s := block.accept 0x11#64;
      s.faults = [] ∧ s.mover = .core ∧ s.pending = some 0x11#64 ∧ decode 0x11#64 = .error .reservedBits) ∧
    (let s := { block with hostProg := [.regRead 0x0001] };
      s.faults = [] ∧ s.mover = .host ∧ s.hostProg = .regRead 0x0001 :: [] ∧
      (∃ t, hostStep (.regRead 0x0001) { s with sched := s.sched.tail, hostProg := [] } = .next t) ∧
      ∃ r, hostStep (.regRead 0x000E) { s with sched := s.sched.tail, hostProg := [] } = .fault r) :=
  ⟨⟨rfl, rfl, rfl, rfl, (exists_next (p := fun _ => true) (by decide +kernel)).imp fun _ h => h.1,
    .uninitRead 1, is_fault (by decide +kernel)⟩, ⟨rfl, rfl, rfl, rfl⟩, rfl, rfl, rfl, ⟨_, rfl⟩, .busError, rfl⟩

/-- ModelStopsAfterAFault. -/
theorem witness_ModelStopsAfterAFault : ({ block with faults := [.busError] } : State).faults ≠ [] := by decide

/-- PendingCommandIsTakenInBoundedSteps. -/
theorem witness_PendingCommandIsTakenInBoundedSteps :
    (block.accept 3#64).faults = [] ∧ (block.accept 3#64).pending.isSome = true := by decide

/-- IdleBlockKeepsItsState. -/
theorem witness_IdleBlockKeepsItsState : block.faults = [] ∧ block.pending = none ∧ block.hostProg = [] := by decide

/-- InterruptIsDoneAndEnabled, CommandsKeepTheInputAndOnlyOutputCommandsWriteOutMem and ErrorsComeFromTheirStages: a command
that completes. -/
theorem witness_CommandCompletes : ∃ t, exec .freq (loaded letters5) = .next t :=
  (exists_next (p := fun _ => true) (by decide +kernel)).imp fun _ h => h.1

/-- ErrorCompletionIsPrecise: one command of each kind of error ends in it. -/
theorem witness_ErrorCompletionIsPrecise :
    (∃ t, exec .unpack block = .next t ∧ decide (t.status.err ≠ .noError) = true) ∧
    (∃ t, exec .deserialize block = .next t ∧ decide (t.status.err ≠ .noError) = true) :=
  ⟨exists_next (by decide +kernel), exists_next (by decide +kernel)⟩

/-- ValidFlagsChangeOnlyAsListed: each clause. -/
theorem witness_ValidFlagsChangeOnlyAsListed :
    (∃ t, exec .genCodes built = .next t ∧ decide (t.status.err = .noError) = true) ∧
    (∃ t, exec .encode block = .next t ∧ decide (t.status.errStage = 6#4) = true) ∧
    (∃ t, exec .encode { block with inLen := 4097#64 } = .next t ∧ decide (t.status.errStage = 3#4) = true) ∧
    (∃ t, exec .decode block = .next t ∧ decide (t.status.errStage = 7#4) = true) ∧
    (∃ t, exec .decode (loaded container9) = .next t ∧ decide (t.status.errStage = 0#4) = true) ∧
    (∃ t, hostStep (.inWrite 0 0x61) coded = .next t ∧ true = true) ∧
    (∃ t, hostStep (.regWrite 0x0003 5) coded = .next t ∧ true = true) :=
  ⟨exists_next (by decide +kernel), exists_next (by decide +kernel), exists_next (by decide +kernel),
    exists_next (by decide +kernel), exists_next (by decide +kernel), exists_next (p := fun _ => true) (by decide +kernel),
    exists_next (p := fun _ => true) (by decide +kernel)⟩

/-- PrerequisiteAndCapacityChecksComeFirst: each clause, the capacities missed by one. -/
theorem witness_PrerequisiteAndCapacityChecksComeFirst :
    block.status.freqValid = false ∧ block.status.treeValid = false ∧ block.status.codesValid = false ∧
      treed.status.freqSrc = true ∧ counted.status.freqSrc = false ∧
      ({ block with inLen := 4097#64 } : State).cfg.inCap.toNat < (4097#64).toNat ∧ treed.status.treeValid = true ∧
      ({ treed with cfg := caps 4096#64 8#64 } : State).cfg.outCap.toNat < treed.ogSize.toNat := by decide +kernel

/-- FramesOfCommandsThatStoreNothing: each command completes. -/
theorem witness_FramesOfCommandsThatStoreNothing :
    (∃ t, exec .nop coded = .next t) ∧ (∃ t, exec .clear coded = .next t) ∧
    (∃ t, exec .freq (loaded letters5) = .next t ∧ decide (t.status.err = .noError) = true) ∧
    (∃ t, exec .buildTree counted = .next t ∧ decide (t.status.err = .noError) = true) ∧
    (∃ t, exec .genCodes built = .next t ∧ decide (t.status.err = .noError) = true) ∧
    (∃ t, exec .deserialize (loaded container9) = .next t ∧ decide (t.status.err = .noError) = true) :=
  ⟨⟨_, rfl⟩, ⟨_, rfl⟩, exists_next (by decide +kernel), exists_next (by decide +kernel), exists_next (by decide +kernel),
    exists_next (by decide +kernel)⟩

/-- FramesOfOutputCommands and PackWritesTheContainerOfTheInput: PACK and UNPACK with success, and both with an error. -/
theorem witness_FramesOfOutputCommands :
    coded.Inv ∧ coded.status.codesValid = true ∧ coded.status.freqSrc = false ∧ coded.ogSize ≠ 0#64 ∧
    coded.packLength ≤ coded.cfg.outCap.toNat ∧
    (∃ t, exec .unpack treed = .next t ∧ decide (t.status.err = .noError) = true) ∧
    (∃ t, exec .unpack block = .next t ∧ decide (t.status.err = .sequenceError) = true) ∧
    (∃ t, exec .pack block = .next t ∧ decide (t.status.err = .sequenceError) = true) :=
  ⟨inv_coded, by decide +kernel, by decide +kernel, by decide +kernel, by
    rw [packLength_coded]
    decide +kernel, exists_next (by decide +kernel),
    exists_next (by decide +kernel), exists_next (by decide +kernel)⟩

/-- FreqCountsTheInputBytes and FreqTableInvariants: each clause, the length at and over IN_CAP. -/
theorem witness_FreqCountsTheInputBytes :
    ({ block with cfg := caps 4#64 1#64, inLen := 5#64 } : State).cfg.inCap.toNat < (5#64).toNat ∧
    (let s := { loaded letters5 with cfg := caps 5#64 1#64 };
      letters5.length = s.inLen.toNat ∧ s.inLen.toNat ≤ s.cfg.inCap.toNat ∧ s.inMem.Holds 0 letters5) ∧
    (let s := { loaded [0x61] with inLen := 2#64 };
      s.inLen.toNat ≤ s.cfg.inCap.toNat ∧ 1 < s.inLen.toNat ∧ s.inMem.read 1 = none ∧
        ∀ b, b < 1 → (s.inMem.read b).isSome = true) := by
  unfold Memory.Holds
  decide +kernel

theorem witness_FreqTableInvariants :
    ∃ t, exec .freq (loaded letters5) = .next t ∧ decide (t.status.err = .noError) = true :=
  exists_next (by decide +kernel)

/-- BuildTreeMakesAStrictBinaryTree, RootWeightIsTheOriginalSize. -/
theorem witness_BuildTree : coded.Inv ∧ coded.status.freqValid = true ∧ coded.ogSize ≠ 0#64 :=
  ⟨inv_coded, by decide +kernel, by decide +kernel⟩

/-- MergingTakesTheTwoLeastItems: the first and the last node made. -/
theorem witness_MergingTakesTheTwoLeastItems :
    ∃ t, exec .buildTree counted = .next t ∧
      decide (t.status.err = .noError ∧ distinctCount counted.freq ≤ 3 ∧ 4 < t.nodeCount.toNat) = true :=
  exists_next (by decide +kernel)

/-- GenCodesCompletes and SingleLeafGetsTheOneBitCodeZero: an empty tree, one leaf. -/
theorem witness_GenCodes :
    ((run 4 (run 3 block)).status.treeValid = true ∧ (run 4 (run 3 block)).nodeCount = 0#10) ∧
    treedZ.status.treeValid = true ∧ treedZ.nodeCount = 1#10 := by decide +kernel

/-- CodesArePathsFromTheRoot: a present and an absent symbol. -/
theorem witness_CodesArePathsFromTheRoot :
    built.status.treeValid = true ∧ built.TreeOk ∧ 2 ≤ distinctCount built.freq ∧ atSymbol built.freq 0x61 ≠ 0#64 ∧
      atSymbol built.freq 0x64 = 0#64 :=
  ⟨by decide +kernel, tree_built, by decide +kernel, by decide +kernel, by decide +kernel⟩

/-- CodesArePrefixFreeWithFullKraftSum: two or more symbols, and one. -/
theorem witness_CodesArePrefixFreeWithFullKraftSum :
    (∃ t, exec .buildTree counted = .next t ∧
      (decide (t.status.err = .noError) && ends (exec .genCodes t) fun _ => true) = true) ∧
    2 ≤ distinctCount counted.freq ∧ atSymbol counted.freq 0x61 ≠ 0#64 ∧ atSymbol counted.freq 0x62 ≠ 0#64 ∧
    (∃ t, exec .buildTree (run 7 (loaded containerZ)) = .next t ∧
      (decide (t.status.err = .noError) && ends (exec .genCodes t) fun _ => true) = true) ∧
    distinctCount (run 7 (loaded containerZ)).freq = 1 :=
  ⟨exists_next (by decide +kernel), by decide +kernel, by decide +kernel, by decide +kernel,
    exists_next (by decide +kernel), by decide +kernel⟩

/-- PackRaisesEmptyInputThenCapacityExceeded: an empty input, and an OUT_MEM one byte too small (the container has 44). -/
theorem witness_PackRaises :
    (let s := run 5 (run 4 (run 3 block));
      s.status.codesValid = true ∧ s.status.freqSrc = false ∧ s.ogSize = 0#64) ∧
    (let s := { coded with cfg := caps 4096#64 43#64 };
      s.status.codesValid = true ∧ s.status.freqSrc = false ∧ s.ogSize ≠ 0#64 ∧
        s.cfg.outCap.toNat < 16 + 9 * s.distinct.toNat + (meaningfulBits s.freq s.codeLen + 7) / 8) := by
  refine ⟨by decide +kernel, by decide +kernel, by decide +kernel, by decide +kernel, ?_⟩
  dsimp only
  rw [bits_coded]
  decide +kernel

/-- DeserializeRejectsTruncatedContainers: one byte short of the header, and one byte short of three records. -/
theorem witness_DeserializeRejectsTruncatedContainers :
    (loaded (container9.take 15)).inLen.toNat < 16 ∧
    (let s := loaded (container9.take 42);
      s.inLen.toNat ≤ s.cfg.inCap.toNat ∧ 16 ≤ s.inLen.toNat ∧ s.inMem.Holds 0 (le64 3 ++ le64 9) ∧
        (s.inLen.toNat - 16) / 9 < (3#64).toNat) := by
  unfold Memory.Holds
  decide +kernel

/-- The container of V-DS-11: the records of V-L1-1 in the order c, b, a. -/
def recordsCba : List (Byte × Word) := [(0x63, 2), (0x62, 3), (0x61, 4)]

/-- The header and the records of a container. -/
def withRecords (records : List (Byte × Word)) (og : Word) : List Byte :=
  le64 (BitVec.ofNat 64 records.length) ++ le64 og ++ records.flatMap recordBytesOf

/-- DeserializeChecksTheRecords and DeserializeReadsTheFrequencyTable: a consistent container with nothing after its records. -/
theorem witness_DeserializeReadsTheFrequencyTable :
    (loaded (withRecords recordsCba 9)).inLen.toNat ≤ (loaded (withRecords recordsCba 9)).cfg.inCap.toNat ∧
      16 + 9 * recordsCba.length ≤ (loaded (withRecords recordsCba 9)).inLen.toNat ∧
      (loaded (withRecords recordsCba 9)).inMem.Holds 0 (withRecords recordsCba 9) ∧ recordsCba ≠ [] ∧
      (∀ r ∈ recordsCba, r.2 ≠ 0#64) ∧ (recordsCba.map Prod.fst).Nodup ∧
      (recordsCba.map fun r => r.2.toNat).sum = (9#64).toNat := by
  refine ⟨by decide +kernel, by decide +kernel, ?_, by decide, by simp [recordsCba], by decide, by decide⟩
  unfold Memory.Holds
  decide +kernel

/-- DeserializeReadsTheFrequencyTable: the last header byte, and the last record byte, never written. -/
theorem witness_DeserializeUninitRead :
    (let s := { loaded (container9.take 15) with inLen := 16#64 };
      s.inLen.toNat ≤ s.cfg.inCap.toNat ∧ 16 ≤ s.inLen.toNat ∧ s.inMem.read 15 = none ∧ s.inMem.WrittenFrom 0 15) ∧
    (let s := { loaded (container9.take 42) with inLen := 43#64 };
      s.inLen.toNat ≤ s.cfg.inCap.toNat ∧ 16 ≤ s.inLen.toNat ∧ s.inMem.Holds 0 (le64 3 ++ le64 9) ∧
        (3#64).toNat ≤ (s.inLen.toNat - 16) / 9 ∧ 42 < 16 + 9 * (3#64).toNat ∧ s.inMem.read 42 = none ∧
        s.inMem.WrittenFrom 0 42) := by
  unfold Memory.Holds Memory.WrittenFrom
  decide +kernel

/-- A host's transaction stands at the base address of its space and an offset of the binding; reset stands nowhere. -/
theorem test_busAddress (b : BusBinding) :
    HostOp.busAddress b (.inWrite 7 0) = some (b.inBase + Config.busOffset b .input 7) ∧
      HostOp.busAddress b (.regRead 0x0001) = some (b.regBase + Config.busOffset b .reg 1) ∧
      HostOp.busAddress b .reset = none := ⟨rfl, rfl, rfl⟩

/-- DeserializeChecksTheRecords: each inconsistency alone, in a container that holds the records. -/
theorem witness_DeserializeChecksTheRecords :
    ((loaded (withRecords [] 0)).inMem.Holds 0 (withRecords [] 0)) ∧
    (let r : List (Byte × Word) := [(0x61, 0)];
      (loaded (withRecords r 0)).inMem.Holds 0 (withRecords r 0) ∧ ∃ x ∈ r, x.2 = 0#64) ∧
    (let r : List (Byte × Word) := [(0x61, 2), (0x61, 2)];
      (loaded (withRecords r 4)).inMem.Holds 0 (withRecords r 4) ∧ ¬(r.map Prod.fst).Nodup) ∧
    (let r : List (Byte × Word) := [(0x61, 3)];
      (loaded (withRecords r 4)).inMem.Holds 0 (withRecords r 4) ∧ (r.map fun x => x.2.toNat).sum ≠ (4#64).toNat) := by
  unfold Memory.Holds
  decide +kernel

/-- RecordOrderDoesNotMatter: the records of V-L1-1 and of V-DS-11. -/
theorem witness_RecordOrderDoesNotMatter :
    recordsCba.reverse.Perm recordsCba ∧
    (∃ t, exec .deserialize (loaded (withRecords recordsCba 9)) = .next t ∧
      (decide (t.status.err = .noError) && ends (exec .buildTree t) fun _ => true) = true) ∧
    (∃ t, exec .deserialize (loaded (withRecords recordsCba.reverse 9)) = .next t ∧
      (decide (t.status.err = .noError) && ends (exec .buildTree t) fun _ => true) = true) ∧
    (loaded (withRecords recordsCba.reverse 9)).inMem.Holds 0 (withRecords recordsCba.reverse 9) :=
  ⟨List.reverse_perm _, exists_next (by decide +kernel), exists_next (by decide +kernel), by
    unfold Memory.Holds
    decide +kernel⟩

/-- UnpackOfASingleLeafEmitsItsSymbol: 16 bits for 9 symbols; 8 bits for 9 symbols; an unwritten byte that is reached. -/
theorem witness_UnpackOfASingleLeafEmitsItsSymbol :
    (treedZ.status.treeValid = true ∧ treedZ.status.freqSrc = true ∧ treedZ.ogSize.toNat ≤ treedZ.cfg.outCap.toNat ∧
      treedZ.nodeCount = 1#10 ∧ treedZ.ogSize.toNat ≤ 8 * treedZ.payloadLength ∧
      treedZ.inMem.WrittenFrom treedZ.payloadOff.toNat ((treedZ.ogSize.toNat + 7) / 8)) ∧
    (let s := { treedZ with inLen := 26#64 };
      8 * s.payloadLength < s.ogSize.toNat ∧ s.inMem.WrittenFrom s.payloadOff.toNat s.payloadLength) ∧
    (let s := { treedZ with inLen := 28#64, ogSize := 17#64 };
      2 < s.payloadLength ∧ 8 * 2 < s.ogSize.toNat ∧ s.inMem.read (s.payloadOff.toNat + 2) = none ∧
        s.inMem.WrittenFrom s.payloadOff.toNat 2) := by
  unfold Memory.WrittenFrom
  decide +kernel

/-- The codes of symbols in the tree of V-L1-1. -/
def treedCodes (symbols : List Byte) : List Bool :=
  symbols.flatMap fun c => codeBitList (atSymbol (codesOfTable treed.freq).len c) (atSymbol (codesOfTable treed.freq).bits c)

/-- No present symbol of V-L1-1 has an empty code. -/
theorem treed_codes_nonempty :
    ∀ c : Byte, atSymbol treed.freq c ≠ 0#64 → (atSymbol (codesOfTable treed.freq).len c).toNat ≠ 0 := by decide +kernel

/-- No bits hold the codes of no nine symbols. -/
theorem no_codes_in_no_bits (s : State) (symbols : List Byte) (hl : symbols.length = 9)
    (hs : ∀ c ∈ symbols, atSymbol treed.freq c ≠ 0#64) : ¬s.PayloadBegins 0 (treedCodes symbols) := by
  rintro ⟨h, -⟩
  cases symbols with
  | nil => simp at hl
  | cons c rest =>
    have hc := treed_codes_nonempty c (hs c List.mem_cons_self)
    simp [treedCodes, codeBitList] at h
    omega

/-- UnpackDecodesTheCodesInThePayload: the payload of V-L1-1; the same container with no payload; and its payload's first
byte never written. -/
theorem witness_UnpackDecodesTheCodesInThePayload :
    (treed.status.treeValid = true ∧ treed.status.freqSrc = true ∧ treed.TreeOk ∧ 2 ≤ distinctCount treed.freq ∧
      treed.ogSize.toNat ≤ treed.cfg.outCap.toNat) ∧
    (letters9.length = treed.ogSize.toNat ∧ (∀ c ∈ letters9, atSymbol treed.freq c ≠ 0#64) ∧
      treed.PayloadBegins (8 * treed.payloadLength) (treedCodes letters9)) ∧
    (let s := { treed with inLen := 43#64 };
      s.inMem.WrittenFrom s.payloadOff.toNat s.payloadLength ∧ ∀ symbols,
        ¬(symbols.length = s.ogSize.toNat ∧ (∀ c ∈ symbols, atSymbol s.freq c ≠ 0#64) ∧
          s.PayloadBegins (8 * s.payloadLength) (treedCodes symbols))) ∧
    (let s := { treed with inMem := [] };
      0 < s.payloadLength ∧ s.inMem.read (s.payloadOff.toNat + 0) = none ∧ s.inMem.WrittenFrom s.payloadOff.toNat 0 ∧
        ∀ symbols, ¬(symbols.length = s.ogSize.toNat ∧ (∀ c ∈ symbols, atSymbol s.freq c ≠ 0#64) ∧
          s.PayloadBegins (8 * 0) (treedCodes symbols))) := by
  have hog : treed.ogSize.toNat = 9 := by decide +kernel
  have hp : State.payloadLength { treed with inLen := 43#64 } = 0 := by decide +kernel
  refine ⟨⟨by decide +kernel, by decide +kernel, tree_treed, by decide +kernel, by decide +kernel⟩,
    ⟨by decide +kernel, by decide +kernel, ?_⟩, ⟨?_, ?_⟩, by decide +kernel, rfl, fun j hj => absurd hj (Nat.not_lt_zero j), ?_⟩
  · unfold State.PayloadBegins
    decide +kernel
  · rw [hp]
    exact fun j hj => absurd hj (Nat.not_lt_zero j)
  · rintro symbols ⟨hl, hs, hb⟩
    rw [hp] at hb
    exact no_codes_in_no_bits _ symbols (hl.trans hog) hs hb
  · rintro symbols ⟨hl, hs, hb⟩
    exact no_codes_in_no_bits _ symbols (hl.trans hog) hs hb

/-- EncodeOfEmptyInputRaisesEmptyInput. -/
theorem witness_EncodeOfEmptyInputRaisesEmptyInput : block.inLen = 0#64 := rfl

/-- EncodeWritesTheContainerOfTheInput: the container of "aabbc" has 44 bytes and just fits. -/
theorem witness_EncodeWritesTheContainerOfTheInput :
    let s := { loaded letters5 with cfg := caps 5#64 44#64 }
    letters5 ≠ [] ∧ letters5.length = s.inLen.toNat ∧ s.inLen.toNat ≤ s.cfg.inCap.toNat ∧ s.inMem.Holds 0 letters5 ∧
      (containerOf letters5).length ≤ s.cfg.outCap.toNat := by
  unfold Memory.Holds
  decide +kernel

/-- DecodeRestoresTheInputOfAContainer and DecodeInvertsEncode: the container of "aabbc" in the input memory, and OUT_MEM
just large enough. -/
theorem witness_DecodeRestoresTheInputOfAContainer :
    let s := { loaded (containerOf letters5) with cfg := caps 44#64 5#64 }
    letters5 ≠ [] ∧ s.inLen.toNat = (containerOf letters5).length ∧ s.inLen.toNat ≤ s.cfg.inCap.toNat ∧
      s.inMem.Holds 0 (containerOf letters5) ∧ letters5.length ≤ s.cfg.outCap.toNat := by
  unfold Memory.Holds
  decide +kernel

theorem witness_DecodeInvertsEncode :
    letters5.length = (loaded letters5).inLen.toNat ∧ (loaded letters5).inMem.Holds 0 letters5 ∧
    ∃ t, exec .encode (loaded letters5) = .next t ∧
      (let u := { block with inLen := t.outLen, inMem := t.outMem, cfg := caps 44#64 5#64 };
        decide (t.status.err = .noError ∧ u.inLen.toNat ≤ u.cfg.inCap.toNat ∧
          letters5.length ≤ u.cfg.outCap.toNat)) = true :=
  ⟨by decide +kernel, by
    unfold Memory.Holds
    decide +kernel, exists_next (by decide +kernel)⟩

/-- DecodeDetectsATruncatedPayload: the payload of V-L1-1 without its last byte, and with no byte at all. -/
theorem witness_DecodeDetectsATruncatedPayload :
    letters9 ≠ [] ∧ 16 + 9 * distinctCount (freqTable letters9) ≤ 43 ∧ 44 < (containerOf letters9).length ∧
      (loaded ((containerOf letters9).take 44)).inLen.toNat = 44 ∧
      (loaded ((containerOf letters9).take 44)).inMem.Holds 0 ((containerOf letters9).take 44) := by
  unfold Memory.Holds
  decide +kernel

/-- A busy block meets the invariant: StatusWriteClearsDoneAndDropped. -/
theorem witness_StatusWriteClearsDoneAndDropped :
    (block.accept 6#64).Inv ∧ (block.accept 6#64).status.busy = true ∧ (0x2#64).getLsbD 20 = false := by
  refine ⟨⟨by decide, ?_, ?_, fun h => ?_, fun h => ?_, fun h => ?_, by decide⟩, rfl, by decide⟩
  · constructor <;> decide
  · constructor
    case outLenWritten => exact written_none rfl
    all_goals decide
  all_goals exact absurd h (by decide)

/-- The host's transactions: an idle and a busy block, and the last and the first address in and out of range. -/
theorem witness_HostTransactions :
    block.status.busy = false ∧ (block.accept 6#64).status.busy = true ∧ 4095 < block.cfg.inCap.toNat ∧
      block.cfg.inCap.toNat ≤ 4096 ∧ 4095 < block.cfg.outCap.toNat ∧ block.cfg.outCap.toNat ≤ 4096 ∧
      (loaded letters5).inMem.read 0 = some 0x61 ∧ block.inMem.read 0 = none ∧ block.outMem.read 0 = none ∧
      (run 8 treed).outMem.read 0 = some 0x61 ∧ (run 8 treed).status.busy = false := by decide +kernel

/-- InputWritesInvalidateTheStageState and ReadOnlyWritesAreIgnoredAndUnmappedIsBusError: a step of the host in a busy block
that meets HostHazard, one that meets BusError. -/
theorem witness_HostFaults :
    let s := { block.accept 6#64 with sched := [.host], hostProg := [.inWrite 4095 0, .regRead 0x000E] }
    s.faults = [] ∧ s.mover = .host ∧ s.hostProg = .inWrite 4095 0 :: [.regRead 0x000E] ∧ s.status.busy = true ∧
      4095 < s.cfg.inCap.toNat ∧
      hostStep (.regRead 0x000E) { s with sched := s.sched.tail, hostProg := [] } = .fault .busError :=
  ⟨rfl, rfl, rfl, rfl, by decide, is_fault (by decide +kernel)⟩

/-- ReadOnlyWritesAreIgnoredAndUnmappedIsBusError: the ends of every unmapped range, and STATUS bits that are ignored. -/
theorem witness_UnmappedNumbers :
    regOfNumber 0x000E = none ∧ regOfNumber 0x00FF = none ∧ regOfNumber 0x0300 = none ∧ regOfNumber 0x0FFF = none ∧
      regOfNumber 0x1400 = none ∧ regOfNumber 0x1FFF = none ∧ regOfNumber 0x2800 = none ∧ regOfNumber 0xFFFF = none ∧
      (0xFFFFFFFFFFEFFFFD#64).getLsbD 1 = false ∧ (0xFFFFFFFFFFEFFFFD#64).getLsbD 20 = false := by decide

/-- ReadsHaveNoSideEffect: each of the three reads completes. -/
theorem witness_ReadsHaveNoSideEffect :
    (∃ t, hostStep (.regRead 0x0001) block = .next t) ∧ (∃ t, hostStep (.inRead 4095) block = .next t) ∧
      ∃ t, hostStep (.outRead 4095) block = .next t :=
  ⟨⟨_, rfl⟩, ⟨_, rfl⟩, ⟨_, rfl⟩⟩

/-- WindowsReadTheTables. -/
theorem witness_WindowsReadTheTables : coded.status.busy = false := by decide +kernel

end Sys2Proof.Tests
end

/-! PROOFS. The registers: their numbers, their reads and writes, the bits of STATUS, and reset (10_state.md R20 to R47). -/

namespace Sys2Proof.Machine

/-! ### The numbers of the registers (10_state.md R22) -/

theorem regOfNumber_number (r : RegName) : regOfNumber r.number = some r := by
  cases r with
  | freq c =>
    have hc : c.toNat < 256 := c.isLt
    have hk : (BitVec.ofNat 16 (0x100 + c.toNat)).toNat = 0x100 + c.toNat := Nat.mod_eq_of_lt (by omega)
    simp only [regOfNumber, RegName.number, hk]
    rw [if_neg (by omega), if_pos (by omega)]
    simp
  | codeLen c =>
    have hc : c.toNat < 256 := c.isLt
    have hk : (BitVec.ofNat 16 (0x200 + c.toNat)).toNat = 0x200 + c.toNat := Nat.mod_eq_of_lt (by omega)
    simp only [regOfNumber, RegName.number, hk]
    rw [if_neg (by omega), if_neg (by omega), if_pos (by omega)]
    simp
  | codeBits c w =>
    have hc : c.toNat < 256 := c.isLt
    have hw : w.toNat < 4 := w.isLt
    have hk : (BitVec.ofNat 16 (0x1000 + 4 * c.toNat + w.toNat)).toNat = 0x1000 + 4 * c.toNat + w.toNat :=
      Nat.mod_eq_of_lt (by omega)
    have hdiv : (0x1000 + 4 * c.toNat + w.toNat - 0x1000) / 4 = c.toNat := by omega
    have hmod : (0x1000 + 4 * c.toNat + w.toNat) % 4 = w.toNat := by omega
    simp only [regOfNumber, RegName.number, hk, hdiv, hmod]
    rw [if_neg (by omega), if_neg (by omega), if_neg (by omega), if_neg (by omega), if_pos (by omega)]
    simp
  | node i f =>
    have hi : i.toNat < 512 := i.isLt
    have hf : f.toNat < 4 := f.isLt
    have hk : (BitVec.ofNat 16 (0x2000 + 4 * i.toNat + f.toNat)).toNat = 0x2000 + 4 * i.toNat + f.toNat :=
      Nat.mod_eq_of_lt (by omega)
    have hdiv : (0x2000 + 4 * i.toNat + f.toNat - 0x2000) / 4 = i.toNat := by omega
    have hmod : (0x2000 + 4 * i.toNat + f.toNat) % 4 = f.toNat := by omega
    simp only [regOfNumber, RegName.number, hk, hdiv, hmod]
    rw [if_neg (by omega), if_neg (by omega), if_neg (by omega), if_neg (by omega), if_neg (by omega),
      if_neg (by omega), if_pos (by omega)]
    simp
  | _ => rfl

theorem scalarReg_number {k : Nat} {r : RegName} (h : scalarReg k = some r) : r.number.toNat = k := by
  unfold scalarReg at h
  split at h <;> cases h <;> rfl

theorem number_of_regOfNumber {n : BitVec 16} {r : RegName} (h : regOfNumber n = some r) : r.number = n := by
  apply BitVec.eq_of_toNat_eq
  unfold regOfNumber at h
  dsimp only at h
  split_ifs at h
  · exact scalarReg_number h
  all_goals
    cases h
    simp only [RegName.number, BitVec.toNat_ofNat]
    omega

/-- Settles O5: by the window in which the number lies. -/
theorem registerNumbersNameTheirRegisters : Obligations.RegisterNumbersNameTheirRegisters :=
  ⟨regOfNumber_number, fun _ _ => number_of_regOfNumber⟩

theorem number_inj {r r' : RegName} : r.number = r'.number ↔ r = r' := by
  refine ⟨fun h => ?_, fun h => h ▸ rfl⟩
  have hr := regOfNumber_number r
  rw [h, regOfNumber_number r', Option.some.injEq] at hr
  exact hr.symm

/-! ### Reads and writes of a register by its name (10_state.md R22 to R29, R46, R47) -/

theorem hostStep_regRead_number (r : RegName) (s : State) : hostStep (.regRead r.number) s =
    if s.status.busy && !r.exactWhileBusy then .next s.returnDraw else .next (s.returnWord (s.regValue r)) := by
  simp only [hostStep, hostRegRead, regOfNumber_number]

/-- While BUSY = 0 every register reads exactly. -/
theorem hostStep_regRead_idle {s : State} (h : s.status.busy = false) (r : RegName) :
    hostStep (.regRead r.number) s = .next (s.returnWord (s.regValue r)) := by
  simp [hostStep_regRead_number, h]

theorem exactWhileBusy_eq_false {r : RegName} : r.exactWhileBusy = false ↔
    r ≠ .ctrl ∧ r ≠ .status ∧ r ≠ .intEn ∧ r ≠ .inLen ∧ r ≠ .capIn ∧ r ≠ .capOut := by
  cases r <;> simp [RegName.exactWhileBusy]

/-- The host writes a read-only register without effect. -/
theorem hostRegWrite_readOnly {r : RegName} (hctrl : r ≠ .ctrl) (hstatus : r ≠ .status) (hie : r ≠ .intEn)
    (hlen : r ≠ .inLen) (v : Word) (s : State) : hostRegWrite r.number v s = .next s := by
  unfold hostRegWrite
  rw [regOfNumber_number]
  cases r
  case ctrl => exact absurd rfl hctrl
  case status => exact absurd rfl hstatus
  case intEn => exact absurd rfl hie
  case inLen => exact absurd rfl hlen
  all_goals rfl

/-- What a register write that answers a next state did, by the register (10_state.md R22 to R29, R47). -/
theorem hostRegWrite_next {n : BitVec 16} {v : Word} {s t : State} (h : hostRegWrite n v s = .next t) :
    (n = RegName.ctrl.number ∧ t = s.writeCtrl v) ∨
      (n = RegName.status.number ∧ t = { s with status := s.status.writeOneToClear v }) ∨
      (n = RegName.intEn.number ∧ t = { s with doneIe := v.getLsbD 0 }) ∨
      (n = RegName.inLen.number ∧ t = { s.invalidate with inLen := v }) ∨
      (n ≠ RegName.inLen.number ∧ t = s) := by
  cases hr : regOfNumber n with
  | none => simp [hostRegWrite, hr] at h
  | some r =>
    obtain rfl := number_of_regOfNumber hr
    by_cases hctrl : r = .ctrl
    · subst hctrl
      cases h
      exact .inl ⟨rfl, rfl⟩
    by_cases hstatus : r = .status
    · subst hstatus
      cases h
      exact .inr (.inl ⟨rfl, rfl⟩)
    by_cases hie : r = .intEn
    · subst hie
      cases h
      exact .inr (.inr (.inl ⟨rfl, rfl⟩))
    by_cases hlen : r = .inLen
    · subst hlen
      change hostWriteInLen v s = .next t at h
      unfold hostWriteInLen at h
      split at h <;> cases h
      exact .inr (.inr (.inr (.inl ⟨rfl, rfl⟩)))
    · rw [hostRegWrite_readOnly hctrl hstatus hie hlen] at h
      cases h
      exact .inr (.inr (.inr (.inr ⟨fun e => hlen (number_inj.1 e), rfl⟩)))

/-- Settles O55: a read of a register goes by its name, of a byte by its address. -/
theorem resultReadsAreDrawsWhileBusy : Obligations.ResultReadsAreDrawsWhileBusy := by
  refine ⟨fun s r => ?_, fun s a hb ha => ?_, fun s a b ha hr => ?_⟩
  · simp only [hostStep_regRead_number, ← exactWhileBusy_eq_false, Bool.and_eq_true, Bool.not_eq_true']
    rfl
  · simp only [hostStep, hostOutRead, hb, if_neg (Nat.not_le.2 ha), if_true]
    rfl
  · simp only [hostStep, hostInRead, hr, if_neg (Nat.not_le.2 ha)]
    rfl

theorem bitField_zero (b : Bool) : bitField b 0 = if b then 1#64 else 0#64 := by cases b <;> rfl

/-- INT_EN is bit 0 alone (10_state.md R28). -/
theorem bitField_zero_bits (b : Bool) : (bitField b 0).getLsbD 0 = b ∧ (bitField b 0).extractLsb' 1 63 = 0#63 := by
  cases b <;> decide

/-- Settles O60: an idle block's register reads its value, and the numbers of the statement are those of the registers. -/
theorem windowsReadTheTables : Obligations.WindowsReadTheTables := by
  intro s c w f i hidle Reads
  have hread (r : RegName) {v : Word} (hv : s.regValue r = v) : Reads r.number v := by
    rw [← hv]
    exact hostStep_regRead_idle hidle r
  refine ⟨⟨hread .ctrl rfl, hread .status rfl, hread .intEn (bitField_zero _), hread .inLen rfl, hread .outLen rfl,
    hread .distinct (BitVec.ofNat_toNat ..).symm, hread .ogSize rfl, hread .payloadOff rfl, hread .payloadBits rfl,
    hread .nodeCount (BitVec.ofNat_toNat ..).symm, hread .root (BitVec.ofNat_toNat ..).symm, hread .progress rfl,
    hread .capIn rfl, hread .capOut rfl⟩, hread (.freq c) rfl, hread (.codeLen c) (BitVec.ofNat_toNat ..).symm,
    hread (.codeBits c w) rfl, hread (.node i f) ?_⟩
  rw [State.regValue, Node.fieldWord, Nat.add_comm]
  dsimp only
  cases (nodeAt s.nodes i.toNat).kind <;> rfl

/-! ### The bits of STATUS (10_state.md R24) -/

theorem getLsbD_bitField (b : Bool) (k : Nat) {j : Nat} (hj : j < 64) : (bitField b k).getLsbD j = (decide (j = k) && b) := by
  rw [bitField, BitVec.getLsbD_shiftLeft, BitVec.getLsbD_setWidth, BitVec.getLsbD_ofBool]
  rcases Nat.lt_trichotomy j k with h | h | h
  · simp [h, h.ne]
  · subst h
    simp [hj]
  · simp [hj, show ¬j < k by omega, show ¬j - k = 0 by omega, h.ne']

theorem getLsbD_nibbleField (v : BitVec 4) (k : Nat) {j : Nat} (hj : j < 64) :
    (nibbleField v k).getLsbD j = (decide (k ≤ j) && v.getLsbD (j - k)) := by
  rw [nibbleField, BitVec.getLsbD_shiftLeft, BitVec.getLsbD_setWidth]
  by_cases h : k ≤ j
  · simp [hj, h, show j - k < 64 by omega]
  · simp [h]

/-- Bit j of STATUS is the bit of the field it lies in. -/
theorem getLsbD_toWord (st : Status) {j : Nat} (hj : j < 64) : st.toWord.getLsbD j =
    (decide (j = 0) && st.busy || decide (j = 1) && st.done || decide (4 ≤ j) && st.err.code.getLsbD (j - 4) ||
      decide (8 ≤ j) && st.errStage.getLsbD (j - 8) || decide (12 ≤ j) && st.lastCmd.getLsbD (j - 12) ||
      decide (j = 16) && st.freqValid || decide (j = 17) && st.treeValid || decide (j = 18) && st.codesValid ||
      decide (j = 19) && st.freqSrc || decide (j = 20) && st.cmdDropped) := by
  simp only [Status.toWord, BitVec.getLsbD_or, getLsbD_bitField _ _ hj, getLsbD_nibbleField _ _ hj]

/-- The four bits of STATUS from bit 4, 8 or 12 on are the field there. -/
theorem extractLsb'_toWord_nibble (st : Status) :
    st.toWord.extractLsb' 4 4 = st.err.code ∧ st.toWord.extractLsb' 8 4 = st.errStage ∧
      st.toWord.extractLsb' 12 4 = st.lastCmd := by
  refine ⟨?_, ?_, ?_⟩
  all_goals
    refine BitVec.eq_of_getLsbD_eq fun i hi => ?_
    rw [BitVec.getLsbD_extractLsb', getLsbD_toWord _ (by omega)]
    interval_cases i <;> simp

/-- The reserved bits of STATUS read 0. -/
theorem extractLsb'_toWord_reserved (st : Status) :
    st.toWord.extractLsb' 2 2 = 0#2 ∧ st.toWord.extractLsb' 21 43 = 0#43 := by
  constructor
  · refine BitVec.eq_of_getLsbD_eq fun i hi => ?_
    rw [BitVec.getLsbD_extractLsb', getLsbD_toWord _ (by omega)]
    interval_cases i <;> simp
  · refine BitVec.eq_of_getLsbD_eq fun i hi => ?_
    have hfar (v : BitVec 4) {k : Nat} (hk : k ≤ 17) : v.getLsbD (21 + i - k) = false :=
      BitVec.getLsbD_of_ge _ _ (by omega)
    rw [BitVec.getLsbD_extractLsb', getLsbD_toWord _ (by omega)]
    simp [hfar, show ¬21 + i = 1 by omega, show ¬21 + i = 16 by omega,
      show ¬21 + i = 17 by omega, show ¬21 + i = 18 by omega, show ¬21 + i = 19 by omega, show ¬21 + i = 20 by omega]

/-- Settles O51: bit by bit. -/
theorem statusFieldsStandAtTheirBits : Obligations.StatusFieldsStandAtTheirBits := by
  intro st
  obtain ⟨herr, hstage, hcmd⟩ := extractLsb'_toWord_nibble st
  obtain ⟨hlow, hhigh⟩ := extractLsb'_toWord_reserved st
  refine ⟨?_, ?_, hlow, herr.trans (by cases st.err <;> rfl), hstage, hcmd, ?_, ?_, ?_, ?_, ?_, hhigh⟩
  all_goals
    rw [getLsbD_toWord _ (by omega)]
    simp

theorem hostRegWrite_status (w : Word) (s : State) :
    hostRegWrite 0x0001#16 w s = .next { s with status := s.status.writeOneToClear w } := rfl

/-- A write to STATUS changes DONE and CMD_DROPPED alone (10_state.md R25). -/
theorem writeOneToClear_eq (st : Status) (w : Word) : st.writeOneToClear w = { st with
    done := if w.getLsbD 1 then false else st.done
    cmdDropped := if w.getLsbD 20 then false else st.cmdDropped } := by
  unfold Status.writeOneToClear
  cases w.getLsbD 1 <;> cases w.getLsbD 20 <;> simp

/-! ### Ignored writes and unmapped numbers (10_state.md R47) -/

/-- A command has RSV = 0 (30_encoding.md R81, R84). -/
theorem wordRsv_of_decode {v : Word} {i : Instr} (h : decode v = .ok i) : wordRsv v = 0#60 := by
  have hrows : ∀ r ∈ opcodeTable, r.mask = wholeWord ∧ wordRsv r.pattern = 0#60 := by decide
  unfold decode at h
  split at h
  · rename_i r hr
    obtain ⟨hmask, hrsv⟩ := hrows r (List.mem_of_find?_eq_some hr)
    have hsel := List.find?_some hr
    rw [OpcodeRow.selects, hmask, beq_iff_eq] at hsel
    have hw : v &&& wholeWord = v := BitVec.and_allOnes
    rw [← hw, hsel, hrsv]
  · split at h <;> cases h

theorem scalarReg_of_ge {k : Nat} (h : 0xE ≤ k) : scalarReg k = none := by
  unfold scalarReg
  split
  case h_15 => rfl
  all_goals omega

/-- The unmapped ranges of the REG space (10_state.md R22). -/
theorem regOfNumber_unmapped {n : BitVec 16}
    (h : (0x000E ≤ n.toNat ∧ n.toNat ≤ 0x00FF) ∨ (0x0300 ≤ n.toNat ∧ n.toNat ≤ 0x0FFF) ∨
      (0x1400 ≤ n.toNat ∧ n.toNat ≤ 0x1FFF) ∨ 0x2800 ≤ n.toNat) : regOfNumber n = none := by
  unfold regOfNumber
  dsimp only
  split_ifs
  · exact scalarReg_of_ge (by omega)
  · omega
  · omega
  · rfl
  · omega
  · rfl
  · omega
  · rfl

/-- The host's step that meets a model fault records it, with no other effect (log 7). -/
theorem step_host_fault {s : State} {op : HostOp} {rest : List HostOp} {r : Fault} (hf : s.faults = [])
    (hm : s.mover = .host) (hp : s.hostProg = op :: rest)
    (h : hostStep op { s with sched := s.sched.tail, hostProg := rest } = .fault r) :
    step s = .next { s with faults := [r] } := by
  have hmove : agentMove s.mover s.turnTaken = .fault r := by
    rw [hm, agentMove, hostMove, State.turnTaken_hostProg, hp]
    exact h
  rw [step_next]
  exact ⟨hf, .inr ⟨r, hmove, by simp [State.recordFault, hf]⟩⟩

/-- Settles O58: by the register's name, or its number's range. -/
theorem readOnlyWritesAreIgnoredAndUnmappedIsBusError : Obligations.ReadOnlyWritesAreIgnoredAndUnmappedIsBusError := by
  refine ⟨fun s r v hctrl hstatus hie hlen => hostRegWrite_readOnly hctrl hstatus hie hlen v s, fun _ _ => rfl, fun s => ?_,
    fun v hv => ?_, fun s w h1 h20 => ?_, fun s n v hn => ?_, fun s op rest hf hm hp h => step_host_fault hf hm hp h⟩
  · exact ⟨(bitField_zero_bits _).1, (bitField_zero_bits _).2, extractLsb'_toWord_reserved _⟩
  · cases hd : decode v with
    | ok i => exact absurd (wordRsv_of_decode hd) hv
    | error e => exact ⟨e, rfl⟩
  · rw [hostRegWrite_status, writeOneToClear_eq, h1, h20]
    rfl
  · have hnone := regOfNumber_unmapped hn
    simp only [hostStep, hostRegRead, hostRegWrite, hnone, and_self]

/-- Settles O9: each value by computation. -/
theorem resetLeavesTheListedValues : Obligations.ResetLeavesTheListedValues := by
  refine ⟨by decide, by decide, by decide, rfl, rfl, rfl, rfl, rfl, rfl, rfl, rfl, rfl, rfl, rfl, fun c => ⟨?_, ?_, ?_⟩,
    nodeAt_replicate, fun _ => ⟨rfl, rfl⟩, rfl, rfl, rfl, fun s => ⟨_, rfl, rfl⟩⟩
  all_goals exact atSymbol_replicate _ c

end Sys2Proof.Machine

/-! PROOFS. The tree of a table: its leaves, the invariant of merging, and the arena BUILD_TREE makes (42_tree_builder.md). -/

namespace Sys2Proof.Machine

/-! ### The leaves of a table (42_tree_builder.md R121) -/

/-- The leaf of a symbol in the tree of a table. -/
def leafOf (table : SymbolTable Word) (c : Byte) : Node := ⟨.leaf, c, 0, 0, atSymbol table c⟩

/-- The leaves are those of the present symbols in ascending order. -/
theorem leaves_eq_map_presentSymbols (table : SymbolTable Word) :
    leaves table = (presentSymbols table).map (leafOf table) := by
  have hzip : table.toList.zipIdx = (List.range 256).map fun s => (atSymbol table (BitVec.ofNat 8 s), s) := by
    rw [symbolTable_toList]
    refine List.ext_getElem (by simp) fun i h₁ h₂ => ?_
    simp
  unfold leaves presentSymbols
  rw [hzip, List.filterMap_map, ← List.filterMap_eq_filter, List.map_filterMap, List.filterMap_map]
  refine List.filterMap_congr fun s _ => ?_
  by_cases h : atSymbol table (BitVec.ofNat 8 s) = 0#64 <;> simp [h, leafOf, Option.guard]

/-- Every symbol stands in the list of the 256 symbols. -/
theorem mem_symbols (c : Byte) : c ∈ (List.range 256).map (BitVec.ofNat 8) :=
  List.mem_map.2 ⟨c.toNat, List.mem_range.2 c.isLt, by simp⟩

theorem symbols_sorted : ((List.range 256).map (BitVec.ofNat 8)).Pairwise fun c d => c.toNat < d.toNat := by
  refine List.pairwise_map.2 (List.pairwise_lt_range.imp_of_mem fun {s u} hs hu h => ?_)
  simp only [List.mem_range] at hs hu
  simpa [Nat.mod_eq_of_lt hs, Nat.mod_eq_of_lt hu] using h

theorem nodup_of_sorted {l : List Byte} (h : l.Pairwise fun c d => c.toNat < d.toNat) : l.Nodup :=
  h.imp fun hlt e => absurd (e ▸ hlt) (lt_irrefl _)

theorem mem_presentSymbols {table : SymbolTable Word} {c : Byte} :
    c ∈ presentSymbols table ↔ atSymbol table c ≠ 0#64 := by
  rw [presentSymbols, List.mem_filter, bne_iff_ne]
  exact and_iff_right (mem_symbols c)

/-- The present symbols stand in ascending order. -/
theorem presentSymbols_sorted (table : SymbolTable Word) :
    (presentSymbols table).Pairwise fun c d => c.toNat < d.toNat := symbols_sorted.filter _

theorem presentSymbols_length (table : SymbolTable Word) : (presentSymbols table).length = distinctCount table := by
  unfold presentSymbols distinctCount
  rw [symbolTable_toList, ← List.countP_eq_length_filter, List.countP_map, List.countP_map]
  rfl

theorem leaves_length (table : SymbolTable Word) : (leaves table).length = distinctCount table := by
  rw [leaves_eq_map_presentSymbols, List.length_map, presentSymbols_length]

/-- The alphabet has 256 symbols (00_scope.md R6). -/
theorem distinctCount_le (table : SymbolTable Word) : distinctCount table ≤ 256 :=
  List.countP_le_length.trans (by simp)

/-! ### The priority structure (42_tree_builder.md R121, R122) -/

@[simp] theorem extractMin_eq_none {queue : List QueueItem} : extractMin queue = none ↔ queue = [] := by
  cases queue with
  | nil => simp [extractMin]
  | cons x xs =>
    simp only [extractMin, reduceCtorEq, iff_false]
    cases extractMin xs with
    | none => simp
    | some p => obtain ⟨y, ys⟩ := p; dsimp only; split <;> simp

/-- Extracting the least item only takes an item out. -/
theorem extractMin_perm {queue rest : List QueueItem} {x : QueueItem} (h : extractMin queue = some (x, rest)) :
    queue.Perm (x :: rest) := by
  induction queue generalizing x rest with
  | nil => simp [extractMin] at h
  | cons y ys ih =>
    simp only [extractMin] at h
    split at h
    · rename_i hn
      obtain rfl := extractMin_eq_none.1 hn
      cases h
      exact .refl _
    · rename_i z zs hz
      split at h
      · cases h
        exact .refl _
      · simp only [Option.some.injEq, Prod.mk.injEq] at h
        obtain ⟨rfl, rfl⟩ := h
        exact ((ih hz).cons y).trans (.swap _ _ _)

/-! ### Merging (42_tree_builder.md R122) -/

/-- The internal node that merges two items. -/
def mergedNode (a b : QueueItem) : Node := ⟨.internal, 0#8, a.index, b.index, a.weight + b.weight⟩

/-- What every merge keeps, merging keeps; and enough rounds leave at most one item. -/
theorem mergeNodes_keeps {P : List Node → List QueueItem → Prop}
    (hmerge : ∀ {arena queue a queue₁ b queue₂}, P arena queue → extractMin queue = some (a, queue₁) →
      extractMin queue₁ = some (b, queue₂) → P (arena ++ [mergedNode a b]) (⟨a.weight + b.weight, arena.length⟩ :: queue₂))
    {rounds : Nat} {arena : List Node} {queue : List QueueItem} (h : P arena queue) (hr : queue.length ≤ rounds) :
    ∃ queue', P (mergeNodes rounds arena queue) queue' ∧ queue'.length ≤ 1 := by
  induction rounds generalizing arena queue with
  | zero => exact ⟨queue, h, by omega⟩
  | succ rounds ih =>
    simp only [mergeNodes]
    split
    · rename_i hn
      rw [extractMin_eq_none] at hn
      exact ⟨queue, h, by simp [hn]⟩
    · rename_i a queue₁ ha
      have hla := (extractMin_perm ha).length_eq
      split
      · rename_i hn
        rw [extractMin_eq_none] at hn
        exact ⟨queue, h, by simp [hla, hn]⟩
      · rename_i b queue₂ hb
        have hlb := (extractMin_perm hb).length_eq
        simp only [List.length_cons] at hla hlb
        exact ih (hmerge h ha hb) (by simp only [List.length_cons]; omega)

/-- The children of a node. -/
def Node.children (nd : Node) : List Nat :=
  match nd.kind with
  | .internal => [nd.left, nd.right]
  | .leaf | .unused => []

/-- Node nd at index i of an arena is internal as merging makes it: its children are two different earlier nodes, and
its weight is the sum of theirs (10_state.md R40, 42_tree_builder.md R122). -/
structure MergedAt (arena : List Node) (i : Nat) (nd : Node) : Prop where
  kind : nd.kind = .internal
  symbol : nd.symbol = 0#8
  left : nd.left < i
  right : nd.right < i
  different : nd.left ≠ nd.right
  weight : nd.weight = (arena.getD nd.left Node.blank).weight + (arena.getD nd.right Node.blank).weight

/-- Nodes created later do not touch a merged node. -/
theorem MergedAt.append {arena : List Node} {i : Nat} {nd : Node} (h : MergedAt arena i nd) (hi : i ≤ arena.length)
    (more : List Node) : MergedAt (arena ++ more) i nd := by
  refine { h with weight := ?_ }
  rw [List.getD_append _ _ _ _ (h.left.trans_le hi), List.getD_append _ _ _ _ (h.right.trans_le hi), h.weight]

/-- The invariant of merging, from the leaves to the root (42_tree_builder.md R121, R122): the items of the priority
structure are the nodes without a parent, each with its weight. -/
structure Merging (table : SymbolTable Word) (arena : List Node) (queue : List QueueItem) : Prop where
  size : arena.length + queue.length = 2 * distinctCount table
  live : distinctCount table ≠ 0 → queue ≠ []
  leavesFirst : leaves table <+: arena
  weights : ∀ x ∈ queue, (arena.getD x.index Node.blank).weight = x.weight
  merged : ∀ i, distinctCount table ≤ i → i < arena.length → MergedAt arena i (arena.getD i Node.blank)
  parents : (queue.map QueueItem.index ++ arena.flatMap Node.children).Perm (List.range arena.length)

/-- The items of the priority structure are nodes of the arena. -/
theorem Merging.index_lt {table : SymbolTable Word} {arena : List Node} {queue : List QueueItem}
    (h : Merging table arena queue) {x : QueueItem} (hx : x ∈ queue) : x.index < arena.length :=
  List.mem_range.1 (h.parents.subset (List.mem_append_left _ (List.mem_map_of_mem hx)))

/-- Nodes with a symbol have no children. -/
theorem leaves_children (table : SymbolTable Word) : (leaves table).flatMap Node.children = [] := by
  rw [leaves_eq_map_presentSymbols, List.flatMap_map]
  simp [leafOf, Node.children]

theorem queueOf_length (nodes : List Node) : (queueOf nodes).length = nodes.length := by simp [queueOf]

theorem queueOf_index (nodes : List Node) : (queueOf nodes).map QueueItem.index = List.range nodes.length := by
  rw [queueOf, List.map_map, List.range_eq_range']
  exact List.zipIdx_map_snd 0 nodes

theorem queueOf_weight {nodes : List Node} {x : QueueItem} (h : x ∈ queueOf nodes) :
    (nodes.getD x.index Node.blank).weight = x.weight := by
  obtain ⟨⟨nd, i⟩, hp, rfl⟩ := List.mem_map.1 h
  rw [List.mem_zipIdx_iff_getElem?] at hp
  simp only at hp
  simp [hp]

/-- Merging begins with the leaves, none of which has a parent. -/
theorem merging_leaves (table : SymbolTable Word) : Merging table (leaves table) (queueOf (leaves table)) where
  size := by rw [queueOf_length, leaves_length]; omega
  live h := by
    rw [← List.length_pos_iff_ne_nil, queueOf_length, leaves_length]
    omega
  leavesFirst := List.prefix_rfl
  weights _ := queueOf_weight
  merged i hi hl := absurd (leaves_length table ▸ hl) (by omega)
  parents := by rw [queueOf_index, leaves_children, List.append_nil]

/-- One merge keeps the invariant: two items go, and come back as the children of one. -/
theorem Merging.merge {table : SymbolTable Word} {arena : List Node} {queue queue₁ queue₂ : List QueueItem}
    {a b : QueueItem} (h : Merging table arena queue) (ha : extractMin queue = some (a, queue₁))
    (hb : extractMin queue₁ = some (b, queue₂)) :
    Merging table (arena ++ [mergedNode a b]) (⟨a.weight + b.weight, arena.length⟩ :: queue₂) := by
  have hperm : queue.Perm (a :: b :: queue₂) := (extractMin_perm ha).trans ((extractMin_perm hb).cons a)
  have hlength := hperm.length_eq
  simp only [List.length_cons] at hlength
  have hmem {x : QueueItem} (hx : x ∈ a :: b :: queue₂) : x ∈ queue := hperm.symm.subset hx
  have hla := h.index_lt (hmem (x := a) (by simp))
  have hlb := h.index_lt (hmem (x := b) (by simp))
  have hpar : (a.index :: b.index :: (queue₂.map QueueItem.index ++ arena.flatMap Node.children)).Perm
      (List.range arena.length) := ((hperm.map QueueItem.index).append_right _).symm.trans h.parents
  have hab : a.index ≠ b.index := by
    have := hpar.nodup_iff.2 List.nodup_range
    simp only [List.nodup_cons, List.mem_cons, not_or] at this
    exact this.1.1
  refine ⟨?_, fun _ => by simp, h.leavesFirst.trans (List.prefix_append _ _), ?_, ?_, ?_⟩
  · have := h.size
    simp only [List.length_append, List.length_cons, List.length_nil]
    omega
  · intro x hx
    rcases List.mem_cons.1 hx with rfl | hx
    · simp [mergedNode]
    · have hq := hmem (List.mem_cons_of_mem _ (List.mem_cons_of_mem _ hx))
      rw [List.getD_append _ _ _ _ (h.index_lt hq), h.weights x hq]
  · intro i hi hl
    by_cases hlt : i < arena.length
    · rw [List.getD_append _ _ _ _ hlt]
      exact (h.merged i hi hlt).append hlt.le _
    · obtain rfl : i = arena.length := by simp at hl; omega
      have hnew : (arena ++ [mergedNode a b]).getD arena.length Node.blank = mergedNode a b := by simp
      rw [hnew]
      refine MergedAt.append ⟨rfl, rfl, hla, hlb, hab, ?_⟩ le_rfl _
      simp only [mergedNode, h.weights a (hmem (by simp)), h.weights b (hmem (by simp))]
  · rw [List.flatMap_append, List.length_append, List.length_singleton, List.range_succ]
    have hnew : [mergedNode a b].flatMap Node.children = [a.index, b.index] := rfl
    rw [hnew, List.map_cons, ← List.append_assoc]
    refine List.Perm.trans ?_ (hpar.append_right [arena.length])
    grind

/-- BuildTree ends with the invariant of merging and the root alone in the priority structure, where there is one. -/
theorem buildTree_merging (table : SymbolTable Word) :
    ∃ queue, Merging table (buildTree table) queue ∧ queue.length ≤ 1 :=
  mergeNodes_keeps Merging.merge (merging_leaves table) (queueOf_length _).le

theorem buildTree_length (table : SymbolTable Word) : (buildTree table).length = 2 * distinctCount table - 1 := by
  obtain ⟨queue, h, hq⟩ := buildTree_merging table
  have hsize := h.size
  have hlive := h.live
  rw [← List.length_pos_iff_ne_nil] at hlive
  omega

/-! ### The arena of the tree (10_state.md R40, 42_tree_builder.md R120 to R124) -/

theorem nodeAt_buildTree (table : SymbolTable Word) (i : Nat) :
    nodeAt (arenaOf (buildTree table)) i = (buildTree table).getD i Node.blank := by
  have hn := distinctCount_le table
  have hl := buildTree_length table
  rw [nodeAt_arenaOf]
  split
  · rfl
  · rw [List.getD_eq_default _ _ (by omega)]

/-- The first nodes are the leaves. -/
theorem buildTree_leaf {table : SymbolTable Word} {i : Nat} (hi : i < distinctCount table) :
    nodeAt (arenaOf (buildTree table)) i =
      leafOf table ((presentSymbols table)[i]'(presentSymbols_length table ▸ hi)) := by
  obtain ⟨queue, h, -⟩ := buildTree_merging table
  have hi' : i < (leaves table).length := leaves_length table ▸ hi
  rw [nodeAt_buildTree, List.getD_eq_getElem?_getD, List.prefix_iff_getElem?.1 h.leavesFirst i hi', Option.getD_some]
  simp [leaves_eq_map_presentSymbols]

/-- The nodes after the leaves are merged ones. -/
theorem buildTree_merged {table : SymbolTable Word} {i : Nat} (hi : distinctCount table ≤ i)
    (hl : i < 2 * distinctCount table - 1) :
    MergedAt (buildTree table) i (nodeAt (arenaOf (buildTree table)) i) := by
  obtain ⟨queue, h, -⟩ := buildTree_merging table
  rw [nodeAt_buildTree]
  exact h.merged i hi (buildTree_length table ▸ hl)

theorem buildTree_blank {table : SymbolTable Word} {i : Nat} (hi : 2 * distinctCount table - 1 ≤ i) :
    nodeAt (arenaOf (buildTree table)) i = Node.blank := by
  rw [nodeAt_buildTree, List.getD_eq_default _ _ (buildTree_length table ▸ hi)]

theorem Node.mem_children {nd : Node} {i : Nat} :
    i ∈ nd.children ↔ nd.kind = .internal ∧ (nd.left = i ∨ nd.right = i) := by
  unfold Node.children
  cases nd.kind <;> simp [eq_comm]

theorem isChildBelow_iff {nodes : Vector Node 512} {m i p : Nat} :
    IsChildBelow nodes m i p ↔ p < m ∧ i ∈ (nodeAt nodes p).children := by
  rw [IsChildBelow, Node.mem_children]

/-- Children come before their parent in the arena. -/
theorem buildTree_child_lt {table : SymbolTable Word} {p i : Nat} (hp : p < 2 * distinctCount table - 1)
    (h : i ∈ (nodeAt (arenaOf (buildTree table)) p).children) : i < p := by
  obtain ⟨hk, hc⟩ := Node.mem_children.1 h
  by_cases hn : p < distinctCount table
  · rw [buildTree_leaf hn] at hk
    simp [leafOf] at hk
  · have hm := buildTree_merged (Nat.le_of_not_lt hn) hp
    have hleft := hm.left
    have hright := hm.right
    omega

/-- The lists of children of the nodes hold every node but the root exactly once. -/
theorem buildTree_children_perm (table : SymbolTable Word) :
    ((buildTree table).flatMap Node.children).Perm (List.range (2 * distinctCount table - 2)) := by
  obtain ⟨queue, h, hq⟩ := buildTree_merging table
  have hpar := h.parents
  rw [buildTree_length] at hpar
  by_cases hn : distinctCount table = 0
  · have hnil : buildTree table = [] := List.length_eq_zero_iff.1 (by rw [buildTree_length, hn])
    simp [hnil, hn]
  · obtain ⟨m, hm⟩ : ∃ m, 2 * distinctCount table - 2 = m := ⟨_, rfl⟩
    rw [show 2 * distinctCount table - 1 = m + 1 by omega] at hpar
    have hroot : m ∉ (buildTree table).flatMap Node.children := by
      intro hc
      obtain ⟨nd, hnd, hc⟩ := List.mem_flatMap.1 hc
      obtain ⟨p, hp, rfl⟩ := List.getElem_of_mem hnd
      have hlt : p < 2 * distinctCount table - 1 := buildTree_length table ▸ hp
      have := buildTree_child_lt hlt (i := m) (by
        rwa [nodeAt_buildTree, List.getD_eq_getElem _ _ hp])
      omega
    have hmem : m ∈ queue.map QueueItem.index := by
      have := hpar.symm.subset (List.mem_range.2 m.lt_succ_self)
      exact (List.mem_append.1 this).resolve_right hroot
    obtain ⟨x, rfl⟩ : ∃ x, queue = [x] :=
      List.length_eq_one_iff.1 (le_antisymm hq (List.length_pos_of_ne_nil (h.live hn)))
    obtain rfl : m = x.index := by simpa using hmem
    rw [List.range_succ] at hpar
    rw [hm]
    exact (hpar.trans List.perm_append_comm).cons_inv

/-- In a list of lists without repeats, an entry stands in one of them. -/
theorem existsUnique_index_of_nodup_flatMap {α β : Type} {l : List α} {f : α → List β} (h : (l.flatMap f).Nodup) {b : β}
    (hb : b ∈ l.flatMap f) (d : α) : ∃! p, p < l.length ∧ b ∈ f (l.getD p d) := by
  obtain ⟨a, ha, hba⟩ := List.mem_flatMap.1 hb
  obtain ⟨p, hp, rfl⟩ := List.getElem_of_mem ha
  have hdisjoint := List.pairwise_iff_getElem.1 (List.nodup_flatMap.1 h).2
  refine ⟨p, ⟨hp, by rwa [List.getD_eq_getElem _ _ hp]⟩, ?_⟩
  rintro q ⟨hq, hbq⟩
  rw [List.getD_eq_getElem _ _ hq] at hbq
  rcases Nat.lt_trichotomy q p with hlt | heq | hlt
  · exact absurd hba (hdisjoint q p hq hp hlt hbq)
  · exact heq
  · exact absurd hbq (hdisjoint p q hp hq hlt hba)

/-- Every node but the root has exactly one parent (42_tree_builder.md R124). -/
theorem buildTree_existsUnique_parent {table : SymbolTable Word} {i : Nat} (hi : i < 2 * distinctCount table - 2) :
    ∃! p, IsChildBelow (arenaOf (buildTree table)) (2 * distinctCount table - 1) i p := by
  have hperm := buildTree_children_perm table
  simp only [isChildBelow_iff, nodeAt_buildTree, ← buildTree_length]
  exact existsUnique_index_of_nodup_flatMap (hperm.nodup_iff.2 List.nodup_range)
    (hperm.symm.subset (List.mem_range.2 hi)) Node.blank

/-- The node count and the root index fit their registers (10_state.md R34). -/
theorem buildTree_registers (table : SymbolTable Word) :
    (BitVec.ofNat 10 (buildTree table).length).toNat = 2 * distinctCount table - 1 ∧
      (BitVec.ofNat 9 ((buildTree table).length - 1)).toNat = 2 * distinctCount table - 2 := by
  have hn := distinctCount_le table
  rw [buildTree_length, BitVec.toNat_ofNat, BitVec.toNat_ofNat, Nat.mod_eq_of_lt (by omega), Nat.mod_eq_of_lt (by omega)]
  omega

/-- Settles O30: with the invariant of merging, by which the priority structure holds exactly the nodes without a parent. -/
theorem buildTreeMakesAStrictBinaryTree : Obligations.BuildTreeMakesAStrictBinaryTree := by
  intro s hv
  have hrun : runStages (stagesOf .buildTree) s = .next _ :=
    runStages_single_next.2 (.inl ⟨_, buildTreeBody_ok.2 ⟨hv, rfl⟩, rfl⟩)
  refine ⟨_, (exec_eq_runStages _ _).trans hrun, rfl, ?_⟩
  dsimp only [State.succeed_nodes, State.succeed_nodeCount, State.succeed_root]
  refine ⟨(buildTree_registers _).1, (buildTree_registers _).2, fun i hi => ?_, fun i j hij hj => ?_, fun i hi hl => ?_,
    fun i => buildTree_blank, fun i => buildTree_existsUnique_parent⟩
  · rw [buildTree_leaf hi]
    exact ⟨rfl, rfl, rfl, rfl, mem_presentSymbols.1 (List.getElem_mem _)⟩
  · rw [buildTree_leaf hj, buildTree_leaf (hij.trans hj)]
    exact List.pairwise_iff_getElem.1 (presentSymbols_sorted _) i j _ _ hij
  · have hm := buildTree_merged hi hl
    refine ⟨hm.kind, hm.symbol, hm.left, hm.right, hm.different, ?_⟩
    simpa only [nodeAt_buildTree] using hm.weight

end Sys2Proof.Machine

/-! PROOFS. The frequency table: its sums and the records it is read from; and how much UNPACK and PACK write. -/

namespace Sys2Proof.Machine

/-! ### Sums over a table (41_freq_model.md R111, 44_bitpacker.md R152) -/

/-- The sum over the bytes is the sum over the symbols, each as often as it stands among the bytes. -/
theorem sum_count_mul (bytes : List Byte) (f : Byte → Nat) :
    (((List.range 256).map (BitVec.ofNat 8)).map fun c => bytes.count c * f c).sum = (bytes.map f).sum := by
  have hall : bytes.toFinset ⊆ ((List.range 256).map (BitVec.ofNat 8)).toFinset :=
    fun c _ => List.mem_toFinset.2 (mem_symbols c)
  rw [Finset.sum_list_map_count bytes f, ← List.sum_toFinset _ (nodup_of_sorted symbols_sorted)]
  refine (Finset.sum_subset hall fun c _ hc => ?_).symm
  rw [List.count_eq_zero_of_not_mem (fun h => hc (List.mem_toFinset.2 h)), zero_mul]

/-- The counts of fewer than 2^64 bytes are exact (00_scope.md R7). -/
theorem toNat_atSymbol_freqTable {bytes : List Byte} (h : bytes.length < 2 ^ 64) (c : Byte) :
    (atSymbol (freqTable bytes) c).toNat = bytes.count c := by
  rw [atSymbol_freqTable, BitVec.toNat_ofNat, Nat.mod_eq_of_lt (List.count_le_length.trans_lt h)]

/-- The counts sum to the number of the bytes (41_freq_model.md R111). -/
theorem freqTable_sum {bytes : List Byte} (h : bytes.length < 2 ^ 64) :
    ((freqTable bytes).toList.map BitVec.toNat).sum = bytes.length := by
  have hsum := sum_count_mul bytes fun _ => 1
  simp only [List.map_map, Function.comp_def, mul_one] at hsum
  rw [symbolTable_toList, List.map_map]
  simp only [Function.comp_def, toNat_atSymbol_freqTable h, hsum, List.map_const', List.sum_replicate, smul_eq_mul, mul_one]

/-- The meaningful bits of a frequency table are the bits the codes of the input take (44_bitpacker.md R152). -/
theorem meaningfulBits_freqTable {bytes : List Byte} (h : bytes.length < 2 ^ 64) (len : SymbolTable (BitVec 8))
    (bits : SymbolTable (BitVec 256)) : meaningfulBits (freqTable bytes) len = (encodeBits len bits bytes).length := by
  have hsum := sum_count_mul bytes fun c => (atSymbol len c).toNat
  rw [List.map_map] at hsum
  simp only [meaningfulBits_eq, toNat_atSymbol_freqTable h, encodeBits, List.length_flatMap, codeBitList_length]
  exact hsum

/-- The sum of a table is the sum over its present symbols. -/
theorem table_sum_eq (table : SymbolTable Word) :
    (table.toList.map BitVec.toNat).sum = ((presentSymbols table).map fun c => (atSymbol table c).toNat).sum := by
  have hfilter : ∀ l : List Byte, ((l.filter fun c => atSymbol table c != 0#64).map fun c => (atSymbol table c).toNat).sum =
      (l.map fun c => (atSymbol table c).toNat).sum := by
    intro l
    induction l with
    | nil => rfl
    | cons c l ih => by_cases h : atSymbol table c = 0#64 <;> simp [h, ih]
  rw [presentSymbols, hfilter, symbolTable_toList, List.map_map, List.map_map]
  rfl

/-! ### The records of a container (46_container.md R194 to R197) -/

theorem leValue_lt (bytes : List Byte) : leValue bytes < 256 ^ bytes.length := by
  induction bytes with
  | nil => simp [leValue]
  | cons b bytes ih =>
    have hb : b.toNat < 256 := b.isLt
    rw [leValue, List.length_cons, pow_succ]
    omega

/-- A field of the container is a 64-bit value. -/
theorem readU64_lt {mem : Memory} {a v : Nat} (h : readU64 mem a = .ok v) : v < 2 ^ 64 := by
  unfold readU64 at h
  cases hb : mem.coreRead a 8 with
  | error r => simp [hb, Except.map] at h
  | ok bytes =>
    simp only [hb, Except.map, Except.ok.injEq] at h
    have hlt := leValue_lt bytes
    rw [Memory.coreRead_length hb] at hlt
    omega

theorem readHeader_ok {mem : Memory} {k og : Nat} :
    readHeader mem = .ok (k, og) ↔ readU64 mem 0 = .ok k ∧ readU64 mem 8 = .ok og := by
  unfold readHeader
  cases readU64 mem 0 with
  | error r => simp
  | ok k' => cases readU64 mem 8 <;> simp

theorem readRecord_ok {mem : Memory} {a : Nat} {x : Byte × Nat} :
    readRecord mem a = .ok x ↔ readByte mem a = .ok x.1 ∧ readU64 mem (a + 1) = .ok x.2 := by
  unfold readRecord
  cases readByte mem a with
  | error r => simp
  | ok c => cases readU64 mem (a + 1) <;> simp [Prod.ext_iff]

theorem readRecords_succ_ok {mem : Memory} {a k : Nat} {records : List (Byte × Nat)} :
    readRecords mem a (k + 1) = .ok records ↔
      ∃ x xs, records = x :: xs ∧ readRecord mem a = .ok x ∧ readRecords mem (a + recordBytes) k = .ok xs := by
  simp only [readRecords]
  cases readRecord mem a with
  | error r => simp
  | ok x => cases readRecords mem (a + recordBytes) k <;> simp [eq_comm]

/-- As many records are read as the header claims, each with a 64-bit frequency. -/
theorem readRecords_ok {mem : Memory} {a k : Nat} {records : List (Byte × Nat)} (h : readRecords mem a k = .ok records) :
    records.length = k ∧ ∀ r ∈ records, r.2 < 2 ^ 64 := by
  induction k generalizing a records with
  | zero =>
    simp only [readRecords, Except.ok.injEq] at h
    simp [← h]
  | succ k ih =>
    obtain ⟨x, xs, rfl, hx, hxs⟩ := readRecords_succ_ok.1 h
    obtain ⟨hl, hlt⟩ := ih hxs
    exact ⟨by rw [List.length_cons, hl], List.forall_mem_cons.2 ⟨readU64_lt (readRecord_ok.1 hx).2, hlt⟩⟩

theorem duplicateSymbol_eq_false {records : List (Byte × Nat)} :
    duplicateSymbol records = false ↔ (records.map Prod.fst).Nodup := by
  induction records with
  | nil => simp [duplicateSymbol]
  | cons x xs ih =>
    simp only [duplicateSymbol, Bool.or_eq_false_iff, ih, List.map_cons, List.nodup_cons]
    refine and_congr_left fun _ => ?_
    simp only [List.any_eq_false, beq_iff_eq, List.mem_map, not_exists, not_and]

/-- The records make a frequency table of og symbols (46_container.md R195). -/
theorem inconsistentRecords_eq_false {records : List (Byte × Nat)} {og : Nat} :
    inconsistentRecords records og = false ↔ records ≠ [] ∧ (∀ r ∈ records, r.2 ≠ 0) ∧ (records.map Prod.fst).Nodup ∧
      (records.map Prod.snd).sum = og := by
  simp only [inconsistentRecords, Bool.or_eq_false_iff, duplicateSymbol_eq_false, List.isEmpty_eq_false_iff,
    List.any_eq_false, beq_iff_eq, bne_eq_false_iff_eq, and_assoc]

theorem atSymbol_foldl_setSymbol_of_not_mem {records : List (Byte × Nat)} {c : Byte} (h : c ∉ records.map Prod.fst)
    (t : SymbolTable Word) :
    atSymbol (records.foldl (fun t r => setSymbol t r.1 (BitVec.ofNat 64 r.2)) t) c = atSymbol t c := by
  induction records generalizing t with
  | nil => rfl
  | cons x xs ih =>
    simp only [List.map_cons, List.mem_cons, not_or] at h
    rw [List.foldl_cons, ih h.2, atSymbol_setSymbol_other _ _ h.1]

theorem atSymbol_foldl_setSymbol_of_mem {records : List (Byte × Nat)} (hn : (records.map Prod.fst).Nodup)
    {r : Byte × Nat} (h : r ∈ records) (t : SymbolTable Word) :
    atSymbol (records.foldl (fun t r => setSymbol t r.1 (BitVec.ofNat 64 r.2)) t) r.1 = BitVec.ofNat 64 r.2 := by
  induction records generalizing t with
  | nil => simp at h
  | cons x xs ih =>
    rw [List.map_cons, List.nodup_cons] at hn
    rcases List.mem_cons.1 h with rfl | h
    · rw [List.foldl_cons, atSymbol_foldl_setSymbol_of_not_mem hn.1, atSymbol_setSymbol_same]
    · exact ih hn.2 h _

/-- A symbol without a record has frequency 0 (46_container.md R196). -/
theorem atSymbol_tableOfRecords_of_not_mem {records : List (Byte × Nat)} {c : Byte} (h : c ∉ records.map Prod.fst) :
    atSymbol (tableOfRecords records) c = 0#64 :=
  (atSymbol_foldl_setSymbol_of_not_mem h _).trans (atSymbol_replicate _ _)

/-- Each frequency stands at its symbol's index (46_container.md R196). -/
theorem atSymbol_tableOfRecords_of_mem {records : List (Byte × Nat)} (hn : (records.map Prod.fst).Nodup) {r : Byte × Nat}
    (h : r ∈ records) : atSymbol (tableOfRecords records) r.1 = BitVec.ofNat 64 r.2 :=
  atSymbol_foldl_setSymbol_of_mem hn h _

theorem presentSymbols_nodup (table : SymbolTable Word) : (presentSymbols table).Nodup :=
  nodup_of_sorted (presentSymbols_sorted table)

section
variable {records : List (Byte × Nat)} (hn : (records.map Prod.fst).Nodup) (hpos : ∀ r ∈ records, r.2 ≠ 0)
  (hlt : ∀ r ∈ records, r.2 < 2 ^ 64)
include hn hpos hlt

/-- The present symbols of the table of consistent records are those of the records. -/
theorem presentSymbols_tableOfRecords : (presentSymbols (tableOfRecords records)).Perm (records.map Prod.fst) := by
  refine (List.perm_ext_iff_of_nodup (presentSymbols_nodup _) hn).2 fun c => ?_
  rw [mem_presentSymbols]
  refine ⟨fun h => by_contra fun hc => h (atSymbol_tableOfRecords_of_not_mem hc), fun h => ?_⟩
  obtain ⟨r, hr, rfl⟩ := List.mem_map.1 h
  rw [atSymbol_tableOfRecords_of_mem hn hr]
  intro h0
  have hmod : (BitVec.ofNat 64 r.2).toNat = r.2 := Nat.mod_eq_of_lt (hlt r hr)
  exact hpos r hr (by rw [← hmod, h0]; rfl)

theorem distinctCount_tableOfRecords : distinctCount (tableOfRecords records) = records.length := by
  rw [← presentSymbols_length, (presentSymbols_tableOfRecords hn hpos hlt).length_eq, List.length_map]

theorem tableOfRecords_sum : ((tableOfRecords records).toList.map BitVec.toNat).sum = (records.map Prod.snd).sum := by
  rw [table_sum_eq, ((presentSymbols_tableOfRecords hn hpos hlt).map _).sum_eq, List.map_map]
  refine congrArg List.sum (List.map_congr_left fun r hr => ?_)
  rw [Function.comp_apply, atSymbol_tableOfRecords_of_mem hn hr, BitVec.toNat_ofNat, Nat.mod_eq_of_lt (hlt r hr)]

end

/-! ### The output of UNPACK and PACK -/

/-- The decode walk answers as many bytes as were to be decoded (45_bitunpacker.md R172). -/
theorem decodeWalk_length {mem : Memory} {nodes : Vector Node 512} {root off bitsLeft t pos need used : Nat}
    {out : List Byte} (h : decodeWalk mem nodes root off bitsLeft t pos need = .ok (out, used)) : out.length = need := by
  induction bitsLeft generalizing t pos need out used with
  | zero => cases need <;> simp_all [decodeWalk]
  | succ bitsLeft ih =>
    cases need with
    | zero => simp_all [decodeWalk]
    | succ need =>
      simp only [decodeWalk] at h
      split at h
      · simp at h
      · split at h
        · split at h
          · rename_i hr
            simp only [Except.ok.injEq, Prod.mk.injEq] at h
            rw [← h.1, List.length_cons, ih hr]
          · simp at h
        · exact ih h
        · exact ih h

/-- The decode walk of a single leaf answers as many bytes as were to be decoded (45_bitunpacker.md R173). -/
theorem decodeSingle_length {mem : Memory} {symbol : Byte} {off bitsLeft t need used : Nat} {out : List Byte}
    (h : decodeSingle mem symbol off bitsLeft t need = .ok (out, used)) : out.length = need := by
  induction bitsLeft generalizing t need out used with
  | zero => cases need <;> simp_all [decodeSingle]
  | succ bitsLeft ih =>
    cases need with
    | zero => simp_all [decodeSingle]
    | succ need =>
      simp only [decodeSingle] at h
      split at h
      · simp at h
      · split at h
        · rename_i hr
          simp only [Except.ok.injEq, Prod.mk.injEq] at h
          rw [← h.1, List.length_cons, ih hr]
        · simp at h

theorem decodePayload_length {s : State} {out : List Byte} {used : Nat} (h : s.decodePayload = .ok (out, used)) :
    out.length = s.ogSize.toNat := by
  unfold State.decodePayload at h
  split at h
  · exact decodeSingle_length h
  · exact decodeWalk_length h

/-- Bytes written from address a on are written. -/
theorem Memory.writeBytes_written (m : Memory) (a : Nat) (bytes : List Byte) :
    (m.writeBytes a bytes).WrittenFrom a bytes.length := by
  intro j hj
  rw [Memory.read_writeBytes, if_pos (by omega), Nat.add_sub_cancel_left, List.getElem?_eq_getElem hj]
  rfl

/-- Header, records and payload stand end to end, so together they are one range of bytes (46_container.md R191). -/
theorem serialize_eq_writeBytes (m : Memory) (og : Word) (freq : SymbolTable Word) (payload : List Byte) :
    serialize m (distinctCount freq) og freq payload =
      m.writeBytes 0 (headerAndRecords (distinctCount freq) og freq ++ payload) := by
  rw [Memory.writeBytes_append, headerAndRecords_length, recordsOf_length, Nat.zero_add]
  rfl

end Sys2Proof.Machine

/-! PROOFS. The invariant: it holds at reset, and every stage, completion and host operation keeps it. -/

namespace Sys2Proof.Machine

/-! ### The invariant where nothing it speaks of changes, and where the table is gone -/

/-- A state with STATUS and memories in order and no frequency table meets the invariant (10_state.md R27). -/
theorem State.Inv.of_no_table {s : State} (hcfg : s.cfg.wf = true) (hstatus : s.StatusOk) (hmemory : s.MemoryOk)
    (hfaults : s.faults.Nodup) (hnone : s.status.freqValid = false) : s.Inv where
  parameters := hcfg
  status := hstatus
  memory := hmemory
  table h := absurd h (by simp [hnone])
  tree h := absurd (hstatus.treeNeedsTable h) (by simp [hnone])
  codes h := absurd (hstatus.treeNeedsTable (hstatus.codesNeedTree h)) (by simp [hnone])
  faultsDistinct := hfaults

/-- The frequency table stays sound while it, its flags and the input it came from are kept. -/
theorem State.TableOk.of_keeps {s t : State} (h : s.TableOk) (hcfg : t.cfg = s.cfg) (hlen : t.inLen = s.inLen)
    (hmem : t.inMem = s.inMem) (hkeeps : State.KeepsTable s t)
    (hoff : s.status.freqSrc = true → t.payloadOff = s.payloadOff) : t.TableOk := by
  obtain ⟨hfreq, hdistinct, hsize, -, hsrc⟩ := hkeeps
  refine ⟨by rw [hdistinct, hfreq, h.distinctIsCount], by rw [hfreq, hsize, h.sumIsSize], fun hs => ?_, fun hs => ?_⟩
  · obtain ⟨h₁, h₂, h₃⟩ := h.ofInput (hsrc ▸ hs)
    constructor <;> simpa only [hfreq, hsize, hcfg, hlen, hmem]
  · obtain ⟨h₁, h₂, h₃, h₄, h₅⟩ := h.ofContainer (hsrc ▸ hs)
    constructor <;> simpa only [hfreq, hdistinct, hsize, hcfg, hlen, hmem, hoff (hsrc ▸ hs)]

theorem State.TreeOk.of_keeps {s t : State} (h : s.TreeOk) (hfreq : t.freq = s.freq) (hkeeps : State.KeepsTree s t) :
    t.TreeOk := by
  obtain ⟨hnodes, hcount, hroot⟩ := hkeeps
  obtain ⟨h₁, h₂, h₃⟩ := h
  constructor <;> simpa only [hfreq, hnodes, hcount, hroot]

theorem State.CodesOk.of_keeps {s t : State} (h : s.CodesOk) (hfreq : t.freq = s.freq) (hkeeps : State.KeepsCodes s t) :
    t.CodesOk := by
  obtain ⟨hlen, hbits⟩ := hkeeps
  obtain ⟨h₁, h₂⟩ := h
  constructor <;> simpa only [hfreq, hlen, hbits]

/-- What the invariant says of the table, the tree and the codes is kept with them. -/
theorem State.Inv.of_keeps {s t : State} (h : s.Inv) (hcfg : t.cfg = s.cfg) (hlen : t.inLen = s.inLen)
    (hmem : t.inMem = s.inMem) (htable : State.KeepsTable s t) (htree : State.KeepsTree s t)
    (hcodes : State.KeepsCodes s t) (hoff : s.status.freqSrc = true → t.payloadOff = s.payloadOff)
    (hflags : t.status.flags = s.status.flags) (hfaults : t.faults.Nodup) (hstatus : t.StatusOk)
    (hmemory : t.MemoryOk) : t.Inv := by
  simp only [Status.flags, Prod.mk.injEq] at hflags
  obtain ⟨hfv, htv, hcv, -⟩ := hflags
  exact {
    parameters := hcfg ▸ h.parameters
    status := hstatus
    memory := hmemory
    table := fun hv => (h.table (hfv ▸ hv)).of_keeps hcfg hlen hmem htable hoff
    tree := fun hv => (h.tree (htv ▸ hv)).of_keeps htable.freq htree
    codes := fun hv => (h.codes (hcv ▸ hv)).of_keeps htable.freq hcodes
    faultsDistinct := hfaults }

/-- A change of STATUS and PENDING that keeps the flags. -/
theorem State.Inv.with_status {s : State} (h : s.Inv) {st : Status} {p : Option Word}
    (hflags : st.flags = s.status.flags) (hstatus : State.StatusOk { s with status := st, pending := p }) :
    State.Inv { s with status := st, pending := p } := by
  have hf := hflags
  simp only [Status.flags, Prod.mk.injEq] at hf
  exact h.of_keeps rfl rfl rfl ⟨rfl, rfl, rfl, hf.1, hf.2.2.2⟩ ⟨rfl, rfl, rfl⟩ ⟨rfl, rfl⟩ (fun _ => rfl) hflags
    h.faultsDistinct hstatus { h.memory with }

/-- INT_EN, FAULT and the host's side do not matter to the invariant, but that FAULT has no repeats. -/
theorem State.Inv.with_host_side {s : State} (h : s.Inv) (ie : Bool) {faults : List Fault} (hfaults : faults.Nodup)
    (prog : List HostOp) (sched : List Agent) (reads : List Word) (draws : Nat) :
    State.Inv { s with
      doneIe := ie, faults := faults, hostProg := prog, sched := sched, hostReads := reads, drawCount := draws } :=
  h.of_keeps rfl rfl rfl ⟨rfl, rfl, rfl, rfl, rfl⟩ ⟨rfl, rfl, rfl⟩ ⟨rfl, rfl⟩ (fun _ => rfl) rfl hfaults { h.status with }
    { h.memory with }

/-! ### Reset (10_state.md R45) -/

theorem chip_wf : Config.chip.wf = true := by
  have hcap : ∀ v : BitVec 56, (BitVec.ofNat 64 (v.toNat + 1)).toNat = v.toNat + 1 := by
    intro v
    rw [BitVec.toNat_ofNat, Nat.mod_eq_of_lt (by omega)]
  have hin := Config.inCapLessOne.isLt
  have hout := Config.outCapLessOne.isLt
  simp only [Config.wf, Config.chip, hcap, maxCap, Bool.and_eq_true, decide_eq_true_eq]
  omega

/-- No byte of an output of length 0 has to be written. -/
theorem written_zero (m : Memory) (a : Nat) : m.WrittenFrom a 0 := fun _ hj => absurd hj (Nat.not_lt_zero _)

/-- The reset action reaches the invariant from every legal configuration. -/
theorem resetAction_inv {s : State} (hcfg : s.cfg.wf = true) (hfaults : s.faults.Nodup) : s.resetAction.Inv :=
  State.Inv.of_no_table hcfg
    ⟨rfl, rfl, fun _ => rfl, rfl, nofun, nofun, nofun⟩
    ⟨rfl, rfl, rfl, rfl, Nat.zero_le _, written_zero _ _⟩ hfaults rfl

/-- Settles O11: the reset state is its own reset. -/
theorem invariantHoldsAtReset : Obligations.InvariantHoldsAtReset :=
  resetAction_inv (s := State.reset) chip_wf List.nodup_nil

/-! ### The stage bodies keep the invariant -/

theorem freqBody_keeps_inv {s u : State} (h : s.Inv) (hu : freqBody s = .ok u) : u.Inv := by
  obtain ⟨hl, bytes, hb, rfl⟩ := freqBody_ok.1 hu
  have hlen := Memory.coreRead_length hb
  have hlt : bytes.length < 2 ^ 64 := hlen ▸ s.inLen.isLt
  have hd := distinctCount_le (freqTable bytes)
  exact {
    parameters := h.parameters
    status := { h.status with
      treeNeedsTable := fun _ => rfl
      codesNeedTree := fun hc => by simp at hc
      sourceNeedsTable := fun _ => rfl }
    memory := { h.memory with }
    table := fun _ => {
      distinctIsCount := by simp only [BitVec.toNat_ofNat]; exact Nat.mod_eq_of_lt (by omega)
      sumIsSize := (freqTable_sum hlt).trans hlen
      ofInput := fun _ => ⟨rfl, hl, bytes, hb, rfl⟩
      ofContainer := fun hs => by simp at hs }
    tree := fun ht => by simp at ht
    codes := fun hc => by simp at hc
    faultsDistinct := h.faultsDistinct }

theorem buildTreeBody_keeps_inv {s u : State} (h : s.Inv) (hu : buildTreeBody s = .ok u) : u.Inv := by
  obtain ⟨hv, rfl⟩ := buildTreeBody_ok.1 hu
  obtain ⟨hcount, hroot⟩ := buildTree_registers s.freq
  have hsize : treeSize s.freq = 2 * distinctCount s.freq - 1 := buildTree_length _
  exact {
    parameters := h.parameters
    status := { h.status with
      treeNeedsTable := fun _ => hv
      codesNeedTree := fun _ => rfl }
    memory := { h.memory with }
    table := fun hv => (h.table hv).of_keeps rfl rfl rfl ⟨rfl, rfl, rfl, rfl, rfl⟩ fun _ => rfl
    tree := fun _ => ⟨rfl, hcount.trans hsize.symm, hroot.trans (by rw [hsize]; omega)⟩
    codes := fun hc => by simp at hc
    faultsDistinct := h.faultsDistinct }

/-- The code table of the current tree is the code table of the frequency table. -/
theorem State.TreeOk.treeCodes_eq {s : State} (h : s.TreeOk) : s.treeCodes = codesOfTable s.freq := by
  rw [State.treeCodes, h.arena, h.count, h.rootIsLast, codesOfTable]

theorem genCodesBody_keeps_inv {s u : State} (h : s.Inv) (hu : genCodesBody s = .ok u) : u.Inv := by
  obtain ⟨hv, rfl⟩ := genCodesBody_ok.1 hu
  have hcodes := (h.tree hv).treeCodes_eq
  exact {
    parameters := h.parameters
    status := { h.status with codesNeedTree := fun _ => hv }
    memory := { h.memory with }
    table := fun hv => (h.table hv).of_keeps rfl rfl rfl ⟨rfl, rfl, rfl, rfl, rfl⟩ fun _ => rfl
    tree := fun hv => (h.tree hv).of_keeps rfl ⟨rfl, rfl, rfl⟩
    codes := fun _ => ⟨congrArg CodeTable.len hcodes, congrArg CodeTable.bits hcodes⟩
    faultsDistinct := h.faultsDistinct }

/-- An output written from the start of OUT_MEM, with OUT_LEN its length, keeps the memories in order
(10_state.md R42). -/
theorem State.MemoryOk.write_output {s t : State} (h : s.MemoryOk) {bytes : List Byte} (hcfg : t.cfg = s.cfg)
    (hin : t.inMem = s.inMem) (hout : t.outMem = s.outMem.writeBytes 0 bytes) (hlen : t.outLen.toNat = bytes.length)
    (hfits : bytes.length ≤ s.cfg.outCap.toNat) : t.MemoryOk where
  inCanonical := hin ▸ h.inCanonical
  outCanonical := hout ▸ Memory.writeBytes_wf h.outCanonical _ _
  inInside := by rw [hin, hcfg]; exact h.inInside
  outInside := by rw [hout, hcfg]; exact Memory.writeBytes_below h.outInside (by omega)
  outLenInside := by rwa [hlen, hcfg]
  outLenWritten := by rw [hout, hlen]; exact Memory.writeBytes_written _ _ _

/-- Under the invariant a table counted from the input is the table of the bytes the core reads. -/
theorem State.Inv.freq_of_coreRead {s : State} (h : s.Inv) (hv : s.status.freqValid = true) (hs : s.status.freqSrc = false)
    {bytes : List Byte} (hb : s.inMem.coreRead 0 s.ogSize.toNat = .ok bytes) : s.freq = freqTable bytes := by
  have hinput := (h.table hv).ofInput hs
  obtain ⟨bytes', hb', hfreq⟩ := hinput.tableOfBytes
  rw [← hinput.sizeIsLength, hb] at hb'
  cases hb'
  exact hfreq

theorem packBody_keeps_inv {s u : State} (h : s.Inv) (hu : packBody s = .ok u) : u.Inv := by
  obtain ⟨hc, hs, -, hfits, bytes, hb, rfl⟩ := packBody_ok.1 hu
  have hv := h.status.treeNeedsTable (h.status.codesNeedTree hc)
  have hdistinct := (h.table hv).distinctIsCount
  have hlt : bytes.length < 2 ^ 64 := Memory.coreRead_length hb ▸ s.ogSize.isLt
  have hlength : (headerAndRecords (distinctCount s.freq) s.ogSize s.freq ++
      packBits (encodeBits s.codeLen s.codeBits bytes)).length = s.packLength := by
    rw [List.length_append, headerAndRecords_length, recordsOf_length, packBits_length,
      ← meaningfulBits_freqTable hlt s.codeLen, ← h.freq_of_coreRead hv hs hb, State.packLength, hdistinct]
    rfl
  refine h.of_keeps rfl rfl rfl ⟨rfl, rfl, rfl, rfl, rfl⟩ ⟨rfl, rfl, rfl⟩ ⟨rfl, rfl⟩ (fun hs' => ?_) rfl h.faultsDistinct
    { h.status with } (h.memory.write_output rfl rfl (by rw [hdistinct]; exact serialize_eq_writeBytes _ _ _ _) ?_ ?_)
  · simp [hs] at hs'
  · rw [hlength, BitVec.toNat_ofNat, Nat.mod_eq_of_lt (hfits.trans_lt s.cfg.outCap.isLt)]
  · rwa [hlength]

theorem deserializeBody_keeps_inv {s u : State} (h : s.Inv) (hu : deserializeBody s = .ok u) : u.Inv := by
  obtain ⟨hl, hheader, k, og, records, hk, hle, hr, hi, rfl⟩ := deserializeBody_ok.1 hu
  obtain ⟨hlength, hlt⟩ := readRecords_ok hr
  obtain ⟨hne, hpos, hn, hsum⟩ := inconsistentRecords_eq_false.1 hi
  have hcount := distinctCount_tableOfRecords hn hpos hlt
  have hk256 := distinctCount_le (tableOfRecords records)
  have hkval : (BitVec.ofNat 9 k).toNat = k := Nat.mod_eq_of_lt (by omega)
  have hogval : (BitVec.ofNat 64 og).toNat = og := Nat.mod_eq_of_lt (readU64_lt (readHeader_ok.1 hk).2)
  have hinside : recordOffset k ≤ s.inLen.toNat := by
    simp only [recordOffset, headerBytes, recordBytes] at *
    omega
  have hoff : (BitVec.ofNat 64 (recordOffset k)).toNat = recordOffset k :=
    Nat.mod_eq_of_lt (hinside.trans_lt s.inLen.isLt)
  have hsize : 1 ≤ og := by
    obtain ⟨r, rest, rfl⟩ := List.exists_cons_of_ne_nil hne
    have := hpos r List.mem_cons_self
    rw [List.map_cons, List.sum_cons] at hsum
    omega
  exact {
    parameters := h.parameters
    status := { h.status with
      treeNeedsTable := fun _ => rfl
      codesNeedTree := fun hc => by simp at hc
      sourceNeedsTable := fun _ => rfl }
    memory := { h.memory with }
    table := fun _ => {
      distinctIsCount := by rw [hkval, hcount, hlength]
      sumIsSize := by rw [tableOfRecords_sum hn hpos hlt, hogval, hsum]
      ofInput := fun hs => by simp at hs
      ofContainer := fun _ => {
        sizePositive := hsize.trans_eq hogval.symm
        lengthInside := hl
        payloadOffset := by rw [hoff, hkval]
        recordsInside := by rwa [hkval]
        tableOfRecords := ⟨records, by rwa [hkval], by rwa [hogval], rfl⟩ } }
    tree := fun ht => by simp at ht
    codes := fun hc => by simp at hc
    faultsDistinct := h.faultsDistinct }

theorem unpackBody_keeps_inv {s u : State} (h : s.Inv) (hu : unpackBody s = .ok u) : u.Inv := by
  obtain ⟨-, -, hfits, out, used, hd, rfl⟩ := unpackBody_ok.1 hu
  have hlength := decodePayload_length hd
  exact h.of_keeps rfl rfl rfl ⟨rfl, rfl, rfl, rfl, rfl⟩ ⟨rfl, rfl, rfl⟩ ⟨rfl, rfl⟩ (fun _ => rfl) rfl h.faultsDistinct
    { h.status with } (h.memory.write_output rfl rfl rfl hlength.symm (hlength.trans_le hfits))

theorem clearBody_keeps_inv {s u : State} (h : s.Inv) (hu : clearBody s = .ok u) : u.Inv := by
  cases hu
  refine State.Inv.of_no_table h.parameters ?_ ?_ h.faultsDistinct rfl
  · exact { h.status with
      treeNeedsTable := fun ht => by simp at ht
      codesNeedTree := fun hc => by simp at hc
      sourceNeedsTable := fun hs => by simp at hs }
  · exact { h.memory with outLenInside := Nat.zero_le _, outLenWritten := written_zero _ _ }

/-! ### Completion and the commands keep the invariant -/

theorem succeed_keeps_inv {s : State} (h : s.Inv) : s.succeed.Inv :=
  h.with_status rfl { h.status with
    busyIffPending := rfl, busyNotDone := rfl, stageOfNoError := fun _ => rfl, lastCmdOfPending := rfl }

theorem errorCompletion_keeps_inv {s : State} (h : s.Inv) {e : ErrKind} (he : e ≠ .noError) (stage : BitVec 4) :
    (s.errorCompletion e stage).Inv :=
  h.of_keeps rfl rfl rfl ⟨rfl, rfl, rfl, rfl, rfl⟩ ⟨rfl, rfl, rfl⟩ ⟨rfl, rfl⟩ (fun _ => rfl) rfl h.faultsDistinct
    { h.status with
      busyIffPending := rfl, busyNotDone := rfl, stageOfNoError := fun h0 => absurd h0 he, lastCmdOfPending := rfl }
    { h.memory with outLenInside := Nat.zero_le _, outLenWritten := written_zero _ _ }

/-- What every stage of a list keeps, and its completion with success or with an error the stage raises, the run of the list
keeps. -/
theorem runStages_keeps_of_raised {P : State → Prop} {bodies : List StageBody}
    (hbody : ∀ body ∈ bodies, ∀ {s u}, P s → body s = .ok u → P u) (hsucceed : ∀ {s}, P s → P s.succeed)
    (herror : ∀ body ∈ bodies, ∀ {s e stage}, P s → body s = .error (.raised e stage) → P (s.errorCompletion e stage))
    {s t : State} (hs : P s) (h : runStages bodies s = .next t) : P t := by
  induction bodies generalizing s with
  | nil =>
    rw [runStages_nil, Host.Outcome.next.injEq] at h
    exact h ▸ hsucceed hs
  | cons body rest ih =>
    rcases runStages_cons_next.1 h with ⟨u, hu, hrest⟩ | ⟨e, stage, he, rfl⟩
    · exact ih (fun b hb => hbody b (List.mem_cons_of_mem _ hb)) (fun b hb => herror b (List.mem_cons_of_mem _ hb))
        (hbody body List.mem_cons_self hs hu) hrest
    · exact herror body List.mem_cons_self hs he

/-- The stage bodies of the block (47_control.md R212, R213). -/
def stageBodies : List StageBody :=
  [freqBody, buildTreeBody, genCodesBody, packBody, deserializeBody, unpackBody, clearBody]

theorem stagesOf_subset (i : Instr) : stagesOf i ⊆ stageBodies := by
  cases i <;> simp [stagesOf, stageBodies]

theorem stageBody_keeps_inv {body : StageBody} (hb : body ∈ stageBodies) {s u : State} (h : s.Inv)
    (hu : body s = .ok u) : u.Inv := by
  simp only [stageBodies, List.mem_cons, List.not_mem_nil, or_false] at hb
  rcases hb with rfl | rfl | rfl | rfl | rfl | rfl | rfl
  exacts [freqBody_keeps_inv h hu, buildTreeBody_keeps_inv h hu, genCodesBody_keeps_inv h hu, packBody_keeps_inv h hu,
    deserializeBody_keeps_inv h hu, unpackBody_keeps_inv h hu, clearBody_keeps_inv h hu]

/-- A stage raises an error other than NONE (60_exceptions.md R230). -/
theorem stageBody_raised_ne_noError {body : StageBody} (hb : body ∈ stageBodies) {s : State} {e : ErrKind}
    {stage : BitVec 4} (h : body s = .error (.raised e stage)) : e ≠ .noError := by
  simp only [stageBodies, List.mem_cons, List.not_mem_nil, or_false] at hb
  rcases hb with rfl | rfl | rfl | rfl | rfl | rfl | rfl
  · simp [(freqBody_raised.1 h).2.1]
  · simp [(buildTreeBody_raised.1 h).2.1]
  · simp [(genCodesBody_raised.1 h).2.1]
  · rcases (packBody_raised h).2 with rfl | rfl | rfl <;> simp
  · rcases (deserializeBody_raised h).2 with rfl | rfl | rfl <;> simp
  · rcases (unpackBody_raised h).2 with rfl | rfl | rfl <;> simp
  · simp [clearBody] at h

theorem exec_keeps_inv {i : Instr} {s t : State} (h : s.Inv) (ht : exec i s = .next t) : t.Inv := by
  rw [exec_eq_runStages] at ht
  exact runStages_keeps_of_raised (fun body hb => stageBody_keeps_inv (stagesOf_subset i hb)) succeed_keeps_inv
    (fun body hb _ _ stage h he =>
      errorCompletion_keeps_inv h (stageBody_raised_ne_noError (stagesOf_subset i hb) he) stage) h ht

theorem coreMove_keeps_inv {s t : State} (h : s.Inv) (ht : coreMove s = .next t) : t.Inv := by
  unfold coreMove at ht
  split at ht
  · cases ht
    exact h
  · split at ht
    · exact exec_keeps_inv h ht
    · cases ht
      exact errorCompletion_keeps_inv h (by simp) _

/-! ### The host's operations keep the invariant -/

/-- Writing the input clears every flag, so only STATUS and the memories have to be in order afterwards
(20_memory.md R66). -/
theorem State.Inv.write_input {s : State} (h : s.Inv) (v : Word) {m : Memory} (hcanonical : m.wf = true)
    (hinside : m.below s.cfg.inCap.toNat = true) : State.Inv { s.invalidate with inLen := v, inMem := m } :=
  State.Inv.of_no_table h.parameters
    { h.status with treeNeedsTable := nofun, codesNeedTree := nofun, sourceNeedsTable := nofun }
    { h.memory with inCanonical := hcanonical, inInside := hinside } h.faultsDistinct rfl

/-- The acceptance of a command by an idle block sets BUSY and PENDING together; a dropped one changes neither
(47_control.md R210, R211). -/
theorem writeCtrl_keeps_inv {s : State} (h : s.Inv) (v : Word) : (s.writeCtrl v).Inv := by
  unfold State.writeCtrl
  split
  · exact h.with_status rfl { h.status with }
  · exact h.with_status rfl { h.status with
      busyIffPending := rfl, busyNotDone := rfl, lastCmdOfPending := by simp }

theorem writeOneToClear_keeps_inv {s : State} (h : s.Inv) (v : Word) :
    State.Inv { s with status := s.status.writeOneToClear v } := by
  refine h.with_status rfl { h.status with busyNotDone := ?_ }
  have hb := h.status.busyNotDone
  cases hbusy : s.status.busy <;> simp_all

theorem hostRegWrite_keeps_inv {n : BitVec 16} {v : Word} {s t : State} (h : s.Inv) (ht : hostRegWrite n v s = .next t) :
    t.Inv := by
  rcases hostRegWrite_next ht with ⟨-, rfl⟩ | ⟨-, rfl⟩ | ⟨-, rfl⟩ | ⟨-, rfl⟩ | ⟨-, rfl⟩
  · exact writeCtrl_keeps_inv h v
  · exact writeOneToClear_keeps_inv h v
  · exact h.with_host_side (v.getLsbD 0) h.faultsDistinct s.hostProg s.sched s.hostReads s.drawCount
  · exact h.write_input v h.memory.inCanonical h.memory.inInside
  · exact h

theorem hostInWrite_keeps_inv {a : Nat} {b : Byte} {s t : State} (h : s.Inv) (ht : hostInWrite a b s = .next t) :
    t.Inv := by
  unfold hostInWrite at ht
  split at ht
  · cases ht
  · rename_i ha
    split at ht
    · cases ht
    · cases ht
      exact h.write_input s.inLen (Memory.write_wf h.memory.inCanonical a b)
        (Memory.write_below h.memory.inInside (Nat.lt_of_not_le ha) b)

/-- Only the host's own side changed: its program, the values it read and the count of draws (log 1, log 5, log 14). -/
def State.HostSideOnly (s t : State) : Prop :=
  ∃ prog reads draws, t = { s with hostProg := prog, hostReads := reads, drawCount := draws }

/-- What a host operation does when it answers a next state. -/
def HostOp.Effect (op : HostOp) (s t : State) : Prop :=
  match op with
  | .regWrite n v => hostRegWrite n v s = .next t
  | .inWrite a b => hostInWrite a b s = .next t
  | .reset => t = s.resetAction
  | .outWrite _ _ => False
  | .regRead _ | .inRead _ | .outRead _ | .wait | .waitIrq => s.HostSideOnly t

theorem hostStep_effect {op : HostOp} {s t : State} (h : hostStep op s = .next t) : op.Effect s t := by
  cases op with
  | regRead n =>
    simp only [hostStep, hostRegRead] at h
    split at h
    · cases h
    · split at h <;> cases h <;> exact ⟨_, _, _, rfl⟩
  | regWrite n v => exact h
  | inWrite a b => exact h
  | inRead a =>
    simp only [hostStep, hostInRead] at h
    split at h
    · cases h
    · split at h <;> cases h <;> exact ⟨_, _, _, rfl⟩
  | outRead a =>
    simp only [hostStep, hostOutRead] at h
    split at h
    · cases h
    · split at h
      · cases h
        exact ⟨_, _, _, rfl⟩
      · split at h <;> cases h <;> exact ⟨_, _, _, rfl⟩
  | outWrite a b => cases h
  | reset =>
    cases h
    exact rfl
  | wait =>
    simp only [hostStep, hostWait] at h
    split at h <;> cases h <;> exact ⟨_, _, _, rfl⟩
  | waitIrq =>
    simp only [hostStep, hostWaitIrq] at h
    split at h <;> cases h <;> exact ⟨_, _, _, rfl⟩

theorem State.HostSideOnly.keeps_inv {s t : State} (h : s.HostSideOnly t) (hs : s.Inv) : t.Inv := by
  obtain ⟨prog, reads, draws, rfl⟩ := h
  exact hs.with_host_side s.doneIe hs.faultsDistinct prog s.sched reads draws

theorem hostStep_keeps_inv {op : HostOp} {s t : State} (h : s.Inv) (ht : hostStep op s = .next t) : t.Inv := by
  have he := hostStep_effect ht
  cases op <;> simp only [HostOp.Effect] at he
  case regWrite n v => exact hostRegWrite_keeps_inv h he
  case inWrite a b => exact hostInWrite_keeps_inv h he
  case reset =>
    subst he
    exact resetAction_inv h.parameters h.faultsDistinct
  all_goals exact he.keeps_inv h

theorem hostMove_keeps_inv {s t : State} (h : s.Inv) (ht : hostMove s = .next t) : t.Inv := by
  unfold hostMove at ht
  split at ht
  · cases ht
    exact h
  · exact hostStep_keeps_inv (h.with_host_side s.doneIe h.faultsDistinct _ s.sched s.hostReads s.drawCount) ht

theorem agentMove_keeps_inv {a : Agent} {s t : State} (h : s.Inv) (ht : agentMove a s = .next t) : t.Inv := by
  cases a with
  | host => exact hostMove_keeps_inv h ht
  | core => exact coreMove_keeps_inv h ht

/-- Settles O12: every stage body, both completions and every host operation keep the invariant, and so does a recorded
fault. -/
theorem everyStepKeepsTheInvariant : Obligations.EveryStepKeepsTheInvariant := by
  intro s t h ht
  obtain ⟨hnone, hmove | ⟨r, -, rfl⟩⟩ := step_next.1 ht
  · exact agentMove_keeps_inv (h.with_host_side s.doneIe h.faultsDistinct s.hostProg _ s.hostReads s.drawCount) hmove
  · refine h.with_host_side s.doneIe ?_ s.hostProg s.sched s.hostReads s.drawCount
    simp [hnone]

end Sys2Proof.Machine

/-! PROOFS. STATUS along a run: writes to it, BUSY and DONE, and the valid flags (10_state.md R25 to R27). -/

namespace Sys2Proof.Machine

/-- Settles O52: in a busy state of the invariant DONE is 0 already. -/
theorem statusWriteClearsDoneAndDropped : Obligations.StatusWriteClearsDoneAndDropped := by
  intro s w
  rw [hostRegWrite_status, writeOneToClear_eq]
  refine ⟨rfl, fun h hbusy h20 => ?_⟩
  have hdone : s.status.done = false := by simpa [hbusy] using h.status.busyNotDone
  have hif : (if w.getLsbD 1 then false else s.status.done) = s.status.done := by rw [hdone, ite_self]
  rw [hif, h20]
  rfl

/-! ### BUSY and DONE (10_state.md R26) -/

/-- A command that ends clears BUSY, sets DONE, and is pending no more, with success and with an error. -/
theorem runStages_ends {bodies : List StageBody} {s t : State} (h : runStages bodies s = .next t) :
    t.status.busy = false ∧ t.status.done = true ∧ t.pending = none := by
  induction bodies generalizing s with
  | nil =>
    cases h
    exact ⟨rfl, rfl, rfl⟩
  | cons body rest ih =>
    rcases runStages_cons_next.1 h with ⟨u, -, hrest⟩ | ⟨e, stage, -, rfl⟩
    · exact ih hrest
    · exact ⟨rfl, rfl, rfl⟩

/-- Settles O17: the last part is the invariant's. -/
theorem busyAndDoneNeverBothReadOne : Obligations.BusyAndDoneNeverBothReadOne := by
  refine ⟨fun s v => ⟨rfl, rfl⟩, fun i s t h => ?_, fun v s t h => ?_, fun s t h ht => ?_⟩
  · rw [exec_eq_runStages] at h
    exact runStages_ends h
  · cases h
    exact ⟨rfl, rfl, rfl⟩
  · have hbd := (everyStepKeepsTheInvariant s t h ht).status.busyNotDone
    rintro ⟨hb, hd⟩
    simp [hb, hd] at hbd

/-! ### The valid flags (10_state.md R27) -/

theorem freqBody_flags {s u : State} (h : freqBody s = .ok u) : u.status.flags = (true, false, false, false) := by
  obtain ⟨-, bytes, -, rfl⟩ := freqBody_ok.1 h
  rfl

theorem deserializeBody_flags {s u : State} (h : deserializeBody s = .ok u) :
    u.status.flags = (true, false, false, true) := by
  obtain ⟨-, -, k, og, records, -, -, -, -, rfl⟩ := deserializeBody_ok.1 h
  rfl

theorem buildTreeBody_flags {s u : State} (h : buildTreeBody s = .ok u) :
    u.status.flags = (s.status.freqValid, true, false, s.status.freqSrc) := by
  obtain ⟨-, rfl⟩ := buildTreeBody_ok.1 h
  rfl

theorem genCodesBody_flags {s u : State} (h : genCodesBody s = .ok u) :
    u.status.flags = (s.status.freqValid, s.status.treeValid, true, s.status.freqSrc) := by
  obtain ⟨-, rfl⟩ := genCodesBody_ok.1 h
  rfl

theorem packBody_flags {s u : State} (h : packBody s = .ok u) : u.status.flags = s.status.flags := by
  obtain ⟨-, -, -, -, bytes, -, rfl⟩ := packBody_ok.1 h
  rfl

theorem unpackBody_flags {s u : State} (h : unpackBody s = .ok u) : u.status.flags = s.status.flags := by
  obtain ⟨-, -, -, out, used, -, rfl⟩ := unpackBody_ok.1 h
  rfl

/-- The flags after a command of one stage: as its body leaves them on success, unchanged on an error. -/
theorem flags_of_single {body : StageBody} (hb : body ∈ stageBodies) {s t : State} {flags : Bool × Bool × Bool × Bool}
    (hbody : ∀ {u}, body s = .ok u → u.status.flags = flags) (h : runStages [body] s = .next t) :
    t.status.flags = if t.status.err = .noError then flags else s.status.flags := by
  rcases runStages_single_next.1 h with ⟨u, hu, rfl⟩ | ⟨e, stage, he, rfl⟩
  · exact (hbody hu).trans (if_pos rfl).symm
  · exact (if_neg (stageBody_raised_ne_noError hb he)).symm

/-- The flags after the success of a command of one stage, from STATUS before it (10_state.md R27). -/
def Instr.flagsOnSuccess (i : Instr) (st : Status) : Bool × Bool × Bool × Bool :=
  match i with
  | .freq => (true, false, false, false)
  | .deserialize => (true, false, false, true)
  | .buildTree => (st.freqValid, true, false, st.freqSrc)
  | .genCodes => (st.freqValid, st.treeValid, true, st.freqSrc)
  | .clear => (false, false, false, false)
  | .nop | .encode | .decode | .pack | .unpack => st.flags

theorem exec_flags {i : Instr} {s t : State} (hencode : i ≠ .encode) (hdecode : i ≠ .decode) (h : exec i s = .next t) :
    t.status.flags = if t.status.err = .noError then Instr.flagsOnSuccess i s.status else s.status.flags := by
  rw [exec_eq_runStages] at h
  cases i with
  | nop =>
    cases h
    rfl
  | encode => exact absurd rfl hencode
  | decode => exact absurd rfl hdecode
  | freq => exact flags_of_single (by simp [stageBodies]) freqBody_flags h
  | buildTree => exact flags_of_single (by simp [stageBodies]) buildTreeBody_flags h
  | genCodes => exact flags_of_single (by simp [stageBodies]) genCodesBody_flags h
  | pack => exact flags_of_single (by simp [stageBodies]) packBody_flags h
  | deserialize => exact flags_of_single (by simp [stageBodies]) deserializeBody_flags h
  | unpack => exact flags_of_single (by simp [stageBodies]) unpackBody_flags h
  | clear => exact flags_of_single (by simp [stageBodies]) (fun hu => by cases hu; rfl) h

/-- With a current table BUILD_TREE does not raise (42_tree_builder.md R120). -/
theorem runStages_buildTree_of_freqValid {rest : List StageBody} {s t : State} (hv : s.status.freqValid = true)
    (h : runStages (buildTreeBody :: rest) s = .next t) : ∃ u, buildTreeBody s = .ok u ∧ runStages rest u = .next t := by
  refine (runStages_cons_next.1 h).resolve_right ?_
  rintro ⟨e, stage, he, -⟩
  simpa [hv] using (buildTreeBody_raised.1 he).1

/-- With a current tree GEN_CODES does not raise (43_code_table_gen.md R140). -/
theorem runStages_genCodes_of_treeValid {rest : List StageBody} {s t : State} (hv : s.status.treeValid = true)
    (h : runStages (genCodesBody :: rest) s = .next t) : ∃ u, genCodesBody s = .ok u ∧ runStages rest u = .next t := by
  refine (runStages_cons_next.1 h).resolve_right ?_
  rintro ⟨e, stage, he, -⟩
  simpa [hv] using (genCodesBody_raised.1 he).1

/-- ENCODE leaves the flags alone when FREQ raises; after that only PACK can raise, which keeps all three set. -/
theorem execEncode_flags {s t : State} (h : exec .encode s = .next t) :
    t.status.flags = if t.status.errStage = 0x3#4 then s.status.flags else (true, true, true, false) := by
  rw [exec_eq_runStages] at h
  rcases runStages_cons_next.1 h with ⟨u, hu, h⟩ | ⟨e, stage, he, rfl⟩
  · have hflags := freqBody_flags hu
    simp only [Status.flags, Prod.mk.injEq] at hflags
    obtain ⟨hfv, -, -, hsrc⟩ := hflags
    obtain ⟨v, hv, h⟩ := runStages_buildTree_of_freqValid hfv h
    have hflags := buildTreeBody_flags hv
    simp only [Status.flags, Prod.mk.injEq, hfv, hsrc] at hflags
    obtain ⟨hfv, htv, -, hsrc⟩ := hflags
    obtain ⟨w, hw, h⟩ := runStages_genCodes_of_treeValid htv h
    have hflags := genCodesBody_flags hw
    rw [hfv, htv, hsrc] at hflags
    rcases runStages_single_next.1 h with ⟨x, hx, rfl⟩ | ⟨e, stage, he, rfl⟩
    · exact (packBody_flags hx).trans hflags
    · rw [(packBody_raised he).1]
      exact hflags
  · exact (if_pos (freqBody_raised.1 he).2.2).symm

/-- DECODE leaves the flags alone when DESERIALIZE raises; after that only UNPACK can raise, which keeps the table's and the
tree's set. -/
theorem execDecode_flags {s t : State} (h : exec .decode s = .next t) :
    t.status.flags = if t.status.errStage = 0x7#4 then s.status.flags else (true, true, false, true) := by
  rw [exec_eq_runStages] at h
  rcases runStages_cons_next.1 h with ⟨u, hu, h⟩ | ⟨e, stage, he, rfl⟩
  · have hflags := deserializeBody_flags hu
    simp only [Status.flags, Prod.mk.injEq] at hflags
    obtain ⟨hfv, -, -, hsrc⟩ := hflags
    obtain ⟨v, hv, h⟩ := runStages_buildTree_of_freqValid hfv h
    have hflags := buildTreeBody_flags hv
    rw [hfv, hsrc] at hflags
    rcases runStages_single_next.1 h with ⟨x, hx, rfl⟩ | ⟨e, stage, he, rfl⟩
    · exact (unpackBody_flags hx).trans hflags
    · rw [(unpackBody_raised he).1]
      exact hflags
  · exact (if_pos (deserializeBody_raised he).1).symm

/-- Of the register writes only that of IN_LEN touches the flags (20_memory.md R66). -/
theorem hostRegWrite_flags {n : BitVec 16} {v : Word} {s t : State} (h : hostRegWrite n v s = .next t) :
    t.status.flags = if n = RegName.inLen.number then (false, false, false, false) else s.status.flags := by
  rcases hostRegWrite_next h with ⟨rfl, rfl⟩ | ⟨rfl, rfl⟩ | ⟨rfl, rfl⟩ | ⟨rfl, rfl⟩ | ⟨hn, rfl⟩
  · rw [State.writeCtrl]
    split <;> rfl
  · rfl
  · rfl
  · rfl
  · exact (if_neg hn).symm

theorem hostInWrite_flags {a : Nat} {b : Byte} {s t : State} (h : hostInWrite a b s = .next t) :
    t.status.flags = (false, false, false, false) := by
  unfold hostInWrite at h
  split at h
  · cases h
  · split at h <;> cases h
    rfl

theorem State.HostSideOnly.flags_eq {s t : State} (h : s.HostSideOnly t) : t.status.flags = s.status.flags := by
  obtain ⟨prog, reads, draws, rfl⟩ := h
  rfl

/-- Settles O22: command by command, and host operation by host operation. -/
theorem validFlagsChangeOnlyAsListed : Obligations.ValidFlagsChangeOnlyAsListed := by
  refine ⟨fun i s t hencode hdecode h => ?_, fun s t => execEncode_flags, fun s t => execDecode_flags,
    fun op s t h => ?_, fun v s t h => ?_⟩
  · exact (exec_flags hencode hdecode h).trans (by cases i <;> rfl)
  · have he := hostStep_effect h
    cases op <;> simp only [HostOp.Effect] at he
    case regWrite n v => exact hostRegWrite_flags he
    case inWrite a b => exact hostInWrite_flags he
    case reset =>
      subst he
      rfl
    all_goals exact he.flags_eq
  · cases h
    rfl

end Sys2Proof.Machine

/-! PROOFS. The memories: the bytes of a container integer, the host's transactions on bytes, and what a command keeps
(20_memory.md R60 to R77). -/

namespace Sys2Proof.Machine

/-! ### Container integers (20_memory.md R67) -/

theorem leValue_append (bytes rest : List Byte) :
    leValue (bytes ++ rest) = leValue bytes + 256 ^ bytes.length * leValue rest := by
  induction bytes with
  | nil => simp [leValue]
  | cons b bytes ih =>
    rw [List.cons_append, leValue, ih, leValue, List.length_cons, pow_succ]
    ring

/-- The low n bytes of a word, least significant first, hold its value modulo 256^n. -/
theorem leValue_lowBytes (v : Word) (n : Nat) :
    leValue ((List.range n).map fun j => v.extractLsb' (8 * j) 8) = v.toNat % 256 ^ n := by
  induction n with
  | zero => simp [leValue, Nat.mod_one]
  | succ n ih =>
    have hbyte : (v.extractLsb' (8 * n) 8).toNat = v.toNat / 256 ^ n % 256 := by
      rw [BitVec.extractLsb'_toNat, Nat.shiftRight_eq_div_pow, pow_mul]
      rfl
    simp [List.range_succ, leValue_append, leValue, ih, hbyte, Nat.mod_pow_succ]

/-- Reading back the 8 bytes of a word gives the word. -/
@[simp] theorem leValue_le64 (v : Word) : leValue (le64 v) = v.toNat :=
  (leValue_lowBytes v 8).trans (Nat.mod_eq_of_lt v.isLt)

theorem le64_getElem? {v : Word} {k : Nat} {b : Byte} (h : (le64 v)[k]? = some b) : b = v.extractLsb' (8 * k) 8 := by
  obtain ⟨hk, rfl⟩ := List.getElem?_eq_some_iff.1 h
  simp [le64]

/-- Settles O6: the value is the sum of its bytes, each with the weight of its place. -/
theorem containerIntegersAreLittleEndian : Obligations.ContainerIntegersAreLittleEndian := by
  refine fun v => ⟨le64_length v, leValue_le64 v, fun k b hb j hj => ?_⟩
  rw [le64_getElem? hb, BitVec.getLsbD_extractLsb', decide_eq_true hj, Bool.true_and]

/-! ### The host's transactions on bytes (20_memory.md R62, R63) -/

section
variable {s : State} {a : Nat}

theorem hostStep_inWrite_idle (ha : a < s.cfg.inCap.toNat) (hidle : s.status.busy = false) (b : Byte) :
    hostStep (.inWrite a b) s = .next { s.invalidate with inMem := s.inMem.write a b } := by
  simp only [hostStep, hostInWrite, if_neg (Nat.not_le.2 ha), hidle, Bool.false_eq_true, if_false]

theorem hostStep_inWrite_busy (ha : a < s.cfg.inCap.toNat) (hbusy : s.status.busy = true) (b : Byte) :
    hostStep (.inWrite a b) s = .fault .hostHazard := by
  simp only [hostStep, hostInWrite, if_neg (Nat.not_le.2 ha), hbusy, if_true]

theorem hostStep_inWrite_outside (ha : s.cfg.inCap.toNat ≤ a) (b : Byte) :
    hostStep (.inWrite a b) s = .fault .busError := by
  simp only [hostStep, hostInWrite, if_pos ha]

theorem hostStep_inRead_written (ha : a < s.cfg.inCap.toNat) {b : Byte} (hb : s.inMem.read a = some b) :
    hostStep (.inRead a) s = .next (s.returnWord (b.setWidth 64)) := by
  simp only [hostStep, hostInRead, if_neg (Nat.not_le.2 ha), hb]

theorem hostStep_inRead_unwritten (ha : a < s.cfg.inCap.toNat) (hb : s.inMem.read a = none) :
    hostStep (.inRead a) s = .next s.returnDrawByte := by
  simp only [hostStep, hostInRead, if_neg (Nat.not_le.2 ha), hb]

theorem hostStep_inRead_outside (ha : s.cfg.inCap.toNat ≤ a) : hostStep (.inRead a) s = .fault .busError := by
  simp only [hostStep, hostInRead, if_pos ha]

theorem hostStep_outRead_written (ha : a < s.cfg.outCap.toNat) (hidle : s.status.busy = false) {b : Byte}
    (hb : s.outMem.read a = some b) : hostStep (.outRead a) s = .next (s.returnWord (b.setWidth 64)) := by
  simp only [hostStep, hostOutRead, if_neg (Nat.not_le.2 ha), hidle, Bool.false_eq_true, if_false, hb]

theorem hostStep_outRead_draw (ha : a < s.cfg.outCap.toNat) (h : s.status.busy = true ∨ s.outMem.read a = none) :
    hostStep (.outRead a) s = .next s.returnDrawByte := by
  simp only [hostStep, hostOutRead, if_neg (Nat.not_le.2 ha)]
  rcases h with hbusy | hb
  · rw [if_pos hbusy]
  · rw [hb, ite_self]

theorem hostStep_outRead_outside (ha : s.cfg.outCap.toNat ≤ a) : hostStep (.outRead a) s = .fault .busError := by
  simp only [hostStep, hostOutRead, if_pos ha]

end

/-- Settles O57: by the capacity, BUSY and the byte's written mark. -/
theorem outReadReturnsTheByteOrADraw : Obligations.OutReadReturnsTheByteOrADraw := fun _ _ =>
  ⟨hostStep_outRead_draw, fun _ ha hidle hb => hostStep_outRead_written ha hidle hb, hostStep_outRead_outside,
    fun _ => rfl⟩

/-- Settles O56: the store reads back by the law of one written byte. -/
theorem inTransactionsStoreAndReturnBytes : Obligations.InTransactionsStoreAndReturnBytes := fun s a b =>
  ⟨fun ha hidle => ⟨_, hostStep_inWrite_idle ha hidle b, s.inMem.read_write_same a b,
      fun _ hx => s.inMem.read_write_other b hx, rfl⟩,
    fun ha hbusy => hostStep_inWrite_busy ha hbusy b,
    fun ha _ hv => hostStep_inRead_written ha hv,
    hostStep_inRead_unwritten,
    fun ha => ⟨hostStep_inWrite_outside ha b, hostStep_inRead_outside ha⟩⟩

/-! ### Writing the input (20_memory.md R66) -/

theorem hostStep_writeInLen_idle {s : State} (hidle : s.status.busy = false) (v : Word) :
    hostStep (.regWrite RegName.inLen.number v) s = .next { s.invalidate with inLen := v } := by
  simp only [hostStep, hostRegWrite, regOfNumber_number, hostWriteInLen, hidle, Bool.false_eq_true, if_false]

theorem hostStep_writeInLen_busy {s : State} (hbusy : s.status.busy = true) (v : Word) :
    hostStep (.regWrite RegName.inLen.number v) s = .fault .hostHazard := by
  simp only [hostStep, hostRegWrite, regOfNumber_number, hostWriteInLen, hbusy, if_true]

/-- Settles O54: a write of the input met by BUSY is a fault of the host's move, which its step records. -/
theorem inputWritesInvalidateTheStageState : Obligations.InputWritesInvalidateTheStageState := by
  refine ⟨fun s a b ha => ⟨fun hidle => ?_, fun hbusy => hostStep_inWrite_busy ha hbusy b⟩,
    fun s v => ⟨fun hidle => hostStep_writeInLen_idle hidle v, fun hbusy => hostStep_writeInLen_busy hbusy v⟩,
    fun s op rest hf hm hp hbusy hop => step_host_fault hf hm hp ?_⟩
  · exact ⟨_, hostStep_inWrite_idle ha hidle b, s.inMem.read_write a b, rfl⟩
  · rcases hop with ⟨a, b, rfl, ha⟩ | ⟨v, rfl⟩
    · exact hostStep_inWrite_busy (s := { s with sched := s.sched.tail, hostProg := rest }) ha hbusy b
    · exact hostStep_writeInLen_busy (s := { s with sched := s.sched.tail, hostProg := rest }) hbusy v

/-! ### Reads (20_memory.md R69) -/

/-- A value was returned to the host, drawn or not, and nothing else happened. -/
def State.Returned (s t : State) : Prop := ∃ v, t = { s with hostReads := v :: s.hostReads, drawCount := t.drawCount }

theorem returned_returnWord (s : State) (v : Word) : s.Returned (s.returnWord v) := ⟨v, rfl⟩

theorem returned_returnDraw (s : State) : s.Returned s.returnDraw := ⟨_, rfl⟩

theorem returned_returnDrawByte (s : State) : s.Returned s.returnDrawByte := ⟨_, rfl⟩

theorem hostRegRead_returned {n : BitVec 16} {s t : State} (h : hostRegRead n s = .next t) : s.Returned t := by
  unfold hostRegRead at h
  split at h
  · cases h
  · split at h <;> cases h
    · exact returned_returnDraw s
    · exact returned_returnWord s _

theorem hostInRead_returned {a : Nat} {s t : State} (h : hostInRead a s = .next t) : s.Returned t := by
  unfold hostInRead at h
  split at h
  · cases h
  · split at h <;> cases h
    · exact returned_returnWord s _
    · exact returned_returnDrawByte s

theorem hostOutRead_returned {a : Nat} {s t : State} (h : hostOutRead a s = .next t) : s.Returned t := by
  unfold hostOutRead at h
  split at h
  · cases h
  · split at h
    · cases h
      exact returned_returnDrawByte s
    · split at h <;> cases h
      · exact returned_returnWord s _
      · exact returned_returnDrawByte s

/-- Settles O59: each read that answers a next state returned a word, a draw or a drawn byte. -/
theorem readsHaveNoSideEffect : Obligations.ReadsHaveNoSideEffect := by
  rintro op s t (⟨n, rfl⟩ | ⟨a, rfl⟩ | ⟨a, rfl⟩) h
  · exact hostRegRead_returned h
  · exact hostInRead_returned h
  · exact hostOutRead_returned h

/-! ### What a command keeps of the memories (20_memory.md R60, R77) -/

/-- What no command writes, as one value, so that a state update that names none of it keeps it by computation. -/
def State.inputSide (s : State) :
    Config × Bool × Word × Memory × BitVec 4 × List Fault × List HostOp × List Agent × List Word × Nat :=
  (s.cfg, s.doneIe, s.inLen, s.inMem, s.status.lastCmd, s.faults, s.hostProg, s.sched, s.hostReads, s.drawCount)

theorem State.keepsInput_of_inputSide_eq {s t : State} (h : t.inputSide = s.inputSide) : State.KeepsInput s t := by
  simp only [State.inputSide, Prod.mk.injEq] at h
  obtain ⟨hcfg, hie, hlen, hmem, hcmd, hfaults, hprog, hsched, hreads, hdraws⟩ := h
  exact ⟨hcfg, hie, hlen, fun a => by rw [hmem], hcmd, hfaults, hprog, hsched, hreads, hdraws⟩

/-- The stages that write no byte of OUT_MEM: all but PACK and UNPACK. -/
def bodiesWithoutOutput : List StageBody := [freqBody, buildTreeBody, genCodesBody, deserializeBody, clearBody]

/-- The "State written" lines of these stages name nothing of the input or of OUT_MEM (R110, R120, R140, R196, R215). -/
theorem bodiesWithoutOutput_keep {body : StageBody} (hb : body ∈ bodiesWithoutOutput) {s u : State}
    (hu : body s = .ok u) : u.inputSide = s.inputSide ∧ u.outMem = s.outMem := by
  simp only [bodiesWithoutOutput, List.mem_cons, List.not_mem_nil, or_false] at hb
  rcases hb with rfl | rfl | rfl | rfl | rfl
  · obtain ⟨-, bytes, -, rfl⟩ := freqBody_ok.1 hu
    exact ⟨rfl, rfl⟩
  · obtain ⟨-, rfl⟩ := buildTreeBody_ok.1 hu
    exact ⟨rfl, rfl⟩
  · obtain ⟨-, rfl⟩ := genCodesBody_ok.1 hu
    exact ⟨rfl, rfl⟩
  · obtain ⟨-, -, k, og, records, -, -, -, -, rfl⟩ := deserializeBody_ok.1 hu
    exact ⟨rfl, rfl⟩
  · cases hu
    exact ⟨rfl, rfl⟩

theorem mem_stageBodies {body : StageBody} (hb : body ∈ stageBodies) :
    body = packBody ∨ body = unpackBody ∨ body ∈ bodiesWithoutOutput := by
  simp only [stageBodies, bodiesWithoutOutput, List.mem_cons, List.not_mem_nil, or_false] at hb ⊢
  tauto

/-- PACK and UNPACK write OUT_MEM and the result registers, and nothing of the input either (R150, R170). -/
theorem stageBody_inputSide {body : StageBody} (hb : body ∈ stageBodies) {s u : State} (hu : body s = .ok u) :
    u.inputSide = s.inputSide := by
  rcases mem_stageBodies hb with rfl | rfl | hb
  · obtain ⟨-, -, -, -, bytes, -, rfl⟩ := packBody_ok.1 hu
    rfl
  · obtain ⟨-, -, -, out, used, -, rfl⟩ := unpackBody_ok.1 hu
    rfl
  · exact (bodiesWithoutOutput_keep hb hu).1

theorem exec_inputSide {i : Instr} {s t : State} (h : exec i s = .next t) : t.inputSide = s.inputSide := by
  rw [exec_eq_runStages] at h
  exact runStages_keeps (P := fun u => u.inputSide = s.inputSide)
    (fun body hb _ _ hs hu => (stageBody_inputSide (stagesOf_subset i hb) hu).trans hs)
    (fun _ hs => hs) (fun _ _ _ hs => hs) rfl h

theorem exec_keepsInput {i : Instr} {s t : State} (h : exec i s = .next t) : State.KeepsInput s t :=
  State.keepsInput_of_inputSide_eq (exec_inputSide h)

theorem stagesOf_subset_bodiesWithoutOutput {i : Instr} (hpack : i ≠ .pack) (hunpack : i ≠ .unpack)
    (hencode : i ≠ .encode) (hdecode : i ≠ .decode) : stagesOf i ⊆ bodiesWithoutOutput := by
  cases i
  case pack => exact absurd rfl hpack
  case unpack => exact absurd rfl hunpack
  case encode => exact absurd rfl hencode
  case decode => exact absurd rfl hdecode
  all_goals simp [stagesOf, bodiesWithoutOutput]

/-- A command without a stage of output keeps OUT_MEM, completed or raised (20_memory.md R77). -/
theorem exec_outMem {i : Instr} (hi : stagesOf i ⊆ bodiesWithoutOutput) {s t : State} (h : exec i s = .next t) :
    t.outMem = s.outMem := by
  rw [exec_eq_runStages] at h
  exact runStages_keeps (P := fun u => u.outMem = s.outMem)
    (fun body hb _ _ hs hu => (bodiesWithoutOutput_keep (hi hb) hu).2.trans hs)
    (fun _ hs => hs) (fun _ _ _ hs => hs) rfl h

/-- Settles O19: stage by stage, as no completion writes either memory. -/
theorem commandsKeepTheInputAndOnlyOutputCommandsWriteOutMem :
    Obligations.CommandsKeepTheInputAndOnlyOutputCommandsWriteOutMem := by
  refine fun i s t h => ⟨exec_keepsInput h, fun hpack hunpack hencode hdecode a => ?_⟩
  rw [exec_outMem (stagesOf_subset_bodiesWithoutOutput hpack hunpack hencode hdecode) h]

end Sys2Proof.Machine

/-! PROOFS. The encodings: command words, the bit order of a packed sequence, and the emission of a code pattern
(30_encoding.md). -/

namespace Sys2Proof.Machine

/-! ### Command words (30_encoding.md R80 to R84) -/

theorem and_wholeWord (w : Word) : w &&& wholeWord = w := BitVec.and_allOnes

/-- Each row's match is the word of its command, and its mask covers the whole word (30_encoding.md R82). -/
theorem opcodeTable_row : ∀ r ∈ opcodeTable, r.mask = wholeWord ∧ r.pattern = encode r.instr := by decide

theorem selects_iff {r : OpcodeRow} (hr : r ∈ opcodeTable) (w : Word) : r.selects w = true ↔ w = encode r.instr := by
  obtain ⟨hmask, hpattern⟩ := opcodeTable_row r hr
  rw [OpcodeRow.selects, hmask, hpattern, and_wholeWord, beq_iff_eq]

theorem decode_encode (i : Instr) : decode (encode i) = .ok i := by cases i <;> rfl

/-- A word selects a command exactly when it is that command's word (30_encoding.md R82). -/
theorem decode_eq_ok_iff {w : Word} {i : Instr} : decode w = .ok i ↔ w = encode i := by
  constructor
  · intro h
    unfold decode at h
    split at h
    · next r hr =>
      cases h
      have hsel := List.find?_some hr
      exact (selects_iff (List.mem_of_find?_eq_some hr) w).1 hsel
    · split at h <;> cases h
  · rintro rfl
    exact decode_encode i

theorem wordLegal_encode (i : Instr) : wordLegal (encode i) = true := by
  have hfields : Laws.ReservedBitsZero.Statement i := by
    cases i
    exacts [Laws.ReservedBitsZero.nop, Laws.ReservedBitsZero.encode, Laws.ReservedBitsZero.decode,
      Laws.ReservedBitsZero.freq, Laws.ReservedBitsZero.buildTree, Laws.ReservedBitsZero.genCodes,
      Laws.ReservedBitsZero.pack, Laws.ReservedBitsZero.deserialize, Laws.ReservedBitsZero.unpack,
      Laws.ReservedBitsZero.clear]
  exact hfields.2.2

/-- The two grounds on which a word is illegal (30_encoding.md R84). -/
theorem wordLegal_eq_false_iff {v : Word} :
    wordLegal v = false ↔ wordRsv v ≠ 0#60 ∨ (0x9 ≤ (wordOp v).toNat ∧ (wordOp v).toNat ≤ 0xE) := by
  have hop : (wordOp v).toNat < 16 := (wordOp v).isLt
  have hassigned : opAssigned (wordOp v) = false ↔ 0x9 ≤ (wordOp v).toNat ∧ (wordOp v).toNat ≤ 0xE := by
    simp only [opAssigned, Bool.or_eq_false_iff, decide_eq_false_iff_not, beq_eq_false_iff_ne]
    omega
  rw [wordLegal, Bool.and_eq_false_iff, hassigned, beq_eq_false_iff_ne]
  rfl

theorem exists_decode_error_of_illegal {v : Word} (h : wordLegal v = false) : ∃ e, decode v = .error e := by
  cases hd : decode v with
  | error e => exact ⟨e, rfl⟩
  | ok i =>
    rw [decode_eq_ok_iff.1 hd, wordLegal_encode] at h
    cases h

/-- Settles O1: the mask keeps the whole word, and decoding inverts encoding. -/
theorem wordSelectsCommandByMaskAndMatch : Obligations.WordSelectsCommandByMaskAndMatch := by
  intro w
  rw [and_wholeWord]
  exact ⟨decode_eq_ok_iff, decode_eq_ok_iff, decode_eq_ok_iff, decode_eq_ok_iff, decode_eq_ok_iff, decode_eq_ok_iff,
    decode_eq_ok_iff, decode_eq_ok_iff, decode_eq_ok_iff, decode_eq_ok_iff⟩

/-- Settles O2: each legal word is the word of its command, and no row of the table selects an illegal one. -/
theorem writtenOutWordsDecode : Obligations.WrittenOutWordsDecode :=
  ⟨decode_encode .nop, decode_encode .encode, decode_encode .buildTree, decode_encode .unpack, decode_encode .clear,
    rfl, rfl, rfl⟩

/-- Settles O3: every command is well formed, so the premise is not needed. -/
theorem decodeOfEncodeIsTheCommand : Obligations.DecodeOfEncodeIsTheCommand := fun i _ => decode_encode i

/-! ### Illegal words (30_encoding.md R84, 47_control.md R216) -/

theorem hostRegWrite_ctrl (v : Word) (s : State) : hostRegWrite 0x0000#16 v s = .next (s.writeCtrl v) := rfl

theorem writeCtrl_idle {s : State} (hidle : s.status.busy = false) (v : Word) : s.writeCtrl v = s.accept v := by
  rw [State.writeCtrl, hidle, if_neg Bool.false_ne_true]

theorem coreMove_of_decode_error {s : State} {v : Word} {e : DecodeReject} (hpending : s.pending = some v)
    (hdecode : decode v = .error e) : coreMove s = execIllegal v s := by
  simp only [coreMove, hpending, hdecode]

/-- Settles O4: acceptance does not look at the word, and a word that is no command's is rejected by the decoder. -/
theorem illegalWordsAreAcceptedAndCompleteWithIllegalCommand :
    Obligations.IllegalWordsAreAcceptedAndCompleteWithIllegalCommand := by
  intro v hv
  obtain ⟨e, hdecode⟩ := exists_decode_error_of_illegal (wordLegal_eq_false_iff.2 hv)
  refine ⟨fun s hidle => ?_, fun s hpending => ?_⟩
  · rw [hostRegWrite_ctrl, writeCtrl_idle hidle]
    rfl
  · rw [coreMove_of_decode_error hpending hdecode]
    rfl

/-! ### Bit order (30_encoding.md R85, R86) -/

/-- The number a bit sequence spells, its first bit the most significant: the stored pattern of a path (30_encoding.md
R86), and a byte of the payload (R85). -/
def msbFirstValue (bits : List Bool) : Nat := bits.foldl (fun v b => 2 * v + b.toNat) 0

theorem msbFirstValue_concat (bits : List Bool) (b : Bool) :
    msbFirstValue (bits ++ [b]) = Nat.bit b (msbFirstValue bits) := by
  rw [msbFirstValue, List.foldl_concat, Nat.bit_val, ← msbFirstValue]

theorem msbFirstByte_eq (c : Nat → Bool) : msbFirstByte c = BitVec.ofNat 8 (msbFirstValue ((List.range 8).map c)) := by
  rw [msbFirstByte, msbFirstValue, List.foldl_map]

/-- The last bit of the sequence is bit 0. -/
theorem testBit_msbFirstValue (bits : List Bool) (k : Nat) :
    (msbFirstValue bits).testBit k = bits.reverse.getD k false := by
  induction bits using List.reverseRecOn generalizing k with
  | nil => simp [msbFirstValue]
  | append_singleton bits b ih =>
    rw [msbFirstValue_concat, List.reverse_concat]
    cases k with
    | zero => simp
    | succ k => rw [Nat.testBit_bit_succ, ih, List.getD_cons_succ]

/-- Bit j of the sequence stands j places below the most significant bit. -/
theorem testBit_msbFirstValue_fromTop {bits : List Bool} {j : Nat} (hj : j < bits.length) :
    (msbFirstValue bits).testBit (bits.length - 1 - j) = bits[j] := by
  rw [testBit_msbFirstValue, List.getD_eq_getElem _ _ (by rw [List.length_reverse]; omega), List.getElem_reverse]
  congr 1
  omega

theorem getLsbD_msbFirstByte (c : Nat → Bool) {m : Nat} (hm : m < 8) : (msbFirstByte c).getLsbD (7 - m) = c m := by
  have hbit := testBit_msbFirstValue_fromTop (bits := (List.range 8).map c) (j := m) (by simpa using hm)
  rw [msbFirstByte_eq, BitVec.getLsbD_ofNat, decide_eq_true (by omega), Bool.true_and]
  simpa using hbit

theorem packBits_getElem? {bits : List Bool} {k : Nat} {b : Byte} (h : (packBits bits)[k]? = some b) :
    b = msbFirstByte fun m => bits.getD (8 * k + m) false := by
  obtain ⟨hk, rfl⟩ := List.getElem?_eq_some_iff.1 h
  simp only [packBits, List.getElem_map, List.getElem_range]

/-- Settles O7: bit t is the bit t mod 8 of byte t div 8, counted from the top. -/
theorem bitsArePackedMostSignificantFirst : Obligations.BitsArePackedMostSignificantFirst := by
  intro bits
  refine ⟨packBits_length bits, ?_, fun t b hb => ?_⟩
  · rw [packBits_length, payloadBytes]
    omega
  · rw [packBits_getElem? hb, getLsbD_msbFirstByte _ (Nat.mod_lt t (by decide)), Nat.div_add_mod]

/-- The pattern of a path short enough for CODE_LEN and CODE_BITS is emitted as the path (30_encoding.md R86). -/
theorem codeBitList_msbFirstValue {path : List Bool} (h : path.length ≤ 255) :
    codeBitList (BitVec.ofNat 8 path.length) (BitVec.ofNat 256 (msbFirstValue path)) = path := by
  have hlen : (BitVec.ofNat 8 path.length).toNat = path.length := Nat.mod_eq_of_lt (by omega)
  refine List.ext_getElem (by rw [codeBitList_length, hlen]) fun j _ hj => ?_
  simp only [codeBitList, List.getElem_map, List.getElem_range, hlen]
  rw [BitVec.getLsbD_ofNat, decide_eq_true (by omega), Bool.true_and, testBit_msbFirstValue_fromTop hj]

/-- Settles O8: the pattern's bits, most significant first, are the path's edges in order. -/
theorem codePatternIsEmittedInPathOrder : Obligations.CodePatternIsEmittedInPathOrder :=
  fun _ h => codeBitList_msbFirstValue h

end Sys2Proof.Machine

/-! PROOFS. FREQ: the symbols it finds, the state it leaves, and the invariants of the table (41_freq_model.md R110,
R111). -/

namespace Sys2Proof.Machine

/-! ### The number of distinct symbols (10_state.md R31) -/

theorem one_le_toNat_iff_ne_zero {w : Word} : 1 ≤ w.toNat ↔ w ≠ 0#64 := by
  rw [Nat.one_le_iff_ne_zero, ← BitVec.toNat_ne_iff_ne, BitVec.toNat_zero]

theorem distinctCount_eq_length_filter (table : SymbolTable Word) :
    distinctCount table =
      ((List.range 256).filter fun c => decide (1 ≤ (atSymbol table (BitVec.ofNat 8 c)).toNat)).length := by
  rw [distinctCount, symbolTable_toList, List.countP_map, List.countP_eq_length_filter]
  refine congrArg List.length (List.filter_congr fun c _ => ?_)
  rw [Function.comp_apply, Bool.eq_iff_iff, bne_iff_ne, decide_eq_true_iff, one_le_toNat_iff_ne_zero]

/-- DISTINCT is wide enough for the alphabet. -/
theorem toNat_ofNat_distinctCount (table : SymbolTable Word) :
    (BitVec.ofNat 9 (distinctCount table)).toNat = distinctCount table :=
  Nat.mod_eq_of_lt ((distinctCount_le table).trans_lt (by decide))

theorem mem_presentSymbols_freqTable {bytes : List Byte} (h : bytes.length < 2 ^ 64) {c : Byte} :
    c ∈ presentSymbols (freqTable bytes) ↔ c ∈ bytes := by
  rw [mem_presentSymbols, ← one_le_toNat_iff_ne_zero, toNat_atSymbol_freqTable h, List.one_le_count_iff]

/-- The distinct symbols of an input are its unique byte values. -/
theorem distinctCount_freqTable {bytes : List Byte} (h : bytes.length < 2 ^ 64) :
    distinctCount (freqTable bytes) = bytes.dedup.length := by
  have hperm : (presentSymbols (freqTable bytes)).Perm bytes.dedup :=
    (List.perm_ext_iff_of_nodup (presentSymbols_nodup _) (List.nodup_dedup _)).2 fun _ =>
      (mem_presentSymbols_freqTable h).trans List.mem_dedup.symm
  rw [← presentSymbols_length, hperm.length_eq]

/-! ### What FREQ does (41_freq_model.md R110) -/

/-- The core reads the bytes that memory holds. -/
theorem Memory.coreRead_ok_iff_holds {m : Memory} {a n : Nat} {bytes : List Byte} :
    m.coreRead a n = .ok bytes ↔ bytes.length = n ∧ m.Holds a bytes := by
  rw [Memory.coreRead_ok]
  exact and_congr_right fun hlen => by rw [← hlen, Memory.Holds]

/-- The state FREQ leaves when it has counted the bytes. -/
def State.counted (s : State) (bytes : List Byte) : State :=
  State.succeed { s with
    freq := freqTable bytes
    distinct := BitVec.ofNat 9 (distinctCount (freqTable bytes))
    ogSize := s.inLen
    progress := s.inLen
    status := s.status.tableLoaded false }

theorem exec_freq_over_capacity {s : State} (h : s.cfg.inCap.toNat < s.inLen.toNat) :
    exec .freq s = .next (s.errorCompletion .capacityExceeded 0x3#4) :=
  runStages_raised (freqBody_raised.2 ⟨h, rfl, rfl⟩) []

theorem exec_freq_counts {s : State} {bytes : List Byte} (hfits : s.inLen.toNat ≤ s.cfg.inCap.toNat)
    (hlen : bytes.length = s.inLen.toNat) (hbytes : s.inMem.Holds 0 bytes) : exec .freq s = .next (s.counted bytes) :=
  runStages_ok (freqBody_ok.2 ⟨hfits, bytes, Memory.coreRead_ok_iff_holds.2 ⟨hlen, hbytes⟩, rfl⟩) []

theorem exec_freq_unwritten {s : State} {a : Nat} (hfits : s.inLen.toNat ≤ s.cfg.inCap.toNat) (ha : a < s.inLen.toNat)
    (hnone : s.inMem.read a = none) (hbefore : ∀ b, b < a → (s.inMem.read b).isSome = true) :
    exec .freq s = .fault (.uninitRead a) := by
  have hread : s.inMem.coreRead 0 s.inLen.toNat = .error (.uninitRead a) := by
    refine Memory.coreRead_error.2 ⟨a, ha, ?_⟩
    simpa only [Nat.zero_add] using ⟨trivial, hnone, hbefore⟩
  exact runStages_faulted (freqBody_faulted.2 ⟨hfits, hread⟩) []

/-- FREQ succeeds only by counting the input. -/
theorem eq_counted_of_exec_freq {s t : State} (h : exec .freq s = .next t) (hsucceeded : t.Succeeded) :
    ∃ bytes : List Byte, bytes.length = s.inLen.toNat ∧ s.inMem.Holds 0 bytes ∧ t = s.counted bytes := by
  rw [exec_eq_runStages] at h
  rcases runStages_single_next.1 h with ⟨u, hu, rfl⟩ | ⟨e, stage, he, rfl⟩
  · obtain ⟨-, bytes, hread, rfl⟩ := freqBody_ok.1 hu
    obtain ⟨hlen, hbytes⟩ := Memory.coreRead_ok_iff_holds.1 hread
    exact ⟨bytes, hlen, hbytes, rfl⟩
  · exact absurd hsucceeded (stageBody_raised_ne_noError (by simp [stageBodies]) he)

/-- Settles O28: over the capacity FREQ raises, over a written input it counts, and an unwritten byte is the read's fault. -/
theorem freqCountsTheInputBytes : Obligations.FreqCountsTheInputBytes := by
  refine ⟨decode_encode .freq, fun s => ⟨exec_freq_over_capacity, fun bytes hlen hfits hbytes => ?_, fun a hfits ha =>
    exec_freq_unwritten hfits ha⟩⟩
  have hlt : bytes.length < 2 ^ 64 := hlen ▸ s.inLen.isLt
  refine ⟨s.counted bytes, exec_freq_counts hfits hlen hbytes, toNat_atSymbol_freqTable hlt, ?_, rfl⟩
  calc (s.counted bytes).distinct.toNat
      = distinctCount (freqTable bytes) := toNat_ofNat_distinctCount _
    _ = _ := by simp only [distinctCount_eq_length_filter, toNat_atSymbol_freqTable hlt]

/-- Settles O29: DISTINCT is the number of unique byte values of the input, which is 0 for the empty input only. -/
theorem freqTableInvariants : Obligations.FreqTableInvariants := by
  intro s t h hsucceeded
  obtain ⟨bytes, hlen, hbytes, rfl⟩ := eq_counted_of_exec_freq h hsucceeded
  have hlt : bytes.length < 2 ^ 64 := hlen ▸ s.inLen.isLt
  have hdistinct : (s.counted bytes).distinct.toNat = distinctCount (freqTable bytes) := toNat_ofNat_distinctCount _
  have hunique := hdistinct.trans (distinctCount_freqTable hlt)
  have hempty : (s.counted bytes).distinct.toNat = 0 ↔ s.inLen.toNat = 0 := by
    rw [hunique, ← hlen, List.length_eq_zero_iff, List.dedup_eq_nil, List.length_eq_zero_iff]
  exact ⟨(freqTable_sum hlt).trans hlen, rfl, hdistinct.trans (distinctCount_eq_length_filter _),
    hdistinct ▸ distinctCount_le _, hempty, bytes, hlen, hbytes, hunique⟩

end Sys2Proof.Machine

/-! PROOFS. BUILD_TREE: each merge takes the two least items, and the weights sum to OG_SIZE (42_tree_builder.md R122 to
R125). -/

namespace Sys2Proof.Machine

/-! ### The order of items (42_tree_builder.md R123) -/

theorem QueueItem.less_iff {x y : QueueItem} :
    x.less y = true ↔ x.weight.toNat < y.weight.toNat ∨ x.weight = y.weight ∧ x.index < y.index := by
  simp [QueueItem.less]

theorem QueueItem.less_trans {x y z : QueueItem} (hxy : x.less y = true) (hyz : y.less z = true) : x.less z = true := by
  simp only [QueueItem.less_iff, ← BitVec.toNat_inj] at hxy hyz ⊢
  omega

/-- Items with different indices are never equal in the order. -/
theorem QueueItem.less_of_not_less {x y : QueueItem} (h : ¬x.less y = true) (hne : x.index ≠ y.index) :
    y.less x = true := by
  simp only [QueueItem.less_iff, ← BitVec.toNat_inj] at h ⊢
  omega

/-- The item extracted comes before every other one (42_tree_builder.md R122). -/
theorem extractMin_least {queue rest : List QueueItem} {x : QueueItem} (h : extractMin queue = some (x, rest))
    (hnodup : (queue.map QueueItem.index).Nodup) : ∀ z ∈ rest, x.less z = true := by
  induction queue generalizing x rest with
  | nil => simp [extractMin] at h
  | cons y ys ih =>
    rw [List.map_cons, List.nodup_cons] at hnodup
    obtain ⟨hy, hys⟩ := hnodup
    simp only [extractMin] at h
    split at h
    · cases h
      exact fun z hz => absurd hz List.not_mem_nil
    · rename_i w ws hw
      have hleast := ih hw hys
      have hperm := extractMin_perm hw
      split at h <;> cases h
      · rename_i hyw
        intro z hz
        rcases List.mem_cons.1 (hperm.subset hz) with rfl | hz
        · exact hyw
        · exact QueueItem.less_trans hyw (hleast z hz)
      · rename_i hyw
        have hne : y.index ≠ x.index := fun e => hy (e ▸ List.mem_map_of_mem (hperm.symm.subset List.mem_cons_self))
        exact List.forall_mem_cons.2 ⟨QueueItem.less_of_not_less hyw hne, hleast⟩

/-! ### Every merge takes the two least nodes without a parent (42_tree_builder.md R122, R123) -/

/-- The item that the node at an index of an arena has in the priority structure. -/
def itemAt (arena : List Node) (i : Nat) : QueueItem := ⟨(arena.getD i Node.blank).weight, i⟩

/-- Node nd, made when the arena was given, took the two least nodes that had no parent there, the first to the left
(42_tree_builder.md R122, R123). -/
structure TakesLeast (arena : List Node) (nd : Node) : Prop where
  ordered : (itemAt arena nd.left).less (itemAt arena nd.right) = true
  leftFree : nd.left ∉ arena.flatMap Node.children
  rightFree : nd.right ∉ arena.flatMap Node.children
  least : ∀ j, j < arena.length → j ≠ nd.left → j ≠ nd.right → j ∉ arena.flatMap Node.children →
    (itemAt arena nd.right).less (itemAt arena j) = true

section
variable {table : SymbolTable Word} {arena : List Node} {queue : List QueueItem}

theorem Merging.itemAt_index (h : Merging table arena queue) {x : QueueItem} (hx : x ∈ queue) :
    itemAt arena x.index = x := by rw [itemAt, h.weights x hx]

theorem Merging.nodup (h : Merging table arena queue) :
    (queue.map QueueItem.index ++ arena.flatMap Node.children).Nodup := h.parents.nodup_iff.2 List.nodup_range

/-- The items of the priority structure have no parent. -/
theorem Merging.not_mem_children (h : Merging table arena queue) {x : QueueItem} (hx : x ∈ queue) :
    x.index ∉ arena.flatMap Node.children :=
  fun hc => List.disjoint_of_nodup_append h.nodup (List.mem_map_of_mem hx) hc

/-- Every node without a parent is an item of the priority structure. -/
theorem Merging.exists_item (h : Merging table arena queue) {i : Nat} (hi : i < arena.length)
    (hfree : i ∉ arena.flatMap Node.children) : ∃ x ∈ queue, x.index = i := by
  have hmem := h.parents.symm.subset (List.mem_range.2 hi)
  exact List.mem_map.1 ((List.mem_append.1 hmem).resolve_right hfree)

theorem Merging.takesLeast (h : Merging table arena queue) {a b : QueueItem} {queue₁ queue₂ : List QueueItem}
    (ha : extractMin queue = some (a, queue₁)) (hb : extractMin queue₁ = some (b, queue₂)) :
    TakesLeast arena (mergedNode a b) := by
  have hperm₁ := extractMin_perm ha
  have hperm₂ := extractMin_perm hb
  have hnodup : (queue.map QueueItem.index).Nodup := h.nodup.of_append_left
  have hnodup₁ : (queue₁.map QueueItem.index).Nodup := ((hperm₁.map _).nodup_iff.1 hnodup).of_cons
  have hb₁ : b ∈ queue₁ := hperm₂.symm.subset List.mem_cons_self
  have haq : a ∈ queue := hperm₁.symm.subset List.mem_cons_self
  have hbq : b ∈ queue := hperm₁.symm.subset (List.mem_cons_of_mem a hb₁)
  refine ⟨?_, h.not_mem_children haq, h.not_mem_children hbq, fun j hj hja hjb hfree => ?_⟩
  · simpa only [mergedNode, h.itemAt_index haq, h.itemAt_index hbq] using extractMin_least ha hnodup b hb₁
  · obtain ⟨z, hz, rfl⟩ := h.exists_item hj hfree
    have hz₁ : z ∈ queue₁ := (List.mem_cons.1 (hperm₁.subset hz)).resolve_left fun e => hja (e ▸ rfl)
    have hz₂ : z ∈ queue₂ := (List.mem_cons.1 (hperm₂.subset hz₁)).resolve_left fun e => hjb (e ▸ rfl)
    simpa only [mergedNode, h.itemAt_index hbq, h.itemAt_index hz] using extractMin_least hb hnodup₁ z hz₂

end

/-- Every internal node of an arena took the two least nodes that had no parent when it was made. -/
def AllTakeLeast (table : SymbolTable Word) (arena : List Node) : Prop :=
  ∀ m, distinctCount table ≤ m → m < arena.length → TakesLeast (arena.take m) (arena.getD m Node.blank)

theorem AllTakeLeast.append {table : SymbolTable Word} {arena : List Node} {nd : Node} (h : AllTakeLeast table arena)
    (hnd : TakesLeast arena nd) : AllTakeLeast table (arena ++ [nd]) := by
  intro m hm hl
  by_cases hlt : m < arena.length
  · rw [List.take_append_of_le_length hlt.le, List.getD_append _ _ _ _ hlt]
    exact h m hm hlt
  · obtain rfl : m = arena.length := by simp at hl; omega
    simpa using hnd

theorem buildTree_allTakeLeast (table : SymbolTable Word) : AllTakeLeast table (buildTree table) := by
  have hstart : AllTakeLeast table (leaves table) := fun m hm hl => absurd (leaves_length table ▸ hl) (by omega)
  obtain ⟨queue, ⟨-, h⟩, -⟩ := mergeNodes_keeps
    (P := fun arena queue => Merging table arena queue ∧ AllTakeLeast table arena)
    (fun h ha hb => ⟨h.1.merge ha hb, h.2.append (h.1.takesLeast ha hb)⟩) ⟨merging_leaves table, hstart⟩ (queueOf_length _).le
  exact h

/-! ### The same, seen from the arena -/

/-- The nodes before m, as BuildTree had made them when it made node m. -/
theorem nodeAt_buildTree_take {table : SymbolTable Word} {m i : Nat} (hi : i < m) :
    ((buildTree table).take m).getD i Node.blank = nodeAt (arenaOf (buildTree table)) i := by
  rw [nodeAt_buildTree, List.getD_eq_getElem?_getD, List.getElem?_take_of_lt hi, ← List.getD_eq_getElem?_getD]

theorem buildTree_take_length {table : SymbolTable Word} {m : Nat} (hm : m < 2 * distinctCount table - 1) :
    ((buildTree table).take m).length = m := by rw [List.length_take, buildTree_length, min_eq_left hm.le]

/-- The order of the items is the order of their nodes (42_tree_builder.md R123). -/
theorem nodeBefore_buildTree {table : SymbolTable Word} {m i j : Nat} (hi : i < m) (hj : j < m) :
    NodeBefore (arenaOf (buildTree table)) i j ↔
      (itemAt ((buildTree table).take m) i).less (itemAt ((buildTree table).take m) j) = true := by
  simp only [NodeBefore, QueueItem.less_iff, itemAt, nodeAt_buildTree_take hi, nodeAt_buildTree_take hj]

theorem mem_children_buildTree_take {table : SymbolTable Word} {m i : Nat} (hm : m < 2 * distinctCount table - 1) :
    i ∈ ((buildTree table).take m).flatMap Node.children ↔ ∃ p, IsChildBelow (arenaOf (buildTree table)) m i p := by
  have hlen := buildTree_take_length hm
  have hget {p : Nat} (hp : p < ((buildTree table).take m).length) :
      ((buildTree table).take m)[p] = nodeAt (arenaOf (buildTree table)) p := by
    rw [← nodeAt_buildTree_take (hlen ▸ hp), List.getD_eq_getElem _ _ hp]
  simp only [List.mem_flatMap, isChildBelow_iff]
  constructor
  · rintro ⟨nd, hnd, hc⟩
    obtain ⟨p, hp, rfl⟩ := List.getElem_of_mem hnd
    exact ⟨p, hlen ▸ hp, hget hp ▸ hc⟩
  · rintro ⟨p, hp, hc⟩
    rw [← hlen] at hp
    exact ⟨_, List.getElem_mem hp, hget hp ▸ hc⟩

/-- The tree in the arena after BUILD_TREE (42_tree_builder.md R120). -/
theorem tree_of_exec_buildTree {s t : State} (h : exec .buildTree s = .next t) (hsucceeded : t.Succeeded) :
    t.nodes = arenaOf (buildTree s.freq) ∧ t.nodeCount.toNat = 2 * distinctCount s.freq - 1 ∧
      t.root.toNat = 2 * distinctCount s.freq - 2 := by
  rw [exec_eq_runStages] at h
  rcases runStages_single_next.1 h with ⟨u, hu, rfl⟩ | ⟨e, stage, he, rfl⟩
  · obtain ⟨-, rfl⟩ := buildTreeBody_ok.1 hu
    exact ⟨rfl, buildTree_registers _⟩
  · exact absurd hsucceeded (stageBody_raised_ne_noError (by simp [stageBodies]) he)

/-- Settles O31: every merge takes the two least nodes without a parent, and later merges leave the arena before it alone. -/
theorem mergingTakesTheTwoLeastItems : Obligations.MergingTakesTheTwoLeastItems := by
  intro s t ht hsucceeded m hm hlt
  obtain ⟨hnodes, hcount, -⟩ := tree_of_exec_buildTree ht hsucceeded
  rw [hcount] at hlt
  rw [hnodes]
  have hmerged := buildTree_merged hm hlt
  have hleast := buildTree_allTakeLeast s.freq m hm (buildTree_length s.freq ▸ hlt)
  rw [← nodeAt_buildTree] at hleast
  have hfree {i : Nat} : i ∉ ((buildTree s.freq).take m).flatMap Node.children ↔
      ∀ p, ¬IsChildBelow (arenaOf (buildTree s.freq)) m i p :=
    (mem_children_buildTree_take hlt).not.trans not_exists
  have hlength := buildTree_take_length hlt
  refine ⟨(nodeBefore_buildTree hmerged.left hmerged.right).2 hleast.ordered, hfree.1 hleast.leftFree,
    hfree.1 hleast.rightFree, fun j hj hjl hjr hjfree => ?_⟩
  exact (nodeBefore_buildTree hmerged.right hj).2 (hleast.least j (hlength.symm ▸ hj) hjl hjr (hfree.2 hjfree))

/-! ### The weights sum to the size of the input (42_tree_builder.md R125) -/

/-- The weight of all items of the priority structure, as a natural number. -/
def totalWeight (queue : List QueueItem) : Nat := (queue.map fun x => x.weight.toNat).sum

@[simp] theorem totalWeight_cons (x : QueueItem) (queue : List QueueItem) :
    totalWeight (x :: queue) = x.weight.toNat + totalWeight queue := by simp [totalWeight]

theorem extractMin_totalWeight {queue rest : List QueueItem} {x : QueueItem} (h : extractMin queue = some (x, rest)) :
    totalWeight queue = x.weight.toNat + totalWeight rest :=
  ((extractMin_perm h).map _).sum_eq.trans (totalWeight_cons x rest)

/-- A merge does not change the total weight while it fits a register: no weight wraps. -/
theorem totalWeight_merge {queue queue₁ queue₂ : List QueueItem} {a b : QueueItem} {k : Nat}
    (ha : extractMin queue = some (a, queue₁)) (hb : extractMin queue₁ = some (b, queue₂))
    (hfits : totalWeight queue < 2 ^ 64) : totalWeight (⟨a.weight + b.weight, k⟩ :: queue₂) = totalWeight queue := by
  rw [extractMin_totalWeight ha, extractMin_totalWeight hb] at hfits ⊢
  rw [totalWeight_cons, BitVec.toNat_add, Nat.mod_eq_of_lt (by omega), Nat.add_assoc]

/-- The leaves' items have the weight of the whole table. -/
theorem totalWeight_leaves (table : SymbolTable Word) :
    totalWeight (queueOf (leaves table)) = (table.toList.map BitVec.toNat).sum := by
  have hweights : (queueOf (leaves table)).map QueueItem.weight = (leaves table).map Node.weight :=
    List.ext_getElem (by simp [queueOf]) fun i _ _ => by simp [queueOf]
  calc totalWeight (queueOf (leaves table))
      = (((queueOf (leaves table)).map QueueItem.weight).map BitVec.toNat).sum := by rw [List.map_map]; rfl
    _ = ((presentSymbols table).map fun c => (atSymbol table c).toNat).sum := by
        rw [hweights, leaves_eq_map_presentSymbols, List.map_map, List.map_map]
        rfl
    _ = (table.toList.map BitVec.toNat).sum := (table_sum_eq table).symm

/-- Where merging ends with one item, that item is the last node. -/
theorem Merging.root_index {table : SymbolTable Word} {x : QueueItem} (h : Merging table (buildTree table) [x]) :
    x.index = 2 * distinctCount table - 2 := by
  have hpos : 0 < (buildTree table).length := Nat.zero_lt_of_lt (h.index_lt List.mem_cons_self)
  have hall := h.parents.sum_eq
  rw [buildTree_length] at hpos hall
  rw [show 2 * distinctCount table - 1 = 2 * distinctCount table - 2 + 1 by omega, List.range_succ, List.sum_append,
    List.sum_append, (buildTree_children_perm table).sum_eq] at hall
  simp only [List.map_cons, List.map_nil, List.sum_singleton] at hall
  omega

/-- Merging ends with the whole weight of the table in the priority structure, where it fits a register. -/
theorem buildTree_totalWeight {table : SymbolTable Word} (hfits : (table.toList.map BitVec.toNat).sum < 2 ^ 64) :
    ∃ queue, (Merging table (buildTree table) queue ∧ totalWeight queue = (table.toList.map BitVec.toNat).sum) ∧
      queue.length ≤ 1 :=
  mergeNodes_keeps
    (P := fun arena queue => Merging table arena queue ∧ totalWeight queue = (table.toList.map BitVec.toNat).sum)
    (fun h ha hb => ⟨h.1.merge ha hb, (totalWeight_merge ha hb (h.2 ▸ hfits)).trans h.2⟩)
    ⟨merging_leaves table, totalWeight_leaves table⟩ (queueOf_length _).le

/-- The root carries the sum of the table, where that fits a register. -/
theorem buildTree_root_weight {table : SymbolTable Word} (hn : distinctCount table ≠ 0)
    (hfits : (table.toList.map BitVec.toNat).sum < 2 ^ 64) :
    (nodeAt (arenaOf (buildTree table)) (2 * distinctCount table - 2)).weight.toNat =
      (table.toList.map BitVec.toNat).sum := by
  obtain ⟨queue, ⟨h, hweight⟩, hlength⟩ := buildTree_totalWeight hfits
  obtain ⟨x, rfl⟩ : ∃ x, queue = [x] :=
    List.length_eq_one_iff.1 (le_antisymm hlength (List.length_pos_of_ne_nil (h.live hn)))
  calc (nodeAt (arenaOf (buildTree table)) (2 * distinctCount table - 2)).weight.toNat
      = x.weight.toNat := by rw [nodeAt_buildTree, ← h.root_index, h.weights x List.mem_cons_self]
    _ = totalWeight [x] := by simp [totalWeight]
    _ = _ := hweight

/-- The leaves' weights sum to the sum of the table. -/
theorem buildTree_leaf_weights (table : SymbolTable Word) :
    ((List.range (distinctCount table)).map fun i => (nodeAt (arenaOf (buildTree table)) i).weight.toNat).sum =
      (table.toList.map BitVec.toNat).sum := by
  rw [table_sum_eq]
  refine congrArg List.sum (List.ext_getElem (by simp [presentSymbols_length]) fun i h₁ h₂ => ?_)
  have hi : i < distinctCount table := by simpa using h₁
  simp only [List.getElem_map, List.getElem_range, buildTree_leaf hi, leafOf]

/-- A table without symbols sums to 0. -/
theorem table_sum_eq_zero {table : SymbolTable Word} (h : distinctCount table = 0) :
    (table.toList.map BitVec.toNat).sum = 0 := by
  rw [table_sum_eq, List.length_eq_zero_iff.1 ((presentSymbols_length table).trans h)]
  rfl

/-- Settles O32: merging keeps the total weight, which is OG_SIZE by the invariant and so fits a register. -/
theorem rootWeightIsTheOriginalSize : Obligations.RootWeightIsTheOriginalSize := by
  intro s hinv hv hsize
  obtain ⟨t, ht, hsucceeded, -⟩ := buildTreeMakesAStrictBinaryTree s hv
  obtain ⟨hnodes, -, hroot⟩ := tree_of_exec_buildTree ht hsucceeded
  have hsum := (hinv.table hv).sumIsSize
  have hn : distinctCount s.freq ≠ 0 := fun h0 =>
    hsize (BitVec.eq_of_toNat_eq (hsum.symm.trans (table_sum_eq_zero h0)))
  refine ⟨t, ht, hsucceeded, ?_, ?_⟩
  · rw [hnodes, hroot]
    exact BitVec.eq_of_toNat_eq ((buildTree_root_weight hn (hsum ▸ s.ogSize.isLt)).trans hsum)
  · rw [hnodes]
    exact (buildTree_leaf_weights s.freq).trans hsum

end Sys2Proof.Machine

/-! PROOFS. GEN_CODES: the state it leaves, the tree it walks, and the codes it finds there (43_code_table_gen.md). -/

namespace Sys2Proof.Machine

/-! ### What GEN_CODES does (43_code_table_gen.md R140, R142) -/

/-- The state GEN_CODES leaves when the tree is current. -/
def State.codesGenerated (s : State) : State :=
  State.succeed { s with codeLen := s.treeCodes.len, codeBits := s.treeCodes.bits, status := s.status.codesMade }

theorem exec_genCodes {s : State} (hv : s.status.treeValid = true) : exec .genCodes s = .next s.codesGenerated :=
  runStages_ok (genCodesBody_ok.2 ⟨hv, rfl⟩) []

/-- The code of a symbol in a code table: its CODE_LEN and CODE_BITS (10_state.md R37, R38). -/
def CodeTable.code (t : CodeTable) (c : Byte) : BitVec 8 × BitVec 256 := (atSymbol t.len c, atSymbol t.bits c)

/-- The code in which a path is held: its length and its pattern (30_encoding.md R86). -/
def codeOfPath (path : List Bool) : BitVec 8 × BitVec 256 :=
  (BitVec.ofNat 8 path.length, BitVec.ofNat 256 (msbFirstValue path))

@[simp] theorem CodeTable.code_none (c : Byte) : CodeTable.none.code c = (0#8, 0#256) :=
  Prod.ext (CodeTable.none_len c) (CodeTable.none_bits c)

@[simp] theorem CodeTable.code_assign_same (t : CodeTable) (c : Byte) (path : List Bool) :
    (t.assign c (msbFirstValue path) path.length).code c = codeOfPath path :=
  Prod.ext (t.assign_len_same c _ _) (t.assign_bits_same c _ _)

theorem CodeTable.code_assign_other (t : CodeTable) {s c : Byte} (pattern length : Nat) (h : c ≠ s) :
    (t.assign s pattern length).code c = t.code c :=
  Prod.ext (t.assign_len_other _ _ h) (t.assign_bits_other _ _ h)

/-- The empty tree has no codes (43_code_table_gen.md R140). -/
theorem codesOfTree_zero (nodes : Vector Node 512) (root : Nat) : codesOfTree nodes 0 root = CodeTable.none := rfl

/-- The codes of one leaf: its symbol's code is the path of one edge to the left (43_code_table_gen.md R142). -/
theorem codesOfTree_one (nodes : Vector Node 512) (root : Nat) :
    codesOfTree nodes 1 root =
      CodeTable.none.assign (nodeAt nodes 0).symbol (msbFirstValue [false]) [false].length := rfl

/-- Settles O33: GEN_CODES leaves the state `codesGenerated`, and of an empty tree it makes the empty table. -/
theorem genCodesCompletes : Obligations.GenCodesCompletes := by
  intro s hv
  refine ⟨s.codesGenerated, exec_genCodes hv, rfl, fun hempty c => ?_⟩
  have hcodes : s.treeCodes = CodeTable.none := by
    rw [State.treeCodes, hempty]
    exact codesOfTree_zero _ _
  have hcode : s.treeCodes.code c = (0#8, 0#256) := by rw [hcodes, CodeTable.code_none]
  exact Prod.ext_iff.1 hcode

/-- Settles O34: the table of one leaf is the empty table with one code assigned. -/
theorem singleLeafGetsTheOneBitCodeZero : Obligations.SingleLeafGetsTheOneBitCodeZero := by
  intro s hv hone
  have hcodes : s.treeCodes = CodeTable.none.assign (nodeAt s.nodes 0).symbol (msbFirstValue [false]) [false].length := by
    rw [State.treeCodes, hone]
    exact codesOfTree_one _ _
  have hsame : s.treeCodes.code (nodeAt s.nodes 0).symbol = (1#8, 0#256) := by
    rw [hcodes, CodeTable.code_assign_same]
    rfl
  have hother : ∀ c, c ≠ (nodeAt s.nodes 0).symbol → s.treeCodes.code c = (0#8, 0#256) := fun c hc => by
    rw [hcodes, CodeTable.code_assign_other _ _ _ hc, CodeTable.code_none]
  exact ⟨s.codesGenerated, exec_genCodes hv, rfl, congrArg Prod.snd hsame, congrArg Prod.fst hsame,
    fun c hc => Prod.ext_iff.1 (hother c hc)⟩

/-! ### Code trees: the paths to their leaves -/

/-- A strict binary tree with a symbol at each leaf. -/
inductive CodeTree where
  | leaf (symbol : Byte)
  | branch (left right : CodeTree)

/-- The leaves of a tree from left to right, each with the path that leads to it, false to the left and true to the
right. -/
def CodeTree.paths : CodeTree → List (Byte × List Bool)
  | .leaf c => [(c, [])]
  | .branch l r => (l.paths.map fun x => (x.1, false :: x.2)) ++ r.paths.map fun x => (x.1, true :: x.2)

def CodeTree.symbols (tree : CodeTree) : List Byte := tree.paths.map Prod.fst

@[simp] theorem CodeTree.symbols_leaf (c : Byte) : (CodeTree.leaf c).symbols = [c] := rfl

@[simp] theorem CodeTree.symbols_branch (l r : CodeTree) : (CodeTree.branch l r).symbols = l.symbols ++ r.symbols := by
  simp [symbols, paths, Function.comp_def]

theorem CodeTree.symbols_length_pos (tree : CodeTree) : 0 < tree.symbols.length := by
  induction tree with
  | leaf c => simp
  | branch l r ihl ihr => simp only [symbols_branch, List.length_append]; omega

theorem CodeTree.mem_paths_branch {l r : CodeTree} {x : Byte × List Bool} :
    x ∈ (CodeTree.branch l r).paths ↔
      (∃ path, (x.1, path) ∈ l.paths ∧ x.2 = false :: path) ∨ (∃ path, (x.1, path) ∈ r.paths ∧ x.2 = true :: path) := by
  obtain ⟨c, p⟩ := x
  simp [paths, eq_comm]

theorem CodeTree.mem_symbols_of_mem_paths {tree : CodeTree} {c : Byte} {path : List Bool} (h : (c, path) ∈ tree.paths) :
    c ∈ tree.symbols := List.mem_map_of_mem h

/-- A path is shorter than the number of leaves. -/
theorem CodeTree.path_length_lt {tree : CodeTree} {x : Byte × List Bool} (h : x ∈ tree.paths) :
    x.2.length < tree.symbols.length := by
  induction tree generalizing x with
  | leaf c =>
    obtain rfl := List.mem_singleton.1 h
    exact Nat.zero_lt_one
  | branch l r ihl ihr =>
    have hl := l.symbols_length_pos
    have hr := r.symbols_length_pos
    rw [symbols_branch, List.length_append]
    rcases mem_paths_branch.1 h with ⟨path, hx, hp⟩ | ⟨path, hx, hp⟩
    · have hlt : path.length < l.symbols.length := ihl hx
      rw [hp, List.length_cons]
      omega
    · have hlt : path.length < r.symbols.length := ihr hx
      rw [hp, List.length_cons]
      omega

/-- In a tree of two or more leaves every path has an edge. -/
theorem CodeTree.path_length_pos {tree : CodeTree} (htwo : 2 ≤ tree.symbols.length) {x : Byte × List Bool}
    (h : x ∈ tree.paths) : 1 ≤ x.2.length := by
  cases tree with
  | leaf c => simp at htwo
  | branch l r => rcases mem_paths_branch.1 h with ⟨path, -, hp⟩ | ⟨path, -, hp⟩ <;> simp [hp]

/-- No path to a leaf goes on to another leaf (43_code_table_gen.md R143). -/
theorem CodeTree.eq_of_path_prefix {tree : CodeTree} {x y : Byte × List Bool} (hx : x ∈ tree.paths) (hy : y ∈ tree.paths)
    (h : x.2 <+: y.2) : x = y := by
  induction tree generalizing x y with
  | leaf c => exact (List.mem_singleton.1 hx).trans (List.mem_singleton.1 hy).symm
  | branch l r ihl ihr =>
    rcases mem_paths_branch.1 hx with ⟨p, hp, hxp⟩ | ⟨p, hp, hxp⟩ <;>
      rcases mem_paths_branch.1 hy with ⟨q, hq, hyq⟩ | ⟨q, hq, hyq⟩ <;>
      rw [hxp, hyq, List.cons_prefix_cons] at h <;>
      obtain ⟨hedge, hrest⟩ := h
    · obtain ⟨hsymbol, hpath⟩ := Prod.mk.inj (ihl hp hq hrest)
      exact Prod.ext hsymbol (by rw [hxp, hyq, hpath])
    · simp at hedge
    · simp at hedge
    · obtain ⟨hsymbol, hpath⟩ := Prod.mk.inj (ihr hp hq hrest)
      exact Prod.ext hsymbol (by rw [hxp, hyq, hpath])

/-- The Kraft sum of the paths is exactly 1, here in units of 2^-bound (43_code_table_gen.md R143): a branch halves what
each of its sides adds. -/
theorem CodeTree.kraft (tree : CodeTree) {bound : Nat} (h : tree.symbols.length ≤ bound + 1) :
    (tree.paths.map fun x => 2 ^ (bound - x.2.length)).sum = 2 ^ bound := by
  induction tree generalizing bound with
  | leaf c => simp [paths]
  | branch l r ihl ihr =>
    have hl := l.symbols_length_pos
    have hr := r.symbols_length_pos
    rw [symbols_branch, List.length_append] at h
    obtain ⟨bound, rfl⟩ : ∃ b, bound = b + 1 := ⟨bound - 1, by omega⟩
    simp only [paths, List.map_append, List.map_map, List.sum_append, Function.comp_def, List.length_cons,
      Nat.add_sub_add_right, ihl (show l.symbols.length ≤ bound + 1 by omega),
      ihr (show r.symbols.length ≤ bound + 1 by omega)]
    rw [pow_succ, mul_two]

/-! ### The code tree in the arena -/

/-- The nodes below index i form the tree (10_state.md R40). -/
inductive TreeAt (node : Nat → Node) : Nat → CodeTree → Prop
  | leaf {i : Nat} (hkind : (node i).kind = .leaf) : TreeAt node i (.leaf (node i).symbol)
  | branch {i : Nat} {l r : CodeTree} (hkind : (node i).kind = .internal) (hl : TreeAt node (node i).left l)
      (hr : TreeAt node (node i).right r) : TreeAt node i (.branch l r)

/-- A tree stays where the nodes in use stay as they are. -/
theorem TreeAt.mono {node node' : Nat → Node} (hsame : ∀ i, (node i).kind ≠ .unused → node' i = node i) {i : Nat}
    {tree : CodeTree} (h : TreeAt node i tree) : TreeAt node' i tree := by
  induction h with
  | leaf hkind =>
    have he := hsame _ (by rw [hkind]; decide)
    rw [← he] at hkind ⊢
    exact .leaf hkind
  | branch hkind _ _ ihl ihr =>
    have he := hsame _ (by rw [hkind]; decide)
    rw [← he] at hkind ihl ihr
    exact .branch hkind ihl ihr

/-- A path of the tree leads from its root to the leaf of its symbol (43_code_table_gen.md R141). -/
theorem TreeAt.followPath_leaf {nodes : Vector Node 512} {i : Nat} {tree : CodeTree} (h : TreeAt (nodeAt nodes) i tree)
    {x : Byte × List Bool} (hx : x ∈ tree.paths) :
    (nodeAt nodes (followPath nodes i x.2)).kind = .leaf ∧ (nodeAt nodes (followPath nodes i x.2)).symbol = x.1 := by
  induction h generalizing x with
  | leaf hkind =>
    obtain rfl := List.mem_singleton.1 hx
    exact ⟨hkind, rfl⟩
  | branch hkind _ _ ihl ihr =>
    rcases CodeTree.mem_paths_branch.1 hx with ⟨path, hx, hp⟩ | ⟨path, hx, hp⟩
    · rw [hp]
      exact ihl hx
    · rw [hp]
      exact ihr hx

/-- The walk from node i, to which a path has led (43_code_table_gen.md R141). -/
def walkFrom (nodes : Vector Node 512) (depth i : Nat) (path : List Bool) (t : CodeTable) : CodeTable :=
  walkCodes nodes depth i (msbFirstValue path) path.length t

theorem walkFrom_leaf {nodes : Vector Node 512} {i : Nat} (hkind : (nodeAt nodes i).kind = .leaf) (depth : Nat)
    (path : List Bool) (t : CodeTable) : walkFrom nodes (depth + 1) i path t =
      t.assign (nodeAt nodes i).symbol (msbFirstValue path) path.length := by
  simp only [walkFrom, walkCodes, hkind]

theorem walkFrom_internal {nodes : Vector Node 512} {i : Nat} (hkind : (nodeAt nodes i).kind = .internal) (depth : Nat)
    (path : List Bool) (t : CodeTable) : walkFrom nodes (depth + 1) i path t =
      walkFrom nodes depth (nodeAt nodes i).right (path ++ [true])
        (walkFrom nodes depth (nodeAt nodes i).left (path ++ [false]) t) := by
  simp only [walkFrom, walkCodes, hkind, msbFirstValue_concat, List.length_append, List.length_singleton, Nat.bit_true,
    Nat.bit_false]

section
variable {nodes : Vector Node 512} {i : Nat} {tree : CodeTree}

/-- The walk of a tree leaves the codes of other symbols alone. -/
theorem TreeAt.code_walkFrom_of_not_mem (h : TreeAt (nodeAt nodes) i tree) {depth : Nat}
    (hdepth : tree.symbols.length ≤ depth) {c : Byte} (hc : c ∉ tree.symbols) (path : List Bool) (t : CodeTable) :
    (walkFrom nodes depth i path t).code c = t.code c := by
  induction h generalizing depth path t with
  | leaf hkind =>
    obtain ⟨depth, rfl⟩ : ∃ d, depth = d + 1 := Nat.exists_eq_succ_of_ne_zero (by simp at hdepth; omega)
    rw [walkFrom_leaf hkind]
    exact t.code_assign_other _ _ fun e => hc (List.mem_singleton.2 e)
  | @branch _ l r hkind _ _ ihl ihr =>
    have hl := l.symbols_length_pos
    have hr := r.symbols_length_pos
    rw [CodeTree.symbols_branch, List.length_append] at hdepth
    rw [CodeTree.symbols_branch, List.mem_append, not_or] at hc
    obtain ⟨depth, rfl⟩ : ∃ d, depth = d + 1 := ⟨depth - 1, by omega⟩
    rw [walkFrom_internal hkind, ihr (by omega) hc.2, ihl (by omega) hc.1]

/-- The walk of a tree without repeated symbols gives each symbol its path, behind the path to the tree
(43_code_table_gen.md R141). -/
theorem TreeAt.code_walkFrom_of_mem (h : TreeAt (nodeAt nodes) i tree) {depth : Nat}
    (hdepth : tree.symbols.length ≤ depth) (hnodup : tree.symbols.Nodup) {x : Byte × List Bool} (hx : x ∈ tree.paths)
    (path : List Bool) (t : CodeTable) : (walkFrom nodes depth i path t).code x.1 = codeOfPath (path ++ x.2) := by
  induction h generalizing depth x path t with
  | leaf hkind =>
    obtain ⟨depth, rfl⟩ : ∃ d, depth = d + 1 := Nat.exists_eq_succ_of_ne_zero (by simp at hdepth; omega)
    obtain rfl := List.mem_singleton.1 hx
    rw [walkFrom_leaf hkind, CodeTable.code_assign_same, List.append_nil]
  | @branch _ l r hkind _ hright ihl ihr =>
    have hl := l.symbols_length_pos
    have hr := r.symbols_length_pos
    rw [CodeTree.symbols_branch, List.length_append] at hdepth
    rw [CodeTree.symbols_branch] at hnodup
    obtain ⟨depth, rfl⟩ : ∃ d, depth = d + 1 := ⟨depth - 1, by omega⟩
    rw [walkFrom_internal hkind]
    rcases CodeTree.mem_paths_branch.1 hx with ⟨p, hp, hxp⟩ | ⟨p, hp, hxp⟩
    · have hother : x.1 ∉ r.symbols :=
        List.disjoint_of_nodup_append hnodup (CodeTree.mem_symbols_of_mem_paths hp)
      rw [hright.code_walkFrom_of_not_mem (by omega) hother, ihl (by omega) hnodup.of_append_left hp, hxp,
        List.append_assoc, List.singleton_append]
    · rw [ihr (by omega) hnodup.of_append_right hp, hxp, List.append_assoc, List.singleton_append]

end

/-! ### The code tree of a table (42_tree_builder.md R121, R122) -/

/-- Every item of the priority structure is the root of a tree, and the leaves of these trees are those of the table. -/
def Forest (table : SymbolTable Word) (arena : List Node) (queue : List QueueItem) : Prop :=
  ∃ forest, List.Forall₂ (fun x tree => TreeAt (fun i => arena.getD i Node.blank) x.index tree) queue forest ∧
    (forest.flatMap CodeTree.symbols).Perm (presentSymbols table)

theorem forest_leaves (table : SymbolTable Word) : Forest table (leaves table) (queueOf (leaves table)) := by
  refine ⟨(presentSymbols table).map .leaf, ?_, by simp [List.flatMap_map]⟩
  refine List.forall₂_iff_get.2 ⟨by simp [queueOf_length, leaves_length, presentSymbols_length], fun i h₁ h₂ => ?_⟩
  rw [List.length_map] at h₂
  have hnode : (leaves table).getD i Node.blank = leafOf table (presentSymbols table)[i] := by
    simp [leaves_eq_map_presentSymbols, h₂]
  have htree : TreeAt (fun i => (leaves table).getD i Node.blank) i (.leaf ((leaves table).getD i Node.blank).symbol) :=
    .leaf (by rw [hnode]; rfl)
  rw [hnode] at htree
  simpa [queueOf, leafOf] using htree

/-- A merge makes one tree of two. -/
theorem Forest.merge {table : SymbolTable Word} {arena : List Node} {queue queue₁ queue₂ : List QueueItem}
    {a b : QueueItem} (h : Forest table arena queue) (ha : extractMin queue = some (a, queue₁))
    (hb : extractMin queue₁ = some (b, queue₂)) :
    Forest table (arena ++ [mergedNode a b]) (⟨a.weight + b.weight, arena.length⟩ :: queue₂) := by
  obtain ⟨forest, htrees, hsymbols⟩ := h
  have hperm : queue.Perm (a :: b :: queue₂) := (extractMin_perm ha).trans ((extractMin_perm hb).cons a)
  obtain ⟨forest', htrees, hforest⟩ := List.perm_comp_forall₂ hperm.symm htrees
  obtain ⟨treeA, _, hA, htail, rfl⟩ := List.forall₂_cons_left_iff.1 htrees
  obtain ⟨treeB, forest₂, hB, hrest, rfl⟩ := List.forall₂_cons_left_iff.1 htail
  have hold : ∀ i, (arena.getD i Node.blank).kind ≠ .unused →
      (arena ++ [mergedNode a b]).getD i Node.blank = arena.getD i Node.blank := fun i hi => by
    refine List.getD_append _ _ _ _ (Nat.lt_of_not_le fun hle => hi ?_)
    rw [List.getD_eq_default _ _ hle]
    rfl
  have hnew : (arena ++ [mergedNode a b]).getD arena.length Node.blank = mergedNode a b := by simp
  refine ⟨.branch treeA treeB :: forest₂, .cons (.branch ?_ ?_ ?_) (hrest.imp fun _ _ ht => ht.mono hold), ?_⟩
  · exact congrArg Node.kind hnew
  · rw [hnew]
    exact hA.mono hold
  · rw [hnew]
    exact hB.mono hold
  · have hflat := (hforest.flatMap_right CodeTree.symbols).trans hsymbols
    simpa only [List.flatMap_cons, CodeTree.symbols_branch, List.append_assoc] using hflat

/-- The tree of the arena that BUILD_TREE makes of a table: it has the root on top, and each present symbol at one leaf. -/
structure CodeTree.IsTreeOf (tree : CodeTree) (table : SymbolTable Word) : Prop where
  atRoot : TreeAt (nodeAt (arenaOf (buildTree table))) (2 * distinctCount table - 2) tree
  symbols : tree.symbols.Perm (presentSymbols table)

theorem exists_isTreeOf {table : SymbolTable Word} (hn : distinctCount table ≠ 0) :
    ∃ tree : CodeTree, tree.IsTreeOf table := by
  obtain ⟨queue, ⟨hmerging, forest, htrees, hsymbols⟩, hlength⟩ := mergeNodes_keeps
    (P := fun arena queue => Merging table arena queue ∧ Forest table arena queue)
    (fun h ha hb => ⟨h.1.merge ha hb, h.2.merge ha hb⟩) ⟨merging_leaves table, forest_leaves table⟩ (queueOf_length _).le
  obtain ⟨root, rfl⟩ : ∃ root, queue = [root] :=
    List.length_eq_one_iff.1 (le_antisymm hlength (List.length_pos_of_ne_nil (hmerging.live hn)))
  obtain ⟨tree, _, htree, hnil, rfl⟩ := List.forall₂_cons_left_iff.1 htrees
  obtain rfl := List.forall₂_nil_left_iff.1 hnil
  refine ⟨tree, ?_, by simpa using hsymbols⟩
  rw [← Merging.root_index hmerging]
  exact htree.mono fun i _ => nodeAt_buildTree table i

theorem CodeTree.IsTreeOf.symbols_length {tree : CodeTree} {table : SymbolTable Word} (h : tree.IsTreeOf table) :
    tree.symbols.length = distinctCount table := h.symbols.length_eq.trans (presentSymbols_length table)

/-! ### The codes of a table (43_code_table_gen.md R141 to R143) -/

/-- The paths are those that the code table of a frequency table holds: one for each present symbol, none of them the
beginning of another, and with the Kraft sum of R143 in units of 2^-255. -/
structure CodePaths (table : SymbolTable Word) (paths : List (Byte × List Bool)) : Prop where
  symbols : (paths.map Prod.fst).Perm (presentSymbols table)
  code : ∀ x ∈ paths, (codesOfTable table).code x.1 = codeOfPath x.2
  absent : ∀ c, c ∉ presentSymbols table → (codesOfTable table).code c = (0#8, 0#256)
  nonempty : ∀ x ∈ paths, 1 ≤ x.2.length
  short : ∀ x ∈ paths, x.2.length ≤ 255
  prefixFree : ∀ x ∈ paths, ∀ y ∈ paths, x.2 <+: y.2 → x = y
  kraft : (paths.map fun x => 2 ^ (255 - x.2.length)).sum =
    if distinctCount table = 0 then 0 else if distinctCount table = 1 then 2 ^ 254 else 2 ^ 255

theorem codePaths_of_empty {table : SymbolTable Word} (hn : distinctCount table = 0) : CodePaths table [] := by
  have hcodes : codesOfTable table = CodeTable.none := by
    rw [codesOfTable, treeSize, buildTree_length, hn]
    exact codesOfTree_zero _ _
  have hsymbols : presentSymbols table = [] := List.length_eq_zero_iff.1 ((presentSymbols_length table).trans hn)
  exact {
    symbols := by rw [hsymbols]; rfl
    code := by simp
    absent := fun c _ => by rw [hcodes, CodeTable.code_none]
    nonempty := by simp
    short := by simp
    prefixFree := by simp
    kraft := by simp [hn] }

/-- One leaf has the path of one edge to the left, though the tree has no edge (43_code_table_gen.md R142). -/
theorem codePaths_of_single {table : SymbolTable Word} {c : Byte} (h : presentSymbols table = [c]) :
    CodePaths table [(c, [false])] := by
  have hn : distinctCount table = 1 := by rw [← presentSymbols_length, h]; rfl
  have hleaf : nodeAt (arenaOf (buildTree table)) 0 = leafOf table c := by
    rw [buildTree_leaf (by omega)]
    simp only [h, List.getElem_cons_zero]
  have hcodes : codesOfTable table = CodeTable.none.assign c (msbFirstValue [false]) [false].length := by
    rw [codesOfTable, treeSize, buildTree_length, hn, codesOfTree_one, hleaf]
    rfl
  exact {
    symbols := by rw [h]; rfl
    code := List.forall_mem_singleton.2 (by rw [hcodes, CodeTable.code_assign_same])
    absent := fun d hd => by
      rw [h, List.mem_singleton] at hd
      rw [hcodes, CodeTable.code_assign_other _ _ _ hd, CodeTable.code_none]
    nonempty := by simp
    short := by simp
    prefixFree := by simp
    kraft := by simp [hn] }

theorem codesOfTable_eq_walkFrom {table : SymbolTable Word} (htwo : 2 ≤ distinctCount table) :
    codesOfTable table =
      walkFrom (arenaOf (buildTree table)) 512 (2 * distinctCount table - 2) [] CodeTable.none := by
  rw [codesOfTable, codesOfTree, treeSize, buildTree_length, if_neg (by omega), if_neg (by omega), Nat.sub_sub]
  rfl

/-- A tree of two or more leaves has its own paths. -/
theorem CodeTree.IsTreeOf.codePaths {tree : CodeTree} {table : SymbolTable Word} (h : tree.IsTreeOf table)
    (htwo : 2 ≤ distinctCount table) : CodePaths table tree.paths := by
  have hlength := h.symbols_length
  have hle := distinctCount_le table
  have hdepth : tree.symbols.length ≤ 512 := by omega
  have hnodup : tree.symbols.Nodup := h.symbols.nodup_iff.2 (presentSymbols_nodup table)
  have hcodes := codesOfTable_eq_walkFrom htwo
  exact {
    symbols := h.symbols
    code := fun x hx => by rw [hcodes, h.atRoot.code_walkFrom_of_mem hdepth hnodup hx, List.nil_append]
    absent := fun c hc => by
      rw [hcodes, h.atRoot.code_walkFrom_of_not_mem hdepth fun hmem => hc (h.symbols.subset hmem), CodeTable.code_none]
    nonempty := fun x hx => path_length_pos (by omega) hx
    short := fun x hx => by
      have hlt := path_length_lt hx
      omega
    prefixFree := fun x hx y hy => eq_of_path_prefix hx hy
    kraft := by rw [tree.kraft (by omega), if_neg (by omega), if_neg (by omega)] }

theorem exists_codePaths (table : SymbolTable Word) : ∃ paths, CodePaths table paths := by
  rcases Nat.lt_or_ge (distinctCount table) 2 with hlt | htwo
  · rcases Nat.lt_or_ge (distinctCount table) 1 with hzero | hone
    · exact ⟨[], codePaths_of_empty (by omega)⟩
    · obtain ⟨c, hc⟩ := List.length_eq_one_iff.1 (show (presentSymbols table).length = 1 by
        rw [presentSymbols_length]; omega)
      exact ⟨_, codePaths_of_single hc⟩
  · obtain ⟨tree, htree⟩ := exists_isTreeOf (table := table) (by omega)
    exact ⟨tree.paths, htree.codePaths htwo⟩

/-! ### The codes in a state -/

theorem State.CodesOk.code_eq {s : State} (h : s.CodesOk) (c : Byte) :
    (atSymbol s.codeLen c, atSymbol s.codeBits c) = (codesOfTable s.freq).code c := by
  rw [h.lengths, h.patterns, CodeTable.code]

theorem State.TreeOk.codesGenerated_codesOk {s : State} (h : s.TreeOk) : s.codesGenerated.CodesOk :=
  ⟨congrArg CodeTable.len h.treeCodes_eq, congrArg CodeTable.bits h.treeCodes_eq⟩

/-- The number a path spells has no bit above its length. -/
theorem msbFirstValue_lt (path : List Bool) : msbFirstValue path < 2 ^ path.length := by
  induction path using List.reverseRecOn with
  | nil => simp [msbFirstValue]
  | append_singleton path b ih =>
    rw [msbFirstValue_concat, List.length_append, List.length_singleton]
    exact Nat.bit_lt_two_pow_succ_iff.2 ih

section
variable {s : State} {paths : List (Byte × List Bool)} (h : CodePaths s.freq paths)
include h

theorem CodePaths.exists_path {c : Byte} (hc : atSymbol s.freq c ≠ 0#64) : ∃ path, (c, path) ∈ paths := by
  simpa using h.symbols.symm.subset (mem_presentSymbols.2 hc)

variable (hcodes : s.CodesOk)
include hcodes

theorem CodePaths.code_of_absent {c : Byte} (hc : atSymbol s.freq c = 0#64) :
    atSymbol s.codeLen c = 0#8 ∧ atSymbol s.codeBits c = 0#256 :=
  Prod.ext_iff.1 ((hcodes.code_eq c).trans (h.absent c fun hmem => mem_presentSymbols.1 hmem hc))

variable {c : Byte} {path : List Bool} (hx : (c, path) ∈ paths)
include hx

theorem CodePaths.code_of_path :
    atSymbol s.codeLen c = BitVec.ofNat 8 path.length ∧ atSymbol s.codeBits c = BitVec.ofNat 256 (msbFirstValue path) :=
  Prod.ext_iff.1 ((hcodes.code_eq c).trans (h.code _ hx))

theorem CodePaths.toNat_codeLen : (atSymbol s.codeLen c).toNat = path.length := by
  rw [(h.code_of_path hcodes hx).1]
  exact Nat.mod_eq_of_lt ((h.short _ hx).trans_lt (by decide))

theorem CodePaths.codeOf_eq : s.codeOf c = path := by
  obtain ⟨hlen, hbits⟩ := h.code_of_path hcodes hx
  rw [State.codeOf, hlen, hbits, codeBitList_msbFirstValue (h.short _ hx)]

/-- CODE_BITS has no bit above the length (10_state.md R38). -/
theorem CodePaths.codeBits_lt : (atSymbol s.codeBits c).toNat < 2 ^ (atSymbol s.codeLen c).toNat := by
  rw [h.toNat_codeLen hcodes hx, (h.code_of_path hcodes hx).2]
  exact (Nat.mod_le _ _).trans_lt (msbFirstValue_lt path)

end

/-- Settles O35: the codes are the paths of the code tree in the arena, and each path leads to its symbol's leaf. -/
theorem codesArePathsFromTheRoot : Obligations.CodesArePathsFromTheRoot := by
  intro s hv htree htwo
  obtain ⟨tree, hof⟩ := exists_isTreeOf (table := s.freq) (by omega)
  have hpaths : CodePaths s.codesGenerated.freq tree.paths := hof.codePaths htwo
  have hcodes := htree.codesGenerated_codesOk
  have hroot : s.root.toNat = 2 * distinctCount s.freq - 2 := by
    rw [htree.rootIsLast, treeSize, buildTree_length, Nat.sub_sub]
  refine ⟨s.codesGenerated, exec_genCodes hv, rfl, fun c hc => ?_, fun c hc => hpaths.code_of_absent hcodes hc⟩
  obtain ⟨path, hx⟩ := hpaths.exists_path hc
  obtain ⟨hkind, hsymbol⟩ := hof.atRoot.followPath_leaf hx
  rw [hpaths.codeOf_eq hcodes hx, htree.arena, hroot]
  exact ⟨hkind, hsymbol, hpaths.codeBits_lt hcodes hx⟩

/-! ### The properties of R143 -/

/-- A sum over the alphabet to which absent symbols add nothing is a sum over the present symbols. -/
theorem sum_eq_sum_presentSymbols (table : SymbolTable Word) (f : Byte → Nat) :
    ((List.range 256).map fun c =>
      if atSymbol table (BitVec.ofNat 8 c) = 0#64 then 0 else f (BitVec.ofNat 8 c)).sum =
      ((presentSymbols table).map f).sum := by
  have hfilter : ∀ l : List Byte, (l.map fun c => if atSymbol table c = 0#64 then 0 else f c).sum =
      ((l.filter fun c => atSymbol table c != 0#64).map f).sum := fun l => by
    induction l with
    | nil => rfl
    | cons c l ih => by_cases h : atSymbol table c = 0#64 <;> simp [h, ih]
  rw [presentSymbols, ← hfilter, List.map_map]
  rfl

section
variable {s : State} (h : s.CodesOk)
include h

/-- Exactly the present symbols have codes. -/
theorem State.CodesOk.one_le_codeLen_iff (c : Byte) :
    1 ≤ (atSymbol s.codeLen c).toNat ↔ atSymbol s.freq c ≠ 0#64 := by
  obtain ⟨paths, hpaths⟩ := exists_codePaths s.freq
  refine ⟨fun hlen habsent => ?_, fun hc => ?_⟩
  · rw [(hpaths.code_of_absent h habsent).1] at hlen
    exact absurd hlen (by decide)
  · obtain ⟨path, hx⟩ := hpaths.exists_path hc
    rw [hpaths.toNat_codeLen h hx]
    exact hpaths.nonempty _ hx

/-- No code begins another symbol's code. -/
theorem State.CodesOk.eq_of_codeOf_prefix {c d : Byte} (hc : atSymbol s.freq c ≠ 0#64) (hd : atSymbol s.freq d ≠ 0#64)
    (hprefix : s.codeOf c <+: s.codeOf d) : c = d := by
  obtain ⟨paths, hpaths⟩ := exists_codePaths s.freq
  obtain ⟨p, hp⟩ := hpaths.exists_path hc
  obtain ⟨q, hq⟩ := hpaths.exists_path hd
  rw [hpaths.codeOf_eq h hp, hpaths.codeOf_eq h hq] at hprefix
  exact congrArg Prod.fst (hpaths.prefixFree _ hp _ hq hprefix)

theorem State.CodesOk.kraftSum_eq : s.kraftSum =
    if distinctCount s.freq = 0 then 0 else if distinctCount s.freq = 1 then 2 ^ 254 else 2 ^ 255 := by
  obtain ⟨paths, hpaths⟩ := exists_codePaths s.freq
  calc s.kraftSum
      = ((presentSymbols s.freq).map fun c => 2 ^ (255 - (atSymbol s.codeLen c).toNat)).sum :=
        sum_eq_sum_presentSymbols s.freq fun c => 2 ^ (255 - (atSymbol s.codeLen c).toNat)
    _ = ((paths.map Prod.fst).map fun c => 2 ^ (255 - (atSymbol s.codeLen c).toNat)).sum :=
        (hpaths.symbols.symm.map _).sum_eq
    _ = (paths.map fun x => 2 ^ (255 - x.2.length)).sum := by
        rw [List.map_map]
        refine congrArg List.sum (List.map_congr_left fun x hx => ?_)
        rw [Function.comp_apply, hpaths.toNat_codeLen h hx]
    _ = _ := hpaths.kraft

end

/-- BUILD_TREE leaves the current tree of the table (10_state.md R24). -/
theorem treeOk_of_exec_buildTree {s t : State} (h : exec .buildTree s = .next t) (hsucceeded : t.Succeeded) :
    t.status.treeValid = true ∧ t.freq = s.freq ∧ t.TreeOk := by
  obtain ⟨hnodes, hcount, hroot⟩ := tree_of_exec_buildTree h hsucceeded
  have hkeeps : t.status.treeValid = true ∧ t.freq = s.freq := by
    rw [exec_eq_runStages] at h
    rcases runStages_single_next.1 h with ⟨u, hu, rfl⟩ | ⟨e, stage, he, rfl⟩
    · obtain ⟨-, rfl⟩ := buildTreeBody_ok.1 hu
      exact ⟨rfl, rfl⟩
    · exact absurd hsucceeded (stageBody_raised_ne_noError (by simp [stageBodies]) he)
  obtain ⟨hv, hfreq⟩ := hkeeps
  refine ⟨hv, hfreq, ?_, ?_, ?_⟩
  · rw [hnodes, hfreq]
  · rw [hcount, treeSize, buildTree_length, hfreq]
  · rw [hroot, treeSize, buildTree_length, hfreq, Nat.sub_sub]

/-- Settles O36: the codes of the tree's table do not begin one another and have the Kraft sum of R143, one leaf's code included. -/
theorem codesArePrefixFreeWithFullKraftSum : Obligations.CodesArePrefixFreeWithFullKraftSum := by
  intro s t u ht hsucceeded hu
  obtain ⟨hv, hfreq, htree⟩ := treeOk_of_exec_buildTree ht hsucceeded
  obtain rfl : t.codesGenerated = u := by simpa [exec_genCodes hv] using hu
  have hcodes := htree.codesGenerated_codesOk
  have hkraft := hcodes.kraftSum_eq
  rw [show t.codesGenerated.freq = s.freq from hfreq] at hkraft
  rw [← hfreq] at hkraft ⊢
  refine ⟨rfl, fun c => ?_, fun c d hc hd hne => ?_, fun _ c d hc hd hne hprefix => ?_, fun htwo => ?_, fun hone => ?_⟩
  · rw [one_le_toNat_iff_ne_zero]
    exact hcodes.one_le_codeLen_iff c
  · rintro ⟨hlen, hbits⟩
    refine hne (hcodes.eq_of_codeOf_prefix hc hd ?_)
    rw [State.codeOf, State.codeOf, hlen, hbits]
  · exact hne (hcodes.eq_of_codeOf_prefix hc hd hprefix)
  · rw [hkraft, if_neg (by omega), if_neg (by omega)]
  · rw [hkraft, if_neg (by omega), if_pos hone]

end Sys2Proof.Machine

/-! PROOFS. PACK: the layout of a container, the state PACK leaves, and what the output commands keep (44_bitpacker.md,
46_container.md R190 to R192). -/

namespace Sys2Proof.Machine

/-! ### Bytes end to end in memory -/

theorem Memory.holds_append {m : Memory} {a : Nat} {xs ys : List Byte} :
    m.Holds a (xs ++ ys) ↔ m.Holds a xs ∧ m.Holds (a + xs.length) ys := by
  constructor
  · refine fun h => ⟨fun j hj => ?_, fun j hj => ?_⟩
    · rw [h j (by rw [List.length_append]; omega), List.getElem?_append_left hj]
    · rw [Nat.add_assoc, h _ (by rw [List.length_append]; omega), List.getElem?_append_right (by omega),
        Nat.add_sub_cancel_left]
  · rintro ⟨hxs, hys⟩ j hj
    rw [List.length_append] at hj
    rcases Nat.lt_or_ge j xs.length with hlt | hle
    · rw [hxs j hlt, List.getElem?_append_left hlt]
    · obtain ⟨k, rfl⟩ := Nat.exists_eq_add_of_le hle
      rw [← Nat.add_assoc, hys k (by omega), List.getElem?_append_right (by omega), Nat.add_sub_cancel_left]

theorem Memory.holds_writeBytes (m : Memory) (a : Nat) (bytes : List Byte) : (m.writeBytes a bytes).Holds a bytes := by
  intro j hj
  rw [Memory.read_writeBytes, if_pos (by omega), Nat.add_sub_cancel_left]

/-- Pieces of n bytes each stand n bytes apart. -/
theorem Memory.Holds.piece {α : Type} {m : Memory} {f : α → List Byte} {n : Nat} (hlength : ∀ x, (f x).length = n)
    {a : Nat} {l : List α} (h : m.Holds a (l.flatMap f)) {j : Nat} {x : α} (hx : l[j]? = some x) :
    m.Holds (a + n * j) (f x) := by
  induction l generalizing a j with
  | nil => simp at hx
  | cons y l ih =>
    rw [List.flatMap_cons, Memory.holds_append, hlength] at h
    cases j with
    | zero =>
      obtain rfl : y = x := by simpa using hx
      exact h.1
    | succ j =>
      rw [Nat.mul_succ, Nat.add_comm (n * j), ← Nat.add_assoc]
      exact ih h.2 (by simpa using hx)

/-! ### The layout of a container (46_container.md R190 to R192) -/

/-- The records are those of the present symbols in ascending order. -/
theorem recordsOf_eq_map_presentSymbols (table : SymbolTable Word) :
    recordsOf table = (presentSymbols table).map fun c => (c, atSymbol table c) := by
  have hleaves : recordsOf table = (leaves table).map fun nd => (nd.symbol, nd.weight) := by
    rw [recordsOf, leaves, List.map_filterMap]
    refine List.filterMap_congr fun p _ => ?_
    by_cases h : p.1 = 0#64 <;> simp [h]
  rw [hleaves, leaves_eq_map_presentSymbols, List.map_map]
  rfl

/-- The four parts of a container, each at its offset (46_container.md R190). -/
theorem Memory.holds_container {m : Memory} {n : Nat} {og : Word} {table : SymbolTable Word} {payload : List Byte} :
    m.Holds 0 (headerAndRecords n og table ++ payload) ↔
      m.Holds 0 (le64 (BitVec.ofNat 64 n)) ∧ m.Holds 8 (le64 og) ∧
        m.Holds headerBytes ((recordsOf table).flatMap recordBytesOf) ∧
        m.Holds (recordOffset (distinctCount table)) payload := by
  rw [Memory.holds_append, headerAndRecords_length, recordsOf_length, headerAndRecords, Memory.holds_append,
    Memory.holds_append, List.length_append, le64_length, le64_length, Nat.zero_add, Nat.zero_add, Nat.zero_add,
    and_assoc, and_assoc]

/-- Memory that holds the container of an input holds it in the terms of `HoldsContainer`. -/
theorem Memory.holdsContainer_of_holds {m : Memory} {bytes : List Byte} (h : m.Holds 0 (containerOf bytes)) :
    m.HoldsContainer (freqTable bytes) (BitVec.ofNat 64 bytes.length)
      (encodeBits (codesOfTable (freqTable bytes)).len (codesOfTable (freqTable bytes)).bits bytes) := by
  obtain ⟨hcount, hsize, hrecords, hpayload⟩ := Memory.holds_container.1 h
  refine ⟨by rwa [presentSymbols_length], hsize, fun j c hc => ?_, by rwa [presentSymbols_length]⟩
  refine hrecords.piece recordBytesOf_length (x := (c, atSymbol (freqTable bytes) c)) ?_
  rw [recordsOf_eq_map_presentSymbols, List.getElem?_map, hc]
  rfl

theorem containerOf_length (bytes : List Byte) : (containerOf bytes).length =
    containerLength (distinctCount (freqTable bytes))
      (encodeBits (codesOfTable (freqTable bytes)).len (codesOfTable (freqTable bytes)).bits bytes).length := by
  rw [containerOf, payloadOf, List.length_append, headerAndRecords_length, recordsOf_length, packBits_length,
    containerLength]

/-! ### What PACK does (44_bitpacker.md R150 to R155) -/

/-- The input is the bytes, and the state holds their frequency table and its codes. -/
structure State.CodesOfInput (s : State) (bytes : List Byte) : Prop where
  length : bytes.length = s.ogSize.toNat
  input : s.inMem.Holds 0 bytes
  table : s.freq = freqTable bytes
  distinct : s.distinct.toNat = distinctCount s.freq
  codes : s.CodesOk

/-- Under the invariant, valid codes of the host's input are the codes of the bytes in IN_MEM (10_state.md R24). -/
theorem State.Inv.exists_codesOfInput {s : State} (h : s.Inv) (hc : s.status.codesValid = true)
    (hs : s.status.freqSrc = false) : ∃ bytes, s.CodesOfInput bytes := by
  have htable := h.table (h.status.treeNeedsTable (h.status.codesNeedTree hc))
  have hinput := htable.ofInput hs
  obtain ⟨bytes, hread, hfreq⟩ := hinput.tableOfBytes
  rw [← hinput.sizeIsLength] at hread
  obtain ⟨hlength, hbytes⟩ := Memory.coreRead_ok_iff_holds.1 hread
  exact ⟨bytes, hlength, hbytes, hfreq, htable.distinctIsCount, h.codes hc⟩

/-- The state in which PACK has written the container of the bytes; irreducible, so that comparing memories does not
evaluate the container. -/
@[irreducible] def State.packed (s : State) (bytes : List Byte) : State :=
  { s with
    outMem := s.outMem.writeBytes 0 (containerOf bytes)
    outLen := BitVec.ofNat 64 s.packLength
    payloadOff := BitVec.ofNat 64 (recordOffset s.distinct.toNat)
    payloadBits := BitVec.ofNat 64 (meaningfulBits s.freq s.codeLen)
    progress := s.ogSize }

theorem State.packed_outMem (s : State) (bytes : List Byte) :
    (s.packed bytes).outMem = s.outMem.writeBytes 0 (containerOf bytes) := by
  rw [State.packed]

theorem State.packed_succeed (s : State) (bytes : List Byte) :
    (s.packed bytes).succeed = { s with
      outMem := (s.packed bytes).outMem
      outLen := (s.packed bytes).outLen
      payloadOff := (s.packed bytes).payloadOff
      payloadBits := (s.packed bytes).payloadBits
      progress := s.ogSize
      pending := none
      status := s.status.completed .noError 0#4 } := by
  rw [State.packed]
  rfl

theorem State.packed_holds (s : State) (bytes : List Byte) : (s.packed bytes).outMem.Holds 0 (containerOf bytes) :=
  s.packed_outMem bytes ▸ Memory.holds_writeBytes s.outMem 0 (containerOf bytes)

section
variable {s : State} {bytes : List Byte} (h : s.CodesOfInput bytes)
include h

theorem State.CodesOfInput.length_lt : bytes.length < 2 ^ 64 := h.length ▸ s.ogSize.isLt

theorem State.CodesOfInput.ogSize_eq : BitVec.ofNat 64 bytes.length = s.ogSize := by
  rw [h.length, BitVec.ofNat_toNat, BitVec.setWidth_eq]

theorem State.CodesOfInput.encodeBits_eq :
    encodeBits (codesOfTable (freqTable bytes)).len (codesOfTable (freqTable bytes)).bits bytes =
      bytes.flatMap s.codeOf := by
  rw [← h.table, ← h.codes.lengths, ← h.codes.patterns]
  rfl

/-- TB is the number of bits of the codes of the input, so it is exact (44_bitpacker.md R152, R153). -/
theorem State.CodesOfInput.meaningfulBits_eq : meaningfulBits s.freq s.codeLen = (bytes.flatMap s.codeOf).length := by
  rw [h.table]
  exact meaningfulBits_freqTable h.length_lt _ _

/-- The length PACK computes before it writes is the container's (44_bitpacker.md R155). -/
theorem State.CodesOfInput.containerOf_length : (containerOf bytes).length = s.packLength := by
  rw [Machine.containerOf_length, h.encodeBits_eq, ← h.meaningfulBits_eq, ← h.table, ← h.distinct, State.packLength]

theorem State.CodesOfInput.serialize_eq :
    serialize s.outMem s.distinct.toNat s.ogSize s.freq (packBits (encodeBits s.codeLen s.codeBits bytes)) =
      s.outMem.writeBytes 0 (containerOf bytes) := by
  have hbits : encodeBits s.codeLen s.codeBits bytes = bytes.flatMap s.codeOf := rfl
  rw [h.distinct, serialize_eq_writeBytes, containerOf, payloadOf, h.encodeBits_eq, h.ogSize_eq, ← h.table, hbits]

/-- PACK completes exactly behind its checks, and writes the container of the input. -/
theorem State.CodesOfInput.packBody_ok {u : State} :
    packBody s = .ok u ↔ s.status.codesValid = true ∧ s.status.freqSrc = false ∧ s.ogSize ≠ 0#64 ∧
      s.packLength ≤ s.cfg.outCap.toNat ∧ u = s.packed bytes := by
  have hread : s.inMem.coreRead 0 s.ogSize.toNat = .ok bytes := Memory.coreRead_ok_iff_holds.2 ⟨h.length, h.input⟩
  simp only [Machine.packBody_ok, hread, Except.ok.injEq, exists_eq_left', h.serialize_eq, State.packed]

theorem State.CodesOfInput.outMem_from {a : Nat} (ha : s.packLength ≤ a) :
    (s.packed bytes).outMem.read a = s.outMem.read a := by
  rw [State.packed_outMem, Memory.read_writeBytes, if_neg (by rw [h.containerOf_length]; omega)]

end

section
variable {s : State} (hfits : s.packLength ≤ s.cfg.outCap.toNat) (bytes : List Byte)
include hfits

/-- OUT_LEN does not wrap, as the container fits OUT_MEM. -/
theorem State.packed_outLen : (s.packed bytes).outLen.toNat = s.packLength := by
  rw [State.packed]
  exact Nat.mod_eq_of_lt (hfits.trans_lt s.cfg.outCap.isLt)

theorem State.packed_payloadOff : (s.packed bytes).payloadOff.toNat = recordOffset s.distinct.toNat := by
  rw [State.packed]
  exact Nat.mod_eq_of_lt (((Nat.le_add_right _ _).trans hfits).trans_lt s.cfg.outCap.isLt)

/-- PAYLOAD_BITS does not wrap, as a legal OUT_MEM holds fewer than 2^64 bits (00_scope.md R6, R7). -/
theorem State.packed_payloadBits (hcfg : s.cfg.wf = true) :
    (s.packed bytes).payloadBits.toNat = meaningfulBits s.freq s.codeLen := by
  have hpayload : payloadBytes (meaningfulBits s.freq s.codeLen) ≤ s.packLength := Nat.le_add_left _ _
  simp only [Config.wf, maxCap, Bool.and_eq_true, decide_eq_true_eq] at hcfg
  rw [payloadBytes] at hpayload
  rw [State.packed]
  exact Nat.mod_eq_of_lt (by omega)

end

theorem packBody_of_emptyInput {s : State} (hc : s.status.codesValid = true) (hs : s.status.freqSrc = false)
    (hsize : s.ogSize = 0#64) : packBody s = .error (.raised .emptyInput 6#4) := by
  simp [packBody, hc, hs, hsize, Instr.opcode]

theorem packBody_of_over_capacity {s : State} (hc : s.status.codesValid = true) (hs : s.status.freqSrc = false)
    (hsize : s.ogSize ≠ 0#64) (hover : s.cfg.outCap.toNat < s.packLength) :
    packBody s = .error (.raised .capacityExceeded 6#4) := by
  simp [packBody, hc, hs, hsize, hover, Instr.opcode]

/-- Settles O37: both checks stand before the first read, the check of the size first. -/
theorem packRaisesEmptyInputThenCapacityExceeded : Obligations.PackRaisesEmptyInputThenCapacityExceeded :=
  fun _ hc hs => ⟨fun hsize => runStages_raised (packBody_of_emptyInput hc hs hsize) [],
    fun hsize hover => runStages_raised (packBody_of_over_capacity hc hs hsize hover) []⟩

/-- Settles O38: the bytes PACK writes are `containerOf` the input, which `HoldsContainer` takes apart. -/
theorem packWritesTheContainerOfTheInput : Obligations.PackWritesTheContainerOfTheInput := by
  intro s hinv hc hs hsize hfits
  obtain ⟨bytes, h⟩ := hinv.exists_codesOfInput hc hs
  have hrun : exec .pack s = .next (s.packed bytes).succeed :=
    runStages_ok (h.packBody_ok.2 ⟨hc, hs, hsize, hfits, rfl⟩) []
  have hcontainer := Memory.holdsContainer_of_holds (s.packed_holds bytes)
  rw [h.encodeBits_eq, ← h.table, h.ogSize_eq] at hcontainer
  have hbits : (s.packed bytes).payloadBits.toNat = meaningfulBits s.freq s.codeLen :=
    State.packed_payloadBits hfits bytes hinv.parameters
  refine ⟨_, bytes, h.length, h.input, hrun, hcontainer, ?_, ?_, h.containerOf_length, s.packed_holds bytes,
    fun a => h.outMem_from, State.packed_outLen hfits bytes, State.packed_payloadOff hfits bytes, hbits,
    hbits.trans h.meaningfulBits_eq, s.packed_succeed bytes⟩
  · rw [h.distinct, presentSymbols_length]
  · rw [State.packLength, h.meaningfulBits_eq]
    rfl

/-! ### What PACK and UNPACK keep (44_bitpacker.md R150, 45_bitunpacker.md R170) -/

/-- What no output command writes, as one value: the table, the tree, the codes, the flags and CMD_DROPPED. -/
def State.codecSide (s : State) :
    (SymbolTable Word × BitVec 9 × Word) × (Vector Node 512 × BitVec 10 × BitVec 9) ×
      (SymbolTable (BitVec 8) × SymbolTable (BitVec 256)) × (Bool × Bool × Bool × Bool) × Bool :=
  ((s.freq, s.distinct, s.ogSize), (s.nodes, s.nodeCount, s.root), (s.codeLen, s.codeBits), s.status.flags,
    s.status.cmdDropped)

theorem State.keeps_of_codecSide_eq {s t : State} (h : t.codecSide = s.codecSide) :
    State.KeepsTable s t ∧ State.KeepsTree s t ∧ State.KeepsCodes s t ∧ t.status.flags = s.status.flags ∧
      t.status.cmdDropped = s.status.cmdDropped := by
  simp only [State.codecSide, Status.flags, Prod.mk.injEq] at h
  obtain ⟨⟨hfreq, hdistinct, hsize⟩, ⟨hnodes, hcount, hroot⟩, ⟨hlen, hbits⟩, ⟨hfv, htv, hcv, hsrc⟩, hdropped⟩ := h
  exact ⟨⟨hfreq, hdistinct, hsize, hfv, hsrc⟩, ⟨hnodes, hcount, hroot⟩, ⟨hlen, hbits⟩,
    by rw [Status.flags, hfv, htv, hcv, hsrc]; rfl, hdropped⟩

theorem outputBody_codecSide {body : StageBody} (hb : body = packBody ∨ body = unpackBody) {s u : State}
    (hu : body s = .ok u) : u.codecSide = s.codecSide := by
  rcases hb with rfl | rfl
  · obtain ⟨-, -, -, -, bytes, -, rfl⟩ := packBody_ok.1 hu
    rfl
  · obtain ⟨-, -, -, out, used, -, rfl⟩ := unpackBody_ok.1 hu
    rfl

/-- A command of one stage that answers a next state ended with the stage's success, or with an error the stage raised. -/
theorem exec_single_next {i : Instr} {body : StageBody} (hi : stagesOf i = [body]) {s t : State}
    (h : exec i s = .next t) :
    (∃ u, body s = .ok u ∧ t = u.succeed) ∨
      (∃ e stage, body s = .error (.raised e stage) ∧ t = s.errorCompletion e stage) := by
  rwa [exec_eq_runStages, hi, runStages_single_next] at h

/-- PACK and UNPACK keep the codec side, completed or raised. -/
theorem exec_output_codecSide {i : Instr} {body : StageBody} (hi : stagesOf i = [body])
    (hb : body = packBody ∨ body = unpackBody) {s t : State} (h : exec i s = .next t) : t.codecSide = s.codecSide := by
  rcases exec_single_next hi h with ⟨u, hu, rfl⟩ | ⟨e, stage, -, rfl⟩
  · show u.codecSide = s.codecSide
    exact outputBody_codecSide hb hu
  · rfl

/-- PACK writes no byte from the container's length on, and no byte and no payload register when it raises. -/
theorem exec_pack_keeps_output {s t : State} (hinv : s.Inv) (h : exec .pack s = .next t) :
    State.KeepsOutMemFrom s t s.packLength ∧
      (¬t.Succeeded → State.KeepsOutMem s t ∧ t.payloadOff = s.payloadOff ∧ t.payloadBits = s.payloadBits) := by
  rcases exec_single_next rfl h with ⟨u, hu, rfl⟩ | ⟨e, stage, -, rfl⟩
  · obtain ⟨hc, hs, -⟩ := packBody_ok.1 hu
    obtain ⟨bytes, hinput⟩ := hinv.exists_codesOfInput hc hs
    obtain ⟨-, -, -, -, rfl⟩ := hinput.packBody_ok.1 hu
    exact ⟨fun a ha => hinput.outMem_from ha, fun hfail => absurd rfl hfail⟩
  · exact ⟨fun _ _ => rfl, fun _ => ⟨fun _ => rfl, rfl, rfl⟩⟩

/-- UNPACK writes no byte from OG_SIZE on and never PAYLOAD_OFF, and no byte and not PAYLOAD_BITS when it raises
(45_bitunpacker.md R175). -/
theorem exec_unpack_keeps_output {s t : State} (h : exec .unpack s = .next t) :
    t.payloadOff = s.payloadOff ∧ State.KeepsOutMemFrom s t s.ogSize.toNat ∧
      (¬t.Succeeded → State.KeepsOutMem s t ∧ t.payloadBits = s.payloadBits) := by
  rcases exec_single_next rfl h with ⟨u, hu, rfl⟩ | ⟨e, stage, -, rfl⟩
  · obtain ⟨-, -, -, out, used, hout, rfl⟩ := unpackBody_ok.1 hu
    refine ⟨rfl, fun a ha => ?_, fun hfail => absurd rfl hfail⟩
    rw [State.succeed_outMem, Memory.read_writeBytes, decodePayload_length hout, if_neg (by omega)]
  · exact ⟨rfl, fun _ _ => rfl, fun _ => ⟨fun _ => rfl, rfl⟩⟩

/-- Settles O25: PACK's own length is its container's, UNPACK decodes OG_SIZE bytes, and an error writes neither. -/
theorem framesOfOutputCommands : Obligations.FramesOfOutputCommands := by
  refine fun s t => ⟨fun hinv ht => ?_, fun ht => ?_⟩
  · obtain ⟨htable, htree, hcodes, hflags, hdropped⟩ :=
      State.keeps_of_codecSide_eq (exec_output_codecSide rfl (.inl rfl) ht)
    exact ⟨exec_keepsInput ht, htable, htree, hcodes, hflags, hdropped, exec_pack_keeps_output hinv ht⟩
  · obtain ⟨htable, htree, hcodes, hflags, hdropped⟩ :=
      State.keeps_of_codecSide_eq (exec_output_codecSide rfl (.inr rfl) ht)
    exact ⟨exec_keepsInput ht, htable, htree, hcodes, hflags, hdropped, exec_unpack_keeps_output ht⟩

end Sys2Proof.Machine

/-! PROOFS. UNPACK: the walk of a payload that begins with the codes of symbols decodes them (45_bitunpacker.md R172 to
R174). -/

namespace Sys2Proof.Machine

/-! ### The bits of a payload (30_encoding.md R85) -/

/-- The payload from offset off holds the bits, from bit t on. -/
def Memory.HoldsBits (m : Memory) (off t : Nat) (bits : List Bool) : Prop :=
  ∀ j, j < bits.length → (m.read (off + (t + j) / 8)).map (fun b => payloadBit b (t + j)) = bits[j]?

theorem State.PayloadBegins.holdsBits {s : State} {n : Nat} {bits : List Bool} (h : s.PayloadBegins n bits) :
    s.inMem.HoldsBits s.payloadOff.toNat 0 bits := by
  intro j hj
  rw [Nat.zero_add]
  exact h.2 j hj

/-- Bit t of packed bits stands in byte t div 8 at position 7 - (t mod 8) (30_encoding.md R85). -/
theorem Memory.Holds.packBits_bit {m : Memory} {off : Nat} {bits : List Bool} (h : m.Holds off (packBits bits))
    {t : Nat} (ht : t < bits.length) :
    (m.read (off + t / 8)).map (fun b => b.getLsbD (7 - t % 8)) = bits[t]? := by
  obtain ⟨hlength, -, hbit⟩ := bitsArePackedMostSignificantFirst bits
  have hbyte : t / 8 < (packBits bits).length := by omega
  rw [h _ hbyte, List.getElem?_eq_getElem hbyte, Option.map_some, hbit t _ (List.getElem?_eq_getElem hbyte),
    List.getElem?_eq_getElem ht, List.getD_eq_getElem _ _ ht]

theorem Memory.HoldsBits.head {m : Memory} {off t : Nat} {b : Bool} {bits : List Bool}
    (h : m.HoldsBits off t (b :: bits)) : ∃ byte, m.read (off + t / 8) = some byte ∧ payloadBit byte t = b := by
  simpa using h 0 (Nat.zero_lt_succ _)

theorem Memory.HoldsBits.append {m : Memory} {off t : Nat} {xs ys : List Bool} (h : m.HoldsBits off t (xs ++ ys)) :
    m.HoldsBits off t xs ∧ m.HoldsBits off (t + xs.length) ys := by
  refine ⟨fun j hj => ?_, fun j hj => ?_⟩
  · rw [h j (by rw [List.length_append]; omega), List.getElem?_append_left hj]
  · rw [Nat.add_assoc, h _ (by rw [List.length_append]; omega), List.getElem?_append_right (by omega),
      Nat.add_sub_cancel_left]

theorem Memory.HoldsBits.tail {m : Memory} {off t : Nat} {b : Bool} {bits : List Bool}
    (h : m.HoldsBits off t (b :: bits)) : m.HoldsBits off (t + 1) bits := (Memory.HoldsBits.append (xs := [b]) h).2

/-! ### The walk along an edge (45_bitunpacker.md R172) -/

section
variable {mem : Memory} {nodes : Vector Node 512} {root off t pos : Nat} {b : Bool} {bits : List Bool}
  (hbits : mem.HoldsBits off t (b :: bits))
include hbits

/-- An edge to a leaf ends a symbol, and the walk goes on from the root. -/
theorem decodeWalk_edge_to_leaf (hkind : (nodeAt nodes (followPath nodes pos [b])).kind = .leaf) {bitsLeft need used : Nat}
    {out : List Byte} (hrest : decodeWalk mem nodes root off bitsLeft (t + 1) root need = .ok (out, used)) :
    decodeWalk mem nodes root off (bitsLeft + 1) t pos (need + 1) =
      .ok ((nodeAt nodes (followPath nodes pos [b])).symbol :: out, used) := by
  obtain ⟨byte, hread, rfl⟩ := hbits.head
  simp only [followPath] at hkind ⊢
  simp only [decodeWalk, hread, hkind, hrest]

theorem decodeWalk_edge_to_internal (hkind : (nodeAt nodes (followPath nodes pos [b])).kind = .internal)
    (bitsLeft need : Nat) : decodeWalk mem nodes root off (bitsLeft + 1) t pos (need + 1) =
      decodeWalk mem nodes root off bitsLeft (t + 1) (followPath nodes pos [b]) (need + 1) := by
  obtain ⟨byte, hread, rfl⟩ := hbits.head
  simp only [followPath] at hkind ⊢
  simp only [decodeWalk, hread, hkind]

end

/-! ### The walk along a path, and along the codes of symbols -/

/-- A node with a path below it is internal, and the rest of the path lies below the child its first edge leads to. -/
theorem TreeAt.child {nodes : Vector Node 512} {i : Nat} {tree : CodeTree} (h : TreeAt (nodeAt nodes) i tree) {c : Byte}
    {b : Bool} {path : List Bool} (hx : (c, b :: path) ∈ tree.paths) :
    (nodeAt nodes i).kind = .internal ∧
      ∃ sub, TreeAt (nodeAt nodes) (followPath nodes i [b]) sub ∧ (c, path) ∈ sub.paths := by
  cases h with
  | leaf hkind => simp [CodeTree.paths] at hx
  | @branch _ l r hkind hl hr =>
    refine ⟨hkind, ?_⟩
    rcases CodeTree.mem_paths_branch.1 hx with ⟨p, hp, he⟩ | ⟨p, hp, he⟩
    · obtain ⟨rfl, rfl⟩ := List.cons.inj he
      exact ⟨l, hl, hp⟩
    · obtain ⟨rfl, rfl⟩ := List.cons.inj he
      exact ⟨r, hr, hp⟩

/-- The walk along the path to a leaf decodes the leaf's symbol. -/
theorem TreeAt.decodeWalk_path {mem : Memory} {nodes : Vector Node 512} {root off : Nat} {c : Byte} {b : Bool}
    {path : List Bool} {t pos : Nat} {tree : CodeTree} (h : TreeAt (nodeAt nodes) pos tree)
    (hx : (c, b :: path) ∈ tree.paths) (hbits : mem.HoldsBits off t (b :: path)) {bitsLeft need used : Nat}
    {out : List Byte}
    (hrest : decodeWalk mem nodes root off bitsLeft (t + (path.length + 1)) root need = .ok (out, used)) :
    decodeWalk mem nodes root off (bitsLeft + (path.length + 1)) t pos (need + 1) = .ok (c :: out, used) := by
  obtain ⟨-, sub, hsub, hpath⟩ := h.child hx
  induction path generalizing b t pos tree sub with
  | nil =>
    obtain ⟨hkind, hsymbol⟩ := hsub.followPath_leaf hpath
    rw [followPath] at hkind hsymbol
    rw [List.length_nil, Nat.zero_add] at hrest ⊢
    rw [decodeWalk_edge_to_leaf hbits hkind hrest, hsymbol]
  | cons b' path ih =>
    obtain ⟨hkind, sub', hsub', hpath'⟩ := hsub.child hpath
    rw [List.length_cons] at hrest ⊢
    rw [← Nat.add_assoc, decodeWalk_edge_to_internal hbits hkind]
    exact ih hsub hpath hbits.tail (by rwa [Nat.add_assoc, Nat.add_comm 1]) sub' hsub' hpath'

/-- With a tree in which every path has an edge, the codes of symbols decode to the symbols. -/
theorem TreeAt.decodeWalk_codes {mem : Memory} {nodes : Vector Node 512} {root off : Nat} {tree : CodeTree}
    (h : TreeAt (nodeAt nodes) root tree) (hedge : ∀ x ∈ tree.paths, 1 ≤ x.2.length) {code : Byte → List Bool}
    {symbols : List Byte} (hcode : ∀ c ∈ symbols, (c, code c) ∈ tree.paths) {t bitsLeft : Nat}
    (hbits : mem.HoldsBits off t (symbols.flatMap code)) (hleft : (symbols.flatMap code).length ≤ bitsLeft) :
    decodeWalk mem nodes root off bitsLeft t root symbols.length =
      .ok (symbols, t + (symbols.flatMap code).length) := by
  induction symbols generalizing t bitsLeft with
  | nil => simp [decodeWalk]
  | cons c symbols ih =>
    rw [List.forall_mem_cons] at hcode
    rw [List.flatMap_cons] at hbits hleft ⊢
    rw [List.length_append] at hleft ⊢
    obtain ⟨hfirst, hrest⟩ := hbits.append
    obtain ⟨b, path, hpath⟩ : ∃ b path, code c = b :: path :=
      List.exists_cons_of_length_pos (hedge _ hcode.1)
    rw [hpath] at hfirst hrest hleft ⊢
    rw [List.length_cons] at hrest hleft ⊢
    obtain ⟨bitsLeft, rfl⟩ : ∃ n, bitsLeft = n + (path.length + 1) := ⟨bitsLeft - (path.length + 1), by omega⟩
    rw [← Nat.add_assoc t]
    exact h.decodeWalk_path (hpath ▸ hcode.1) hfirst (ih hcode.2 hrest (by omega))

/-! ### The walk of a single leaf (45_bitunpacker.md R173) -/

theorem decodeSingle_of_holdsBits {mem : Memory} {symbol : Byte} {off t bitsLeft : Nat} {bits : List Bool}
    (hbits : mem.HoldsBits off t bits) (hleft : bits.length ≤ bitsLeft) :
    decodeSingle mem symbol off bitsLeft t bits.length =
      .ok (List.replicate bits.length symbol, t + bits.length) := by
  induction bits generalizing t bitsLeft with
  | nil => simp [decodeSingle]
  | cons b bits ih =>
    rw [List.length_cons] at hleft ⊢
    obtain ⟨bitsLeft, rfl⟩ : ∃ n, bitsLeft = n + 1 := ⟨bitsLeft - 1, by omega⟩
    obtain ⟨byte, hread, -⟩ := hbits.head
    have hrest := ih hbits.tail (Nat.le_of_succ_le_succ hleft)
    simp only [decodeSingle, hread, hrest, List.replicate_succ, Nat.add_assoc, Nat.add_comm 1]

/-! ### The payload of a state -/

/-- The bits of the code of a symbol in a code table, first edge first (30_encoding.md R86). -/
def CodeTable.bitsOf (t : CodeTable) (c : Byte) : List Bool := codeBitList (atSymbol t.len c) (atSymbol t.bits c)

/-- The bits of a code are its path. -/
theorem CodePaths.bitsOf_eq {table : SymbolTable Word} {paths : List (Byte × List Bool)} (h : CodePaths table paths)
    {c : Byte} {path : List Bool} (hx : (c, path) ∈ paths) : (codesOfTable table).bitsOf c = path := by
  obtain ⟨hlen, hbits⟩ := Prod.ext_iff.1 (h.code _ hx)
  rw [CodeTable.bitsOf]
  exact (congrArg₂ codeBitList hlen hbits).trans (codeBitList_msbFirstValue (h.short _ hx))

/-- In a table of one symbol every present symbol has the bits of the one-bit code (43_code_table_gen.md R142). -/
theorem flatMap_bitsOf_length_of_single {table : SymbolTable Word} {d : Byte} (hd : presentSymbols table = [d])
    (n : Nat) : ((List.replicate n d).flatMap (codesOfTable table).bitsOf).length = n := by
  have hcode : (codesOfTable table).bitsOf d = [false] :=
    (codePaths_of_single hd).bitsOf_eq (List.mem_singleton.2 rfl)
  simp [hcode]

section
variable {s : State} (h : s.TreeOk)
include h

theorem State.TreeOk.nodeCount_toNat : s.nodeCount.toNat = 2 * distinctCount s.freq - 1 :=
  h.count.trans (buildTree_length _)

theorem State.TreeOk.root_toNat : s.root.toNat = 2 * distinctCount s.freq - 2 := by
  rw [h.rootIsLast, treeSize, buildTree_length, Nat.sub_sub]

variable {symbols : List Byte} (hlength : symbols.length = s.ogSize.toNat)
  (hpresent : ∀ c ∈ symbols, atSymbol s.freq c ≠ 0#64)
  (hbegins : s.PayloadBegins (8 * s.payloadLength) (symbols.flatMap (codesOfTable s.freq).bitsOf))
include hlength hpresent hbegins

/-- With a tree of two or more symbols, a payload that begins with the codes of OG_SIZE symbols decodes to them
(45_bitunpacker.md R172). -/
theorem State.TreeOk.decodePayload_of_many (htwo : 2 ≤ distinctCount s.freq) :
    s.decodePayload = .ok (symbols, (symbols.flatMap (codesOfTable s.freq).bitsOf).length) := by
  obtain ⟨tree, htree⟩ := exists_isTreeOf (table := s.freq) (by omega)
  have hpaths := htree.codePaths htwo
  have hat : TreeAt (nodeAt s.nodes) s.root.toNat tree := by
    rw [h.arena, h.root_toNat]
    exact htree.atRoot
  have hmany : s.nodeCount ≠ 1#10 := fun he => by
    have hcount := h.nodeCount_toNat
    rw [he, BitVec.toNat_ofNat] at hcount
    omega
  have hcode : ∀ c ∈ symbols, (c, (codesOfTable s.freq).bitsOf c) ∈ tree.paths := fun c hc => by
    obtain ⟨path, hx⟩ := hpaths.exists_path (hpresent c hc)
    rwa [hpaths.bitsOf_eq hx]
  rw [State.decodePayload, if_neg hmany, ← hlength, hat.decodeWalk_codes hpaths.nonempty hcode hbegins.holdsBits hbegins.1,
    Nat.zero_add]

/-- With a single leaf it decodes to as many of the leaf's symbol (45_bitunpacker.md R173). -/
theorem State.TreeOk.decodePayload_of_single {d : Byte} (hd : presentSymbols s.freq = [d]) :
    s.decodePayload = .ok (symbols, (symbols.flatMap (codesOfTable s.freq).bitsOf).length) := by
  have hn : distinctCount s.freq = 1 := by rw [← presentSymbols_length, hd]; rfl
  have hsymbols : symbols = List.replicate symbols.length d := List.eq_replicate_of_mem fun c hc => by
    simpa [hd] using mem_presentSymbols.2 (hpresent c hc)
  have hbits : (symbols.flatMap (codesOfTable s.freq).bitsOf).length = symbols.length := by
    rw [hsymbols, flatMap_bitsOf_length_of_single hd, List.length_replicate]
  have hleaf : (nodeAt s.nodes 0).symbol = d := by
    rw [h.arena, buildTree_leaf (by omega)]
    simp [hd, leafOf]
  have hsingle : s.nodeCount = 1#10 := BitVec.eq_of_toNat_eq (by rw [h.nodeCount_toNat, hn]; rfl)
  rw [State.decodePayload, if_pos hsingle, hleaf, ← hlength, ← hbits,
    decodeSingle_of_holdsBits hbegins.holdsBits hbegins.1, Nat.zero_add, hbits, ← hsymbols]

theorem State.TreeOk.decodePayload_eq (hne : symbols ≠ []) :
    s.decodePayload = .ok (symbols, (symbols.flatMap (codesOfTable s.freq).bitsOf).length) := by
  obtain ⟨c, hc⟩ := List.exists_mem_of_ne_nil _ hne
  have hpos : 0 < (presentSymbols s.freq).length := List.length_pos_of_mem (mem_presentSymbols.2 (hpresent c hc))
  rcases Nat.lt_or_ge 1 (presentSymbols s.freq).length with htwo | hone
  · exact h.decodePayload_of_many hlength hpresent hbegins (presentSymbols_length s.freq ▸ htwo)
  · obtain ⟨d, hd⟩ := List.length_eq_one_iff.1 (le_antisymm hone hpos)
    exact h.decodePayload_of_single hlength hpresent hbegins hd

end

end Sys2Proof.Machine

/-! PROOFS. DECODE of the container of an input, and of what ENCODE wrote (44_bitpacker.md R151, 47_control.md R212,
R213). -/

namespace Sys2Proof.Machine

/-! ### Reading a container back (46_container.md R194 to R197) -/

theorem readU64_of_holds {m : Memory} {a : Nat} {v : Word} (h : m.Holds a (le64 v)) : readU64 m a = .ok v.toNat := by
  rw [readU64, Memory.coreRead_ok_iff_holds.2 ⟨le64_length v, h⟩, Except.map, leValue_le64]

theorem readRecord_of_holds {m : Memory} {a : Nat} {r : Byte × Word} (h : m.Holds a (recordBytesOf r)) :
    readRecord m a = .ok (r.1, r.2.toNat) := by
  obtain ⟨hsymbol, hfreq⟩ := Memory.holds_append (xs := [r.1]).1 h
  have hbyte : m.read a = some r.1 := hsymbol 0 Nat.zero_lt_one
  exact readRecord_ok.2 ⟨by rw [readByte, hbyte], readU64_of_holds hfreq⟩

/-- The core reads the records that memory holds. -/
theorem readRecords_of_holds {m : Memory} {a : Nat} {records : List (Byte × Word)}
    (h : m.Holds a (records.flatMap recordBytesOf)) :
    readRecords m a records.length = .ok (records.map fun r => (r.1, r.2.toNat)) := by
  induction records generalizing a with
  | nil => rfl
  | cons r records ih =>
    rw [List.flatMap_cons, Memory.holds_append, recordBytesOf_length] at h
    exact readRecords_succ_ok.2 ⟨_, _, rfl, readRecord_of_holds h.1, ih h.2⟩

/-- The records of a table as the core reads them. -/
def readableRecords (table : SymbolTable Word) : List (Byte × Nat) :=
  (recordsOf table).map fun r => (r.1, r.2.toNat)

theorem readableRecords_eq (table : SymbolTable Word) :
    readableRecords table = (presentSymbols table).map fun c => (c, (atSymbol table c).toNat) := by
  rw [readableRecords, recordsOf_eq_map_presentSymbols, List.map_map]
  rfl

theorem readableRecords_symbols (table : SymbolTable Word) :
    (readableRecords table).map Prod.fst = presentSymbols table := by
  rw [readableRecords_eq, List.map_map]
  exact List.map_id _

/-- The records of a table with a symbol are consistent with its sum (46_container.md R195). -/
theorem inconsistentRecords_readableRecords {table : SymbolTable Word} (hn : distinctCount table ≠ 0) :
    inconsistentRecords (readableRecords table) (table.toList.map BitVec.toNat).sum = false := by
  have hsum : ((readableRecords table).map Prod.snd).sum = (table.toList.map BitVec.toNat).sum := by
    rw [readableRecords_eq, List.map_map, table_sum_eq]
    rfl
  refine inconsistentRecords_eq_false.2 ⟨fun hnil => hn ?_, fun r hr => ?_, ?_, hsum⟩
  · rw [← presentSymbols_length, ← readableRecords_symbols, hnil]
    rfl
  · rw [readableRecords_eq] at hr
    obtain ⟨c, hc, rfl⟩ := List.mem_map.1 hr
    exact Nat.one_le_iff_ne_zero.1 (one_le_toNat_iff_ne_zero.2 (mem_presentSymbols.1 hc))
  · rw [readableRecords_symbols]
    exact presentSymbols_nodup table

/-- The records of a table make the table (46_container.md R196). -/
theorem tableOfRecords_readableRecords (table : SymbolTable Word) : tableOfRecords (readableRecords table) = table := by
  refine symbolTable_ext fun c => ?_
  by_cases hc : atSymbol table c = 0#64
  · rw [atSymbol_tableOfRecords_of_not_mem, hc]
    rw [readableRecords_symbols]
    exact fun hmem => mem_presentSymbols.1 hmem hc
  · have hmem : (c, (atSymbol table c).toNat) ∈ readableRecords table := by
      rw [readableRecords_eq]
      exact List.mem_map.2 ⟨c, mem_presentSymbols.2 hc, rfl⟩
    have hnodup : ((readableRecords table).map Prod.fst).Nodup := by
      rw [readableRecords_symbols]
      exact presentSymbols_nodup table
    rw [atSymbol_tableOfRecords_of_mem hnodup hmem, BitVec.ofNat_toNat, BitVec.setWidth_eq]

/-! ### DECODE of a container (47_control.md R213) -/

/-- The input is the container of the bytes, and inside IN_MEM. -/
structure State.ContainerIsInput (s : State) (bytes : List Byte) : Prop where
  nonempty : bytes ≠ []
  short : bytes.length < 2 ^ 64
  length : s.inLen.toNat = (containerOf bytes).length
  inside : s.inLen.toNat ≤ s.cfg.inCap.toNat
  holds : s.inMem.Holds 0 (containerOf bytes)

/-- The state in which DESERIALIZE has read the table of the container of the bytes. -/
def State.deserialized (s : State) (bytes : List Byte) : State :=
  { s with
    freq := freqTable bytes
    distinct := BitVec.ofNat 9 (distinctCount (freqTable bytes))
    ogSize := BitVec.ofNat 64 bytes.length
    payloadOff := BitVec.ofNat 64 (recordOffset (distinctCount (freqTable bytes)))
    status := s.status.tableLoaded true }

/-- The state in which BUILD_TREE has built the tree of the current table. -/
def State.treeOfTable (s : State) : State :=
  { s with
    nodes := arenaOf (buildTree s.freq)
    nodeCount := BitVec.ofNat 10 (buildTree s.freq).length
    root := BitVec.ofNat 9 ((buildTree s.freq).length - 1)
    status := s.status.treeBuilt }

theorem State.treeOfTable_treeOk (s : State) : s.treeOfTable.TreeOk := by
  obtain ⟨hcount, hroot⟩ := buildTree_registers s.freq
  have hsize : treeSize s.freq = 2 * distinctCount s.freq - 1 := buildTree_length _
  exact ⟨rfl, hcount.trans hsize.symm, hroot.trans (by rw [State.treeOfTable, hsize, Nat.sub_sub])⟩

section
variable {s : State} {bytes : List Byte} (h : s.ContainerIsInput bytes)
include h

theorem State.ContainerIsInput.ogSize_toNat : (BitVec.ofNat 64 bytes.length).toNat = bytes.length :=
  Nat.mod_eq_of_lt h.short

theorem State.ContainerIsInput.distinctCount_ne_zero : distinctCount (freqTable bytes) ≠ 0 := by
  rw [distinctCount_freqTable h.short]
  simpa using h.nonempty

theorem State.ContainerIsInput.recordOffset_le : recordOffset (distinctCount (freqTable bytes)) ≤ s.inLen.toNat := by
  rw [h.length, containerOf_length]
  exact Nat.le_add_right _ _

theorem State.ContainerIsInput.payloadOff_toNat : (s.deserialized bytes).payloadOff.toNat =
    recordOffset (distinctCount (freqTable bytes)) :=
  Nat.mod_eq_of_lt (h.recordOffset_le.trans_lt s.inLen.isLt)

/-- DESERIALIZE reads the table of the input back. -/
theorem State.ContainerIsInput.deserializeBody_eq : deserializeBody s = .ok (s.deserialized bytes) := by
  obtain ⟨hcount, hsize, hrecords, -⟩ := Memory.holds_container.1 h.holds
  have hn := distinctCount_le (freqTable bytes)
  have hle := h.recordOffset_le
  have hk : (BitVec.ofNat 64 (distinctCount (freqTable bytes))).toNat = distinctCount (freqTable bytes) :=
    Nat.mod_eq_of_lt (hn.trans_lt (by decide))
  have hheader : readHeader s.inMem = .ok (distinctCount (freqTable bytes), bytes.length) := by
    rw [readHeader_ok, readU64_of_holds hcount, readU64_of_holds hsize, hk, h.ogSize_toNat]
    exact ⟨rfl, rfl⟩
  have hread := readRecords_of_holds hrecords
  rw [recordsOf_length] at hread
  have hconsistent := inconsistentRecords_readableRecords h.distinctCount_ne_zero
  rw [freqTable_sum h.short] at hconsistent
  have hroom : headerBytes ≤ s.inLen.toNat ∧
      distinctCount (freqTable bytes) ≤ (s.inLen.toNat - headerBytes) / recordBytes := by
    rw [recordOffset, headerBytes, recordBytes] at hle
    rw [headerBytes, recordBytes]
    omega
  refine deserializeBody_ok.2 ⟨h.inside, hroom.1, _, _, _, hheader, hroom.2, hread, hconsistent, ?_⟩
  exact (tableOfRecords_readableRecords (freqTable bytes)).symm ▸ rfl

/-- The payload of the container is the payload of the input (44_bitpacker.md R152). -/
theorem State.ContainerIsInput.payloadBegins :
    (s.deserialized bytes).treeOfTable.PayloadBegins (8 * (s.deserialized bytes).treeOfTable.payloadLength)
      (bytes.flatMap (codesOfTable (freqTable bytes)).bitsOf) := by
  obtain ⟨-, -, -, hpayload⟩ := Memory.holds_container.1 h.holds
  have hoff : (s.deserialized bytes).treeOfTable.payloadOff.toNat = recordOffset (distinctCount (freqTable bytes)) :=
    h.payloadOff_toNat
  have hbits : encodeBits (codesOfTable (freqTable bytes)).len (codesOfTable (freqTable bytes)).bits bytes =
      bytes.flatMap (codesOfTable (freqTable bytes)).bitsOf := rfl
  have hleft : (s.deserialized bytes).treeOfTable.payloadLength =
      payloadBytes (bytes.flatMap (codesOfTable (freqTable bytes)).bitsOf).length := by
    rw [State.payloadLength, hoff, ← hbits]
    exact (congrArg (· - _) (h.length.trans (containerOf_length bytes))).trans (Nat.add_sub_cancel_left _ _)
  refine ⟨?_, fun t ht => ?_⟩
  · rw [hleft, payloadBytes]
    omega
  · rw [hoff, ← hbits]
    exact hpayload.packBits_bit ht

/-- UNPACK decodes the input from the payload. -/
theorem State.ContainerIsInput.decodePayload_eq : (s.deserialized bytes).treeOfTable.decodePayload =
    .ok (bytes, (bytes.flatMap (codesOfTable (freqTable bytes)).bitsOf).length) :=
  (State.treeOfTable_treeOk _).decodePayload_eq h.ogSize_toNat.symm
    (fun _ hc => mem_presentSymbols.1 ((mem_presentSymbols_freqTable h.short).2 hc)) h.payloadBegins h.nonempty

/-- DECODE of the container of an input restores the input (44_bitpacker.md R151). -/
theorem State.ContainerIsInput.exec_decode (hroom : bytes.length ≤ s.cfg.outCap.toNat) :
    ∃ t, exec .decode s = .next t ∧ t.Succeeded ∧ t.outMem = s.outMem.writeBytes 0 bytes ∧
      t.outLen.toNat = bytes.length ∧ t.status.flags = (true, true, false, true) := by
  have hbuild : buildTreeBody (s.deserialized bytes) = .ok (s.deserialized bytes).treeOfTable :=
    buildTreeBody_ok.2 ⟨rfl, rfl⟩
  have hunpack := unpackBody_ok.2 ⟨rfl, rfl, h.ogSize_toNat.trans_le hroom, bytes, _, h.decodePayload_eq, rfl⟩
  refine ⟨_, (runStages_ok h.deserializeBody_eq _).trans ((runStages_ok hbuild _).trans (runStages_ok hunpack [])),
    rfl, rfl, h.ogSize_toNat, rfl⟩

end

/-- Settles O48: DESERIALIZE reads the table back, BUILD_TREE makes the tree of it again, and UNPACK walks the codes. -/
theorem decodeRestoresTheInputOfAContainer : Obligations.DecodeRestoresTheInputOfAContainer := by
  intro s bytes hne hlength hinside hholds hroom
  have h : s.ContainerIsInput bytes := ⟨hne, hroom.trans_lt s.cfg.outCap.isLt, hlength, hinside, hholds⟩
  obtain ⟨t, ht, hsucceeded, hout, hlen, hflags⟩ := h.exec_decode hroom
  simp only [Status.flags, Prod.mk.injEq] at hflags
  obtain ⟨hfv, htv, -, hsrc⟩ := hflags
  refine ⟨t, ht, hsucceeded, hout ▸ Memory.holds_writeBytes _ _ _, hlen, fun a ha => ?_, hfv, htv, hsrc,
    exec_keepsInput ht⟩
  rw [hout, Memory.read_writeBytes, if_neg (by omega)]

/-! ### DECODE of what ENCODE wrote (44_bitpacker.md R151) -/

/-- In a run of stages that succeeds the first stage completed. -/
theorem runStages_cons_succeeded {body : StageBody} {rest : List StageBody} (hb : body ∈ stageBodies) {s t : State}
    (h : runStages (body :: rest) s = .next t) (hsucceeded : t.Succeeded) :
    ∃ u, body s = .ok u ∧ runStages rest u = .next t := by
  rcases runStages_cons_next.1 h with hok | ⟨e, stage, he, rfl⟩
  · exact hok
  · exact absurd hsucceeded (stageBody_raised_ne_noError hb he)

/-- FREQ, BUILD_TREE and GEN_CODES leave the codes of the input (47_control.md R212). -/
theorem codesOfInput_of_stages {s u₁ u₂ u₃ : State} {bytes : List Byte} (hlength : bytes.length = s.inLen.toNat)
    (hbytes : s.inMem.Holds 0 bytes) (h₁ : freqBody s = .ok u₁) (h₂ : buildTreeBody u₁ = .ok u₂)
    (h₃ : genCodesBody u₂ = .ok u₃) : u₃.CodesOfInput bytes := by
  obtain ⟨-, bytes', hread, hu₁⟩ := freqBody_ok.1 h₁
  rw [Memory.coreRead_ok_iff_holds.2 ⟨hlength, hbytes⟩, Except.ok.injEq] at hread
  obtain ⟨-, hu₂⟩ := buildTreeBody_ok.1 h₂
  obtain ⟨-, hu₃⟩ := genCodesBody_ok.1 h₃
  have htree : u₂.TreeOk := hu₂ ▸ u₁.treeOfTable_treeOk
  have hcodes : u₃.CodesOk := by
    rw [hu₃]
    exact ⟨congrArg CodeTable.len htree.treeCodes_eq, congrArg CodeTable.bits htree.treeCodes_eq⟩
  subst hread hu₁ hu₂ hu₃
  exact {
    length := hlength
    input := hbytes
    table := rfl
    distinct := toNat_ofNat_distinctCount _
    codes := hcodes }

/-- A successful ENCODE wrote the container of its input, which was not empty. -/
theorem exec_encode_succeeded {s t : State} {bytes : List Byte} (hlength : bytes.length = s.inLen.toNat)
    (hbytes : s.inMem.Holds 0 bytes) (h : exec .encode s = .next t) (hsucceeded : t.Succeeded) :
    bytes ≠ [] ∧ t.outMem.Holds 0 (containerOf bytes) ∧ t.outLen.toNat = (containerOf bytes).length := by
  rw [exec_eq_runStages] at h
  obtain ⟨u₁, h₁, h⟩ := runStages_cons_succeeded (by simp [stageBodies]) h hsucceeded
  obtain ⟨u₂, h₂, h⟩ := runStages_cons_succeeded (by simp [stageBodies]) h hsucceeded
  obtain ⟨u₃, h₃, h⟩ := runStages_cons_succeeded (by simp [stageBodies]) h hsucceeded
  obtain ⟨u₄, h₄, h⟩ := runStages_cons_succeeded (by simp [stageBodies]) h hsucceeded
  have hinput := codesOfInput_of_stages hlength hbytes h₁ h₂ h₃
  obtain ⟨-, -, hsize, hfits, rfl⟩ := hinput.packBody_ok.1 h₄
  rw [runStages_nil, Host.Outcome.next.injEq] at h
  subst h
  refine ⟨fun hnil => hsize ?_, u₃.packed_holds bytes,
    (State.packed_outLen hfits bytes).trans hinput.containerOf_length.symm⟩
  rw [← hinput.ogSize_eq, hnil]
  rfl

/-- Settles O49: ENCODE wrote the container of the input, and DECODE of that container restores the input. -/
theorem decodeInvertsEncode : Obligations.DecodeInvertsEncode := by
  intro s t u bytes hlength hbytes ht hsucceeded hlen hinside hcopy hroom
  obtain ⟨hne, hholds, hout⟩ := exec_encode_succeeded hlength hbytes ht hsucceeded
  have h : u.ContainerIsInput bytes := {
    nonempty := hne
    short := hroom.trans_lt u.cfg.outCap.isLt
    length := by rw [hlen, hout]
    inside := hinside
    holds := fun j hj => by rw [hcopy _ (by omega), hholds j hj] }
  obtain ⟨v, hv, hvs, hmem, hvlen, -⟩ := h.exec_decode hroom
  exact ⟨v, hv, hvs, hvlen, hmem ▸ Memory.holds_writeBytes _ _ _⟩

end Sys2Proof.Machine

/-! PROOFS. UNPACK: the ends a walk over a payload can have, what a completed walk consumed, and truncated payloads
(45_bitunpacker.md R170 to R176). -/

namespace Sys2Proof.Machine

/-! ### The steps of the two walks (45_bitunpacker.md R172, R173) -/

section
variable {mem : Memory} {nodes : Vector Node 512} {symbol : Byte} {root off t pos bitsLeft need : Nat}

theorem decodeWalk_unwritten (hnone : mem.read (off + t / 8) = none) :
    decodeWalk mem nodes root off (bitsLeft + 1) t pos (need + 1) = .error (.faulted (.uninitRead (off + t / 8))) := by
  simp only [decodeWalk, hnone]

/-- The walk follows the edge of the bit; at a leaf it emits the symbol and goes on from the root. -/
theorem decodeWalk_edge {byte : Byte} (hread : mem.read (off + t / 8) = some byte) :
    decodeWalk mem nodes root off (bitsLeft + 1) t pos (need + 1) =
      if (nodeAt nodes (followPath nodes pos [payloadBit byte t])).kind = .leaf then
        (decodeWalk mem nodes root off bitsLeft (t + 1) root need).map
          (Prod.map (List.cons (nodeAt nodes (followPath nodes pos [payloadBit byte t])).symbol) id)
      else decodeWalk mem nodes root off bitsLeft (t + 1) (followPath nodes pos [payloadBit byte t]) (need + 1) := by
  have hedge : (if payloadBit byte t then (nodeAt nodes pos).right else (nodeAt nodes pos).left) =
    followPath nodes pos [payloadBit byte t] := rfl
  simp only [decodeWalk, hread, hedge]
  generalize followPath nodes pos [payloadBit byte t] = pos'
  cases (nodeAt nodes pos').kind with
  | leaf => cases decodeWalk mem nodes root off bitsLeft (t + 1) root need <;> rfl
  | internal => rfl
  | unused => rfl

theorem decodeSingle_unwritten (hnone : mem.read (off + t / 8) = none) :
    decodeSingle mem symbol off (bitsLeft + 1) t (need + 1) = .error (.faulted (.uninitRead (off + t / 8))) := by
  simp only [decodeSingle, hnone]

theorem decodeSingle_bit {byte : Byte} (hread : mem.read (off + t / 8) = some byte) :
    decodeSingle mem symbol off (bitsLeft + 1) t (need + 1) =
      (decodeSingle mem symbol off bitsLeft (t + 1) need).map (Prod.map (List.cons symbol) id) := by
  simp only [decodeSingle, hread]
  cases decodeSingle mem symbol off bitsLeft (t + 1) need <;> rfl

end

/-- A walk that emits a symbol first and completes: the rest of it completed. -/
theorem emitted_ok {r : Except Stop (List Byte × Nat)} {c : Byte} {out : List Byte} {used : Nat}
    (h : r.map (Prod.map (List.cons c) id) = .ok (out, used)) : ∃ rest, out = c :: rest ∧ r = .ok (rest, used) := by
  cases r with
  | error e => simp [Except.map] at h
  | ok p =>
    obtain ⟨rest, used'⟩ := p
    simp only [Except.map, Prod.map, id, Except.ok.injEq, Prod.mk.injEq] at h
    obtain ⟨rfl, rfl⟩ := h
    exact ⟨rest, rfl, rfl⟩

/-! ### How a walk ends (45_bitunpacker.md R174, 20_memory.md R64) -/

/-- The bytes of the bits from bit t up to bit k of the payload at offset off were written. -/
def Memory.BitsWritten (m : Memory) (off t k : Nat) : Prop := ∀ i, t ≤ i → i < k → (m.read (off + i / 8)).isSome = true

/-- The ends of a walk over the n bits of a payload from bit t on: it completes inside them, it runs out of them, or it
meets the first unwritten byte. -/
inductive WalkEnds (m : Memory) (off t n : Nat) : Except Stop (List Byte × Nat) → Prop
  | decoded {out : List Byte} {used : Nat} (hinside : used ≤ t + n) (hread : m.BitsWritten off t used) :
      WalkEnds m off t n (.ok (out, used))
  | exhausted (hread : m.BitsWritten off t (t + n)) : WalkEnds m off t n (.error (.raised .malformedContainer 8#4))
  | unwritten {k : Nat} (hinside : k < t + n) (hnone : m.read (off + k / 8) = none) (hread : m.BitsWritten off t k) :
      WalkEnds m off t n (.error (.faulted (.uninitRead (off + k / 8))))

theorem Memory.bitsWritten_self (m : Memory) (off t : Nat) : m.BitsWritten off t t := fun _ hle hlt => by omega

section
variable {m : Memory} {off t : Nat} (hbit : (m.read (off + t / 8)).isSome = true)
include hbit

theorem Memory.BitsWritten.cons {k : Nat} (h : m.BitsWritten off (t + 1) k) : m.BitsWritten off t k := fun i hle hlt => by
  rcases Nat.eq_or_lt_of_le hle with rfl | hlt'
  · exact hbit
  · exact h i hlt' hlt

/-- A walk that consumes a written bit ends as the rest of it ends. -/
theorem WalkEnds.consume {n : Nat} {r : Except Stop (List Byte × Nat)} (h : WalkEnds m off (t + 1) n r) :
    WalkEnds m off t (n + 1) r := by
  have hend : t + 1 + n = t + (n + 1) := by omega
  cases h with
  | decoded hinside hread => exact .decoded (hend ▸ hinside) (hread.cons hbit)
  | exhausted hread => exact .exhausted (hend ▸ hread.cons hbit)
  | unwritten hinside hnone hread => exact .unwritten (hend ▸ hinside) hnone (hread.cons hbit)

end

/-- To emit a symbol does not change how a walk ends. -/
theorem WalkEnds.emit {m : Memory} {off t n : Nat} {r : Except Stop (List Byte × Nat)} (h : WalkEnds m off t n r)
    (c : Byte) : WalkEnds m off t n (r.map (Prod.map (List.cons c) id)) := by
  cases h with
  | decoded hinside hread => exact .decoded hinside hread
  | exhausted hread => exact .exhausted hread
  | unwritten hinside hnone hread => exact .unwritten hinside hnone hread

theorem decodeWalk_ends (mem : Memory) (nodes : Vector Node 512) (root off bitsLeft t pos need : Nat) :
    WalkEnds mem off t bitsLeft (decodeWalk mem nodes root off bitsLeft t pos need) := by
  induction bitsLeft generalizing t pos need with
  | zero =>
    cases need with
    | zero => exact .decoded (Nat.le_add_right _ _) (mem.bitsWritten_self off t)
    | succ need => exact .exhausted (mem.bitsWritten_self off t)
  | succ bitsLeft ih =>
    cases need with
    | zero => exact .decoded (Nat.le_add_right _ _) (mem.bitsWritten_self off t)
    | succ need =>
      cases hread : mem.read (off + t / 8) with
      | none =>
        rw [decodeWalk_unwritten hread]
        exact .unwritten (by omega) hread (mem.bitsWritten_self off t)
      | some byte =>
        refine WalkEnds.consume (by rw [hread]; rfl) ?_
        rw [decodeWalk_edge hread]
        split
        · exact (ih _ _ _).emit _
        · exact ih _ _ _

theorem decodeSingle_ends (mem : Memory) (symbol : Byte) (off bitsLeft t need : Nat) :
    WalkEnds mem off t bitsLeft (decodeSingle mem symbol off bitsLeft t need) := by
  induction bitsLeft generalizing t need with
  | zero =>
    cases need with
    | zero => exact .decoded (Nat.le_add_right _ _) (mem.bitsWritten_self off t)
    | succ need => exact .exhausted (mem.bitsWritten_self off t)
  | succ bitsLeft ih =>
    cases need with
    | zero => exact .decoded (Nat.le_add_right _ _) (mem.bitsWritten_self off t)
    | succ need =>
      cases hread : mem.read (off + t / 8) with
      | none =>
        rw [decodeSingle_unwritten hread]
        exact .unwritten (by omega) hread (mem.bitsWritten_self off t)
      | some byte =>
        refine WalkEnds.consume (by rw [hread]; rfl) ?_
        rw [decodeSingle_bit hread]
        exact (ih _ _).emit _

theorem State.decodePayload_ends (s : State) :
    WalkEnds s.inMem s.payloadOff.toNat 0 (8 * s.payloadLength) s.decodePayload := by
  rw [State.decodePayload]
  split
  · exact decodeSingle_ends _ _ _ _ _ _
  · exact decodeWalk_ends _ _ _ _ _ _ _ _

/-- Over a written payload the walk completes inside it or runs out. -/
theorem State.decodePayload_of_written {s : State} (hw : s.inMem.WrittenFrom s.payloadOff.toNat s.payloadLength) :
    (∃ out used, s.decodePayload = .ok (out, used) ∧ used ≤ 8 * s.payloadLength) ∨
      s.decodePayload = .error (.raised .malformedContainer 8#4) := by
  have hends := s.decodePayload_ends
  generalize s.decodePayload = r at hends ⊢
  cases hends with
  | @decoded out used hinside _ => exact .inl ⟨out, used, rfl, by omega⟩
  | exhausted _ => exact .inr rfl
  | @unwritten k hinside hnone _ =>
    have hsome := hw (k / 8) (by omega)
    simp [hnone] at hsome

/-- Over a payload whose first unwritten byte is byte j the walk completes before it or meets it. -/
theorem State.decodePayload_of_unwritten {s : State} {j : Nat} (hj : j < s.payloadLength)
    (hnone : s.inMem.read (s.payloadOff.toNat + j) = none) (hw : s.inMem.WrittenFrom s.payloadOff.toNat j) :
    (∃ out used, s.decodePayload = .ok (out, used) ∧ used ≤ 8 * j) ∨
      s.decodePayload = .error (.faulted (.uninitRead (s.payloadOff.toNat + j))) := by
  have hbound : ∀ {k}, s.inMem.BitsWritten s.payloadOff.toNat 0 k → k ≤ 8 * j := fun {k} hread => by
    by_contra hlt
    have hsome := hread (8 * j) (Nat.zero_le _) (by omega)
    rw [Nat.mul_div_cancel_left j (by decide), hnone] at hsome
    exact absurd hsome (by decide)
  have hends := s.decodePayload_ends
  generalize s.decodePayload = r at hends ⊢
  cases hends with
  | @decoded out used _ hread => exact .inl ⟨out, used, rfl, hbound hread⟩
  | exhausted hread =>
    have hle := hbound hread
    omega
  | @unwritten k _ hnone' hread =>
    have hle := hbound hread
    have hk : k / 8 = j := by
      refine le_antisymm (by omega) (Nat.le_of_not_lt fun hlt => ?_)
      have hsome := hw (k / 8) hlt
      simp [hnone'] at hsome
    exact .inr (by rw [hk])

/-! ### What a completed walk consumed (45_bitunpacker.md R172) -/

theorem Memory.HoldsBits.join {m : Memory} {off t : Nat} {xs ys : List Bool} (hx : m.HoldsBits off t xs)
    (hy : m.HoldsBits off (t + xs.length) ys) : m.HoldsBits off t (xs ++ ys) := fun j hj => by
  rw [List.length_append] at hj
  rcases Nat.lt_or_ge j xs.length with hlt | hge
  · rw [hx j hlt, List.getElem?_append_left hlt]
  · have hbit := hy (j - xs.length) (by omega)
    rwa [show t + xs.length + (j - xs.length) = t + j by omega, ← List.getElem?_append_right hge] at hbit

/-- The bits a state's payload begins with are the bits it holds from its offset on (30_encoding.md R85). -/
theorem State.payloadBegins_iff {s : State} {n : Nat} {bits : List Bool} :
    s.PayloadBegins n bits ↔ bits.length ≤ n ∧ s.inMem.HoldsBits s.payloadOff.toNat 0 bits := by
  simp only [State.PayloadBegins, Memory.HoldsBits, Nat.zero_add, payloadBit]

/-- Each edge of a node that is no leaf leads to a tree, whose paths go on from the edge. -/
theorem TreeAt.edge {nodes : Vector Node 512} {i : Nat} {tree : CodeTree} (h : TreeAt (nodeAt nodes) i tree)
    (hkind : (nodeAt nodes i).kind ≠ .leaf) (b : Bool) :
    ∃ sub, TreeAt (nodeAt nodes) (followPath nodes i [b]) sub ∧
      ∀ c path, (c, path) ∈ sub.paths → (c, b :: path) ∈ tree.paths := by
  cases h with
  | leaf hleaf => exact absurd hleaf hkind
  | @branch _ l r _ hl hr =>
    cases b
    · exact ⟨l, hl, fun c path hx => CodeTree.mem_paths_branch.2 (.inl ⟨path, hx, rfl⟩)⟩
    · exact ⟨r, hr, fun c path hx => CodeTree.mem_paths_branch.2 (.inr ⟨path, hx, rfl⟩)⟩

theorem TreeAt.mem_paths_of_leaf {nodes : Vector Node 512} {i : Nat} {tree : CodeTree} (h : TreeAt (nodeAt nodes) i tree)
    (hkind : (nodeAt nodes i).kind = .leaf) : ((nodeAt nodes i).symbol, []) ∈ tree.paths := by
  cases h with
  | leaf _ => exact List.mem_singleton_self _
  | branch hinternal _ _ => simp [hkind] at hinternal

/-- A completed walk first consumed the path to a leaf and emitted its symbol, and then went on from the root. -/
theorem TreeAt.path_of_decodeWalk {mem : Memory} {nodes : Vector Node 512} {root off bitsLeft t pos need used : Nat}
    {out : List Byte} {tree : CodeTree} (htree : TreeAt (nodeAt nodes) pos tree) (hkind : (nodeAt nodes pos).kind ≠ .leaf)
    (h : decodeWalk mem nodes root off bitsLeft t pos (need + 1) = .ok (out, used)) :
    ∃ c path left rest, (c, path) ∈ tree.paths ∧ mem.HoldsBits off t path ∧ out = c :: rest ∧
      decodeWalk mem nodes root off left (t + path.length) root need = .ok (rest, used) := by
  induction bitsLeft generalizing t pos tree with
  | zero => simp [decodeWalk] at h
  | succ bitsLeft ih =>
    cases hread : mem.read (off + t / 8) with
    | none =>
      rw [decodeWalk_unwritten hread] at h
      simp at h
    | some byte =>
      obtain ⟨sub, hsub, hpaths⟩ := htree.edge hkind (payloadBit byte t)
      have hbit : mem.HoldsBits off t [payloadBit byte t] := fun j hj => by
        obtain rfl : j = 0 := Nat.lt_one_iff.1 hj
        simp [hread]
      rw [decodeWalk_edge hread] at h
      split at h
      · rename_i hleaf
        obtain ⟨rest, rfl, hrest⟩ := emitted_ok h
        exact ⟨_, [payloadBit byte t], bitsLeft, rest, hpaths _ _ (hsub.mem_paths_of_leaf hleaf), hbit, rfl, hrest⟩
      · rename_i hinner
        obtain ⟨c, path, left, rest, hx, hpath, rfl, hrest⟩ := ih hsub hinner h
        refine ⟨c, payloadBit byte t :: path, left, rest, hpaths _ _ hx, hbit.join hpath, rfl, ?_⟩
        rwa [List.length_cons, Nat.add_comm path.length, ← Nat.add_assoc]

/-- A completed walk consumed the codes of the symbols it emitted. -/
theorem TreeAt.codes_of_decodeWalk {mem : Memory} {nodes : Vector Node 512} {root off bitsLeft t need used : Nat}
    {out : List Byte} {tree : CodeTree} (htree : TreeAt (nodeAt nodes) root tree)
    (hkind : (nodeAt nodes root).kind ≠ .leaf) {code : Byte → List Bool} (hcode : ∀ x ∈ tree.paths, code x.1 = x.2)
    (h : decodeWalk mem nodes root off bitsLeft t root need = .ok (out, used)) :
    (∀ c ∈ out, c ∈ tree.symbols) ∧ mem.HoldsBits off t (out.flatMap code) ∧ used = t + (out.flatMap code).length := by
  induction need generalizing bitsLeft t out with
  | zero =>
    obtain ⟨rfl, rfl⟩ : [] = out ∧ t = used := by cases bitsLeft <;> simpa [decodeWalk] using h
    exact ⟨by simp, by simp [Memory.HoldsBits], rfl⟩
  | succ need ih =>
    obtain ⟨c, path, left, rest, hx, hpath, rfl, hrest⟩ := htree.path_of_decodeWalk hkind h
    obtain ⟨hsymbols, hbits, rfl⟩ := ih hrest
    obtain rfl : code c = path := hcode _ hx
    rw [List.flatMap_cons, List.length_append, ← Nat.add_assoc]
    exact ⟨List.forall_mem_cons.2 ⟨CodeTree.mem_symbols_of_mem_paths hx, hsymbols⟩, hpath.join hbits, rfl⟩

/-- With a tree of two or more symbols, a completed walk decoded present symbols, with whose codes the payload begins
(45_bitunpacker.md R172). -/
theorem State.TreeOk.begins_of_decodePayload {s : State} (h : s.TreeOk) (htwo : 2 ≤ distinctCount s.freq)
    {out : List Byte} {used : Nat} (hout : s.decodePayload = .ok (out, used)) :
    (∀ c ∈ out, atSymbol s.freq c ≠ 0#64) ∧ s.PayloadBegins used (out.flatMap (codesOfTable s.freq).bitsOf) ∧
      used = (out.flatMap (codesOfTable s.freq).bitsOf).length := by
  obtain ⟨tree, htree⟩ := exists_isTreeOf (table := s.freq) (by omega)
  have hpaths := htree.codePaths htwo
  have hat : TreeAt (nodeAt s.nodes) s.root.toNat tree := by
    rw [h.arena, h.root_toNat]
    exact htree.atRoot
  have hkind : (nodeAt s.nodes s.root.toNat).kind ≠ .leaf := fun hleaf => by
    simpa using hpaths.nonempty _ (hat.mem_paths_of_leaf hleaf)
  have hmany : s.nodeCount ≠ 1#10 := fun he => by
    have hcount := h.nodeCount_toNat
    rw [he, BitVec.toNat_ofNat] at hcount
    omega
  rw [State.decodePayload, if_neg hmany] at hout
  obtain ⟨hsymbols, hbits, hused⟩ := hat.codes_of_decodeWalk hkind (fun x hx => hpaths.bitsOf_eq hx) hout
  rw [Nat.zero_add] at hused
  exact ⟨fun c hc => mem_presentSymbols.1 (htree.symbols.subset (hsymbols c hc)),
    State.payloadBegins_iff.2 ⟨hused.ge, hbits⟩, hused⟩

/-! ### UNPACK behind its checks (45_bitunpacker.md R170, R175) -/

section
variable {s : State} (htree : s.status.treeValid = true) (hsource : s.status.freqSrc = true)
  (hroom : s.ogSize.toNat ≤ s.cfg.outCap.toNat)
include htree hsource hroom

/-- Behind its checks UNPACK stops as the walk stops. -/
theorem unpackBody_of_stop {e : Stop} (h : s.decodePayload = .error e) : unpackBody s = .error e := by
  simp [unpackBody, htree, hsource, Nat.not_lt.2 hroom, h]

/-- When the walk completes, UNPACK writes the decoded symbols and its result registers, and nothing else. -/
theorem exec_unpack_decoded {out : List Byte} {used : Nat} (h : s.decodePayload = .ok (out, used)) :
    ∃ t, exec .unpack s = .next t ∧ t.outMem.Holds 0 out ∧
      (∀ a, s.ogSize.toNat ≤ a → t.outMem.read a = s.outMem.read a) ∧
      t = { s with
        outMem := t.outMem
        outLen := s.ogSize
        payloadBits := BitVec.ofNat 64 used
        progress := s.ogSize
        pending := none
        status := s.status.completed .noError 0#4 } := by
  have hrun := runStages_ok (unpackBody_ok.2 ⟨htree, hsource, hroom, out, used, h, rfl⟩) []
  refine ⟨_, hrun, Memory.holds_writeBytes s.outMem 0 out, fun a ha => ?_, rfl⟩
  exact (Memory.read_writeBytes s.outMem 0 out a).trans
    (if_neg fun hin => by rw [decodePayload_length h] at hin; omega)

theorem exec_unpack_exhausted (h : s.decodePayload = .error (.raised .malformedContainer 8#4)) :
    exec .unpack s = .next (s.errorCompletion .malformedContainer 8#4) :=
  runStages_raised (unpackBody_of_stop htree hsource hroom h) []

theorem exec_unpack_unwritten {r : Fault} (h : s.decodePayload = .error (.faulted r)) : exec .unpack s = .fault r :=
  runStages_faulted (unpackBody_of_stop htree hsource hroom h) []

end

/-- Settles O44: a completed walk consumed the codes of the symbols it decoded, so without such codes it runs out of a
written payload, and otherwise meets the first unwritten byte. -/
theorem unpackDecodesTheCodesInThePayload : Obligations.UnpackDecodesTheCodesInThePayload := by
  intro s htree hsource htreeOk htwo hroom table codes Begins
  have hbegins : ∀ {out used n}, s.decodePayload = .ok (out, used) → used ≤ n → Begins n out := by
    intro out used n hout hle
    obtain ⟨hpresent, ⟨-, hbits⟩, hused⟩ := htreeOk.begins_of_decodePayload htwo hout
    exact ⟨decodePayload_length hout, hpresent, hused ▸ hle, hbits⟩
  refine ⟨fun symbols ⟨hlength, hpresent, hpayload⟩ => ?_, fun hw hnone => ?_, fun j hj hunwritten hw hnone => ?_⟩
  · exact exec_unpack_decoded htree hsource hroom (htreeOk.decodePayload_of_many hlength hpresent hpayload htwo)
  · rcases State.decodePayload_of_written hw with ⟨out, used, hout, hle⟩ | hraised
    · exact absurd (hbegins hout hle) (hnone out)
    · exact exec_unpack_exhausted htree hsource hroom hraised
  · rcases State.decodePayload_of_unwritten hj hunwritten hw with ⟨out, used, hout, hle⟩ | hfault
    · exact absurd (hbegins hout hle) (hnone out)
    · exact exec_unpack_unwritten htree hsource hroom hfault

/-! ### A single leaf (45_bitunpacker.md R173) -/

/-- A completed walk of a single leaf consumed one bit for each symbol, and emitted the leaf's symbol. -/
theorem decodeSingle_ok {mem : Memory} {symbol : Byte} {off bitsLeft t need used : Nat} {out : List Byte}
    (h : decodeSingle mem symbol off bitsLeft t need = .ok (out, used)) :
    out = List.replicate need symbol ∧ used = t + need := by
  induction bitsLeft generalizing t need out with
  | zero => cases need <;> simp_all [decodeSingle]
  | succ bitsLeft ih =>
    cases need with
    | zero => simp_all [decodeSingle]
    | succ need =>
      cases hread : mem.read (off + t / 8) with
      | none =>
        rw [decodeSingle_unwritten hread] at h
        simp at h
      | some byte =>
        rw [decodeSingle_bit hread] at h
        obtain ⟨rest, rfl, hrest⟩ := emitted_ok h
        obtain ⟨rfl, rfl⟩ := ih hrest
        exact ⟨rfl, by omega⟩

/-- Over written bits, one for each symbol, the walk of a single leaf completes. -/
theorem decodeSingle_of_written {mem : Memory} {symbol : Byte} {off bitsLeft t need : Nat} (hneed : need ≤ bitsLeft)
    (hw : mem.BitsWritten off t (t + need)) :
    decodeSingle mem symbol off bitsLeft t need = .ok (List.replicate need symbol, t + need) := by
  induction need generalizing bitsLeft t with
  | zero => simp [decodeSingle]
  | succ need ih =>
    obtain ⟨bitsLeft, rfl⟩ : ∃ n, bitsLeft = n + 1 := ⟨bitsLeft - 1, by omega⟩
    obtain ⟨byte, hread⟩ := Option.isSome_iff_exists.1 (hw t le_rfl (by omega))
    have hrest : mem.BitsWritten off (t + 1) (t + 1 + need) := fun i hle hlt => hw i (by omega) (by omega)
    rw [decodeSingle_bit hread, ih (by omega) hrest, Nat.add_assoc, Nat.add_comm 1]
    rfl

/-- With a single leaf a completed walk consumed one bit for each of OG_SIZE symbols. -/
theorem State.used_of_decodePayload_single {s : State} (hone : s.nodeCount = 1#10) {out : List Byte} {used : Nat}
    (h : s.decodePayload = .ok (out, used)) : used = s.ogSize.toNat := by
  rw [State.decodePayload, if_pos hone] at h
  rw [(decodeSingle_ok h).2, Nat.zero_add]

/-- Settles O43: the walk of a single leaf takes one bit for each symbol, so it completes exactly when OG_SIZE bits are there
and written. -/
theorem unpackOfASingleLeafEmitsItsSymbol : Obligations.UnpackOfASingleLeafEmitsItsSymbol := by
  intro s htree hsource hroom hone
  refine ⟨fun hle hw => ?_, fun hlt hw => ?_, fun j hj hreached hunwritten hw => ?_⟩
  · have hbits : s.inMem.BitsWritten s.payloadOff.toNat 0 (0 + s.ogSize.toNat) := fun i _ hi => hw (i / 8) (by omega)
    have hdecoded : s.decodePayload = .ok (List.replicate s.ogSize.toNat (nodeAt s.nodes 0).symbol, s.ogSize.toNat) := by
      rw [State.decodePayload, if_pos hone, decodeSingle_of_written hle hbits, Nat.zero_add]
    have hrun := exec_unpack_decoded htree hsource hroom hdecoded
    rw [BitVec.ofNat_toNat, BitVec.setWidth_eq] at hrun
    exact hrun
  · rcases State.decodePayload_of_written hw with ⟨out, used, hout, hle⟩ | hraised
    · have hused := State.used_of_decodePayload_single hone hout
      omega
    · exact exec_unpack_exhausted htree hsource hroom hraised
  · rcases State.decodePayload_of_unwritten hj hunwritten hw with ⟨out, used, hout, hle⟩ | hfault
    · have hused := State.used_of_decodePayload_single hone hout
      omega
    · exact exec_unpack_unwritten htree hsource hroom hfault

end Sys2Proof.Machine

/-! PROOFS. DECODE of a container whose payload is cut (45_bitunpacker.md R174, R175). -/

namespace Sys2Proof.Machine

/-! ### Codes of equally many symbols (43_code_table_gen.md R143) -/

/-- As no code begins another, the codes of symbols do not begin the codes of other symbols, as many of them. -/
theorem CodePaths.eq_of_codes_prefix {s : State} {paths : List (Byte × List Bool)} (h : CodePaths s.freq paths)
    {xs ys : List Byte} (hx : ∀ c ∈ xs, atSymbol s.freq c ≠ 0#64) (hy : ∀ c ∈ ys, atSymbol s.freq c ≠ 0#64)
    (hlength : xs.length = ys.length)
    (hprefix : xs.flatMap (codesOfTable s.freq).bitsOf <+: ys.flatMap (codesOfTable s.freq).bitsOf) : xs = ys := by
  induction xs generalizing ys with
  | nil => exact (List.length_eq_zero_iff.1 hlength.symm).symm
  | cons c xs ih =>
    obtain ⟨d, ys, rfl⟩ := List.exists_cons_of_length_pos (l := ys) (by rw [← hlength]; exact Nat.succ_pos _)
    rw [List.forall_mem_cons] at hx hy
    rw [List.flatMap_cons, List.flatMap_cons] at hprefix
    obtain ⟨p, hp⟩ := h.exists_path hx.1
    obtain ⟨q, hq⟩ := h.exists_path hy.1
    have hsame : (c, p) = (d, q) := by
      rw [h.bitsOf_eq hp, h.bitsOf_eq hq] at hprefix
      rcases List.prefix_or_prefix_of_prefix ((List.prefix_append p _).trans hprefix) (List.prefix_append q _) with hpq | hqp
      · exact h.prefixFree _ hp _ hq hpq
      · exact (h.prefixFree _ hq _ hp hqp).symm
    obtain ⟨rfl, -⟩ := Prod.mk.inj hsame
    rw [ih hx.2 hy.2 (Nat.succ.inj hlength) ((List.prefix_append_right_inj _).1 hprefix)]

/-- In a table of one symbol the codes of present symbols take one bit each (43_code_table_gen.md R142). -/
theorem codes_length_of_single {table : SymbolTable Word} (hn : distinctCount table = 1) {bytes : List Byte}
    (hpresent : ∀ c ∈ bytes, atSymbol table c ≠ 0#64) :
    (bytes.flatMap (codesOfTable table).bitsOf).length = bytes.length := by
  obtain ⟨d, hd⟩ := List.length_eq_one_iff.1 ((presentSymbols_length table).trans hn)
  have hbytes : bytes = List.replicate bytes.length d := List.eq_replicate_of_mem fun c hc => by
    simpa [hd] using mem_presentSymbols.2 (hpresent c hc)
  rw [hbytes, flatMap_bitsOf_length_of_single hd, List.length_replicate]

/-! ### The parts of a cut container (46_container.md R190) -/

/-- The bytes that memory holds were written. -/
theorem Memory.Holds.written {m : Memory} {a : Nat} {bytes : List Byte} (h : m.Holds a bytes) :
    m.WrittenFrom a bytes.length := fun j hj => by rw [h j hj, List.getElem?_eq_getElem hj]; rfl

/-- Bit t of packed bits stands at its place in memory that holds the first k of their bytes, if it is one of these. -/
theorem Memory.Holds.packBits_take_bit {m : Memory} {off k : Nat} {bits : List Bool}
    (h : m.Holds off ((packBits bits).take k)) {t : Nat} (ht : t < bits.length) (hk : t < 8 * k) :
    (m.read (off + t / 8)).map (fun b => payloadBit b t) = bits[t]? := by
  have hwhole := (Memory.holds_writeBytes [] 0 (packBits bits)).packBits_bit ht
  have hbyte : t / 8 < (packBits bits).length := by rw [packBits_length, payloadBytes]; omega
  rw [Memory.holds_writeBytes [] 0 (packBits bits) _ hbyte] at hwhole
  rw [h _ (by rw [List.length_take]; omega), List.getElem?_take_of_lt (by omega)]
  exact hwhole

/-- DESERIALIZE reads back a table whose header and records the input begins with, whatever stands behind them
(46_container.md R194 to R196). -/
theorem deserializeBody_of_holds {s : State} {table : SymbolTable Word} {og : Word} {payload : List Byte}
    (hn : distinctCount table ≠ 0) (hsum : (table.toList.map BitVec.toNat).sum = og.toNat)
    (hinside : s.inLen.toNat ≤ s.cfg.inCap.toNat) (hroom : recordOffset (distinctCount table) ≤ s.inLen.toNat)
    (hholds : s.inMem.Holds 0 (headerAndRecords (distinctCount table) og table ++ payload)) :
    deserializeBody s = .ok { s with
      freq := table
      distinct := BitVec.ofNat 9 (distinctCount table)
      ogSize := og
      payloadOff := BitVec.ofNat 64 (recordOffset (distinctCount table))
      status := s.status.tableLoaded true } := by
  obtain ⟨hcount, hsize, hrecords, -⟩ := Memory.holds_container.1 hholds
  have hk : (BitVec.ofNat 64 (distinctCount table)).toNat = distinctCount table :=
    Nat.mod_eq_of_lt ((distinctCount_le table).trans_lt (by decide))
  have hheader : readHeader s.inMem = .ok (distinctCount table, og.toNat) := by
    rw [readHeader_ok, readU64_of_holds hcount, readU64_of_holds hsize, hk]
    exact ⟨rfl, rfl⟩
  have hread : readRecords s.inMem headerBytes (distinctCount table) = .ok (readableRecords table) := by
    rw [← recordsOf_length]
    exact readRecords_of_holds hrecords
  have hconsistent := inconsistentRecords_readableRecords hn
  rw [hsum] at hconsistent
  rw [recordOffset_eq] at hroom
  refine deserializeBody_ok.2 ⟨hinside, by rw [headerBytes]; omega, _, _, _, hheader,
    by rw [headerBytes, recordBytes]; omega, hread, hconsistent, ?_⟩
  rw [tableOfRecords_readableRecords, BitVec.ofNat_toNat, BitVec.setWidth_eq]

/-- The input is the container of the bytes, cut in its payload, and inside IN_MEM. -/
structure State.CutContainerIsInput (s : State) (bytes : List Byte) : Prop where
  nonempty : bytes ≠ []
  short : bytes.length < 2 ^ 64
  keepsTable : recordOffset (distinctCount (freqTable bytes)) ≤ s.inLen.toNat
  cut : s.inLen.toNat < (containerOf bytes).length
  inside : s.inLen.toNat ≤ s.cfg.inCap.toNat
  holds : s.inMem.Holds 0 ((containerOf bytes).take s.inLen.toNat)

section
variable {s : State} {bytes : List Byte} (h : s.CutContainerIsInput bytes)
include h

/-- Header and records are whole, and of the payload the bytes below IN_LEN are there. -/
theorem State.CutContainerIsInput.holds_parts :
    s.inMem.Holds 0 (headerAndRecords (distinctCount (freqTable bytes)) (BitVec.ofNat 64 bytes.length) (freqTable bytes) ++
      (payloadOf bytes).take (s.inLen.toNat - recordOffset (distinctCount (freqTable bytes)))) := by
  have hlength : (headerAndRecords (distinctCount (freqTable bytes)) (BitVec.ofNat 64 bytes.length)
      (freqTable bytes)).length = recordOffset (distinctCount (freqTable bytes)) := by
    rw [headerAndRecords_length, recordsOf_length]
  have hholds := h.holds
  rwa [containerOf, List.take_append, List.take_of_length_le (hlength.trans_le h.keepsTable), hlength] at hholds

theorem State.CutContainerIsInput.ogSize_toNat : (s.deserialized bytes).treeOfTable.ogSize.toNat = bytes.length :=
  Nat.mod_eq_of_lt h.short

theorem State.CutContainerIsInput.payloadOff_toNat : (s.deserialized bytes).treeOfTable.payloadOff.toNat =
    recordOffset (distinctCount (freqTable bytes)) :=
  Nat.mod_eq_of_lt (h.keepsTable.trans_lt s.inLen.isLt)

theorem State.CutContainerIsInput.payloadLength_eq : (s.deserialized bytes).treeOfTable.payloadLength =
    s.inLen.toNat - recordOffset (distinctCount (freqTable bytes)) := by
  rw [State.payloadLength, h.payloadOff_toNat]
  rfl

/-- The bits that are left are fewer than the bits of the codes of the bytes. -/
theorem State.CutContainerIsInput.payload_lt : 8 * (s.deserialized bytes).treeOfTable.payloadLength <
    (bytes.flatMap (codesOfTable (freqTable bytes)).bitsOf).length := by
  have hbits : encodeBits (codesOfTable (freqTable bytes)).len (codesOfTable (freqTable bytes)).bits bytes =
      bytes.flatMap (codesOfTable (freqTable bytes)).bitsOf := rfl
  have hcut := h.cut
  have htable := h.keepsTable
  rw [containerOf_length, hbits, containerLength, payloadBytes] at hcut
  rw [h.payloadLength_eq]
  omega

theorem State.CutContainerIsInput.present {c : Byte} (hc : c ∈ bytes) : atSymbol (freqTable bytes) c ≠ 0#64 :=
  mem_presentSymbols.1 ((mem_presentSymbols_freqTable h.short).2 hc)

theorem State.CutContainerIsInput.distinctCount_ne_zero : distinctCount (freqTable bytes) ≠ 0 := by
  rw [distinctCount_freqTable h.short]
  simpa using h.nonempty

/-! ### The three stages of DECODE (47_control.md R213) -/

/-- DESERIALIZE reads the table of the input back, as it reads no byte of the payload. -/
theorem State.CutContainerIsInput.deserializeBody_eq : deserializeBody s = .ok (s.deserialized bytes) :=
  deserializeBody_of_holds h.distinctCount_ne_zero
    ((freqTable_sum h.short).trans (Nat.mod_eq_of_lt h.short).symm) h.inside h.keepsTable h.holds_parts

theorem State.CutContainerIsInput.payload_written :
    (s.deserialized bytes).treeOfTable.inMem.WrittenFrom (s.deserialized bytes).treeOfTable.payloadOff.toNat
      (s.deserialized bytes).treeOfTable.payloadLength := by
  obtain ⟨-, -, -, hpayload⟩ := Memory.holds_container.1 h.holds_parts
  have hcut := h.cut
  rw [containerOf, List.length_append, headerAndRecords_length, recordsOf_length] at hcut
  have hwritten := hpayload.written
  rw [List.length_take, Nat.min_eq_left (by omega)] at hwritten
  rw [h.payloadOff_toNat, h.payloadLength_eq]
  exact hwritten

/-- Bits with which the cut payload begins are the first of the bits of the codes of the bytes. -/
theorem State.CutContainerIsInput.prefix_of_begins {bits : List Bool}
    (hbegins : (s.deserialized bytes).treeOfTable.PayloadBegins
      (8 * (s.deserialized bytes).treeOfTable.payloadLength) bits) :
    bits <+: bytes.flatMap (codesOfTable (freqTable bytes)).bitsOf := by
  obtain ⟨-, -, -, hpayload⟩ := Memory.holds_container.1 h.holds_parts
  obtain ⟨hle, hbits⟩ := hbegins
  have hlt := h.payload_lt
  rw [List.prefix_iff_getElem?]
  intro t ht
  rw [← List.getElem?_eq_getElem ht, ← hbits t ht, h.payloadOff_toNat]
  rw [← h.payloadLength_eq] at hpayload
  exact (hpayload.packBits_take_bit (bits := bytes.flatMap (codesOfTable (freqTable bytes)).bitsOf) (by omega)
    (by omega)).symm

/-- The walk of the cut payload does not complete: it would have decoded the bytes themselves, whose codes are longer. -/
theorem State.CutContainerIsInput.not_decoded {out : List Byte} {used : Nat}
    (hle : used ≤ 8 * (s.deserialized bytes).treeOfTable.payloadLength) :
    (s.deserialized bytes).treeOfTable.decodePayload ≠ .ok (out, used) := fun hout => by
  have htree := (s.deserialized bytes).treeOfTable_treeOk
  have hlt := h.payload_lt
  have hlength := (decodePayload_length hout).trans h.ogSize_toNat
  suffices hused : used = (bytes.flatMap (codesOfTable (freqTable bytes)).bitsOf).length by omega
  rcases Nat.lt_or_ge (distinctCount (freqTable bytes)) 2 with hsmall | htwo
  · have hn : distinctCount (freqTable bytes) = 1 :=
      le_antisymm (Nat.le_of_lt_succ hsmall) (Nat.one_le_iff_ne_zero.2 h.distinctCount_ne_zero)
    have hone : (s.deserialized bytes).treeOfTable.nodeCount = 1#10 :=
      BitVec.eq_of_toNat_eq (htree.nodeCount_toNat.trans (congrArg (2 * · - 1) hn))
    rw [codes_length_of_single hn fun _ => h.present, State.used_of_decodePayload_single hone hout, h.ogSize_toNat]
  · obtain ⟨hpresent, ⟨hused, hbits⟩, heq⟩ := htree.begins_of_decodePayload htwo hout
    obtain ⟨paths, hpaths⟩ := exists_codePaths (s.deserialized bytes).treeOfTable.freq
    have hsame : out = bytes := hpaths.eq_of_codes_prefix hpresent (fun _ => h.present) hlength
      (h.prefix_of_begins ⟨hused.trans hle, hbits⟩)
    rw [heq, hsame]
    rfl

/-- DECODE of a cut container runs out of bits in UNPACK (45_bitunpacker.md R174). -/
theorem State.CutContainerIsInput.exec_decode (hroom : bytes.length ≤ s.cfg.outCap.toNat) :
    exec .decode s = .next ((s.deserialized bytes).treeOfTable.errorCompletion .malformedContainer 8#4) := by
  have hbuild : buildTreeBody (s.deserialized bytes) = .ok (s.deserialized bytes).treeOfTable :=
    buildTreeBody_ok.2 ⟨rfl, rfl⟩
  have hraised : (s.deserialized bytes).treeOfTable.decodePayload = .error (.raised .malformedContainer 8#4) := by
    rcases State.decodePayload_of_written h.payload_written with ⟨out, used, hout, hle⟩ | hraised
    · exact absurd hout (h.not_decoded hle)
    · exact hraised
  calc exec .decode s
      = runStages [buildTreeBody, unpackBody] (s.deserialized bytes) := runStages_ok h.deserializeBody_eq _
    _ = runStages [unpackBody] (s.deserialized bytes).treeOfTable := runStages_ok hbuild _
    _ = _ := exec_unpack_exhausted rfl rfl (h.ogSize_toNat.trans_le hroom) hraised

end

/-- Settles O50: DESERIALIZE and BUILD_TREE complete, and the walk of the cut payload runs out. -/
theorem decodeDetectsATruncatedPayload : Obligations.DecodeDetectsATruncatedPayload := by
  intro s bytes n hne htable hcut hn hinside hholds hroom
  subst hn
  have h : s.CutContainerIsInput bytes := {
    nonempty := hne
    short := hroom.trans_lt s.cfg.outCap.isLt
    keepsTable := (recordOffset_eq _).trans_le htable
    cut := hcut
    inside := hinside
    holds := hholds }
  exact ⟨_, h.exec_decode hroom, rfl, rfl, rfl, fun _ => rfl⟩

end Sys2Proof.Machine

/-! PROOFS. DESERIALIZE: how it ends at each of its checks, the containers it reads, its reads of unwritten bytes, and the
order of the records (46_container.md R194 to R197). -/

namespace Sys2Proof.Machine

/-! ### How DESERIALIZE ends at each of its checks (46_container.md R194 to R196) -/

section
variable {s : State} (hinside : s.inLen.toNat ≤ s.cfg.inCap.toNat)
include hinside

theorem deserializeBody_of_short (hshort : s.inLen.toNat < headerBytes) :
    deserializeBody s = .error (.raised .malformedContainer 0x7#4) := by
  rw [deserializeBody, if_neg (Nat.not_lt.2 hinside), if_pos hshort]
  rfl

variable (hlong : headerBytes ≤ s.inLen.toNat)
include hlong

theorem deserializeBody_of_header_fault {r : Fault} (h : readHeader s.inMem = .error r) :
    deserializeBody s = .error (.faulted r) := by
  rw [deserializeBody, if_neg (Nat.not_lt.2 hinside), if_neg (Nat.not_lt.2 hlong), h]

variable {k og : Nat} (hheader : readHeader s.inMem = .ok (k, og))
include hheader

theorem deserializeBody_of_too_many (hmany : (s.inLen.toNat - headerBytes) / recordBytes < k) :
    deserializeBody s = .error (.raised .malformedContainer 0x7#4) := by
  rw [deserializeBody, if_neg (Nat.not_lt.2 hinside), if_neg (Nat.not_lt.2 hlong), hheader]
  exact if_pos hmany

variable (hfit : k ≤ (s.inLen.toNat - headerBytes) / recordBytes)
include hfit

theorem deserializeBody_of_record_fault {r : Fault} (h : readRecords s.inMem headerBytes k = .error r) :
    deserializeBody s = .error (.faulted r) := by
  simp only [deserializeBody, if_neg (Nat.not_lt.2 hinside), if_neg (Nat.not_lt.2 hlong), hheader,
    if_neg (Nat.not_lt.2 hfit), h]

theorem deserializeBody_of_inconsistent {records : List (Byte × Nat)}
    (hrecords : readRecords s.inMem headerBytes k = .ok records) (hbad : inconsistentRecords records og = true) :
    deserializeBody s = .error (.raised .inconsistentFrequencyTable 0x7#4) := by
  simp only [deserializeBody, if_neg (Nat.not_lt.2 hinside), if_neg (Nat.not_lt.2 hlong), hheader,
    if_neg (Nat.not_lt.2 hfit), hrecords, hbad, if_pos]
  rfl

end

/-! ### The header -/

/-- The core reads the two header fields that memory holds. -/
theorem readHeader_of_holds {m : Memory} {k og : Word} (h : m.Holds 0 (le64 k ++ le64 og)) :
    readHeader m = .ok (k.toNat, og.toNat) := by
  obtain ⟨hcount, hsize⟩ := Memory.holds_append.1 h
  rw [le64_length] at hsize
  exact readHeader_ok.2 ⟨readU64_of_holds hcount, readU64_of_holds hsize⟩

/-- Settles O39: the first two checks of DESERIALIZE, the second on the record count that the header holds. -/
theorem deserializeRejectsTruncatedContainers : Obligations.DeserializeRejectsTruncatedContainers := by
  refine fun s hinside => ⟨fun hshort => ?_, fun k og hlong hholds hmany => ?_⟩
  · exact runStages_raised (deserializeBody_of_short hinside hshort) []
  · exact runStages_raised (deserializeBody_of_too_many hinside hlong (readHeader_of_holds hholds) hmany) []

/-! ### Records, and the table they make (46_container.md R195, R197) -/

/-- The records as the core reads them. -/
def asRead (records : List (Byte × Word)) : List (Byte × Nat) := records.map fun r => (r.1, r.2.toNat)

@[simp] theorem asRead_length (records : List (Byte × Word)) : (asRead records).length = records.length := by
  simp [asRead]

@[simp] theorem asRead_symbols (records : List (Byte × Word)) : (asRead records).map Prod.fst = records.map Prod.fst := by
  simp [asRead]

@[simp] theorem asRead_frequencies (records : List (Byte × Word)) :
    (asRead records).map Prod.snd = records.map fun r => r.2.toNat := by
  simp [asRead]

theorem mem_asRead {records : List (Byte × Word)} {r : Byte × Word} (h : r ∈ records) :
    (r.1, r.2.toNat) ∈ asRead records := List.mem_map.2 ⟨r, h, rfl⟩

theorem asRead_lt {records : List (Byte × Word)} : ∀ r ∈ asRead records, r.2 < 2 ^ 64 :=
  List.forall_mem_map.2 fun r _ => r.2.isLt

theorem asRead_ne_zero {records : List (Byte × Word)} :
    (∀ r ∈ asRead records, r.2 ≠ 0) ↔ ∀ r ∈ records, r.2 ≠ 0#64 := by
  simp only [asRead, List.forall_mem_map, ← one_le_toNat_iff_ne_zero, Nat.one_le_iff_ne_zero]

/-- The table in which every record's frequency stands at its symbol, and 0 elsewhere. -/
def tableOf (records : List (Byte × Word)) : SymbolTable Word := tableOfRecords (asRead records)

theorem atSymbol_tableOf_of_mem {records : List (Byte × Word)} (hn : (records.map Prod.fst).Nodup) {r : Byte × Word}
    (h : r ∈ records) : atSymbol (tableOf records) r.1 = r.2 := by
  rw [← asRead_symbols] at hn
  rw [tableOf, atSymbol_tableOfRecords_of_mem hn (mem_asRead h), BitVec.ofNat_toNat, BitVec.setWidth_eq]

theorem atSymbol_tableOf_of_not_mem {records : List (Byte × Word)} {c : Byte} (h : c ∉ records.map Prod.fst) :
    atSymbol (tableOf records) c = 0#64 :=
  atSymbol_tableOfRecords_of_not_mem (by rwa [asRead_symbols])

/-- The table does not depend on the order of the records (46_container.md R197). -/
theorem tableOf_perm {records records' : List (Byte × Word)} (hn : (records.map Prod.fst).Nodup)
    (hperm : records.Perm records') : tableOf records = tableOf records' := by
  have hsymbols := hperm.map Prod.fst
  refine symbolTable_ext fun c => ?_
  by_cases hc : c ∈ records.map Prod.fst
  · obtain ⟨r, hr, rfl⟩ := List.mem_map.1 hc
    rw [atSymbol_tableOf_of_mem hn hr, atSymbol_tableOf_of_mem (hsymbols.nodup_iff.1 hn) (hperm.mem_iff.1 hr)]
  · rw [atSymbol_tableOf_of_not_mem hc, atSymbol_tableOf_of_not_mem fun h => hc (hsymbols.mem_iff.2 h)]

/-- None of the conditions a to d of 46_container.md R195 holds of the records. -/
def ConsistentRecords (records : List (Byte × Word)) (og : Word) : Prop :=
  records ≠ [] ∧ (∀ r ∈ records, r.2 ≠ 0#64) ∧ (records.map Prod.fst).Nodup ∧
    (records.map fun r => r.2.toNat).sum = og.toNat

/-- The check of DESERIALIZE passes exactly the consistent records. -/
theorem inconsistentRecords_asRead {records : List (Byte × Word)} {og : Word} :
    inconsistentRecords (asRead records) og.toNat = false ↔ ConsistentRecords records og := by
  have hnil : asRead records ≠ [] ↔ records ≠ [] := List.map_eq_nil_iff.not
  rw [inconsistentRecords_eq_false, hnil, asRead_ne_zero, asRead_symbols, asRead_frequencies, ConsistentRecords]

section
variable {records : List (Byte × Word)} {og : Word} (h : ConsistentRecords records og)
include h

theorem ConsistentRecords.distinctCount_eq : distinctCount (tableOf records) = records.length := by
  obtain ⟨-, hpos, hn, -⟩ := h
  rw [tableOf, distinctCount_tableOfRecords (by rwa [asRead_symbols]) (asRead_ne_zero.2 hpos) asRead_lt, asRead_length]

theorem ConsistentRecords.length_le : records.length ≤ 256 := h.distinctCount_eq ▸ distinctCount_le _

theorem ConsistentRecords.sum_eq : ((tableOf records).toList.map BitVec.toNat).sum = og.toNat := by
  obtain ⟨-, hpos, hn, hsum⟩ := h
  rw [tableOf, tableOfRecords_sum (by rwa [asRead_symbols]) (asRead_ne_zero.2 hpos) asRead_lt, asRead_frequencies, hsum]

/-- The first record alone makes the sum positive. -/
theorem ConsistentRecords.one_le_size : 1 ≤ og.toNat := by
  obtain ⟨hne, hpos, -, hsum⟩ := h
  obtain ⟨r, rest, rfl⟩ := List.exists_cons_of_ne_nil hne
  have hr := one_le_toNat_iff_ne_zero.2 (hpos r List.mem_cons_self)
  rw [List.map_cons, List.sum_cons] at hsum
  omega

end

/-! ### A container in the input (46_container.md R190, R196) -/

/-- The input begins with the header and the records, all below IN_LEN. -/
structure State.RecordsAreInput (s : State) (records : List (Byte × Word)) (og : Word) : Prop where
  room : 16 + 9 * records.length ≤ s.inLen.toNat
  holds : s.inMem.Holds 0
    (le64 (BitVec.ofNat 64 records.length) ++ le64 og ++ records.flatMap (fun r => r.1 :: le64 r.2))

/-- The state in which DESERIALIZE has read consistent records. -/
def State.recordsRead (s : State) (records : List (Byte × Word)) (og : Word) : State :=
  { s with
    freq := tableOf records
    distinct := BitVec.ofNat 9 records.length
    ogSize := og
    payloadOff := BitVec.ofNat 64 (recordOffset records.length)
    status := s.status.tableLoaded true }

section
variable {s : State} {records : List (Byte × Word)} {og : Word} (h : s.RecordsAreInput records og)
include h

theorem State.RecordsAreInput.long : headerBytes ≤ s.inLen.toNat := (Nat.le_add_right _ _).trans h.room

theorem State.RecordsAreInput.fit : records.length ≤ (s.inLen.toNat - headerBytes) / recordBytes := by
  have hroom := h.room
  rw [headerBytes, recordBytes]
  omega

theorem State.RecordsAreInput.readHeader_eq : readHeader s.inMem = .ok (records.length, og.toNat) := by
  have hroom := h.room
  have hinLen := s.inLen.isLt
  have hcount : (BitVec.ofNat 64 records.length).toNat = records.length := Nat.mod_eq_of_lt (by omega)
  rw [readHeader_of_holds (Memory.holds_append.1 h.holds).1, hcount]

theorem State.RecordsAreInput.readRecords_eq :
    readRecords s.inMem headerBytes records.length = .ok (asRead records) := by
  have hrecords := (Memory.holds_append.1 h.holds).2
  rw [List.length_append, le64_length, le64_length, Nat.zero_add] at hrecords
  exact readRecords_of_holds hrecords

theorem State.RecordsAreInput.payloadOff_toNat :
    (s.recordsRead records og).payloadOff.toNat = 16 + 9 * records.length :=
  Nat.mod_eq_of_lt (h.room.trans_lt s.inLen.isLt)

/-- DESERIALIZE completes exactly when the input is inside IN_MEM and the records are consistent. -/
theorem State.RecordsAreInput.deserializeBody_ok {u : State} :
    deserializeBody s = .ok u ↔ s.inLen.toNat ≤ s.cfg.inCap.toNat ∧ ConsistentRecords records og ∧
      u = s.recordsRead records og := by
  have hog : BitVec.ofNat 64 og.toNat = og := by rw [BitVec.ofNat_toNat, BitVec.setWidth_eq]
  rw [Machine.deserializeBody_ok]
  constructor
  · rintro ⟨hinside, -, k, og', records', hheader, -, hrecords, hconsistent, rfl⟩
    rw [h.readHeader_eq] at hheader
    cases hheader
    rw [h.readRecords_eq] at hrecords
    cases hrecords
    exact ⟨hinside, inconsistentRecords_asRead.1 hconsistent, by rw [hog, State.recordsRead, tableOf]⟩
  · rintro ⟨hinside, hconsistent, rfl⟩
    exact ⟨hinside, h.long, _, _, _, h.readHeader_eq, h.fit, h.readRecords_eq,
      inconsistentRecords_asRead.2 hconsistent, by rw [hog, State.recordsRead, tableOf]⟩

theorem State.RecordsAreInput.exec_consistent (hinside : s.inLen.toNat ≤ s.cfg.inCap.toNat)
    (hc : ConsistentRecords records og) : exec .deserialize s = .next (s.recordsRead records og).succeed :=
  runStages_ok (h.deserializeBody_ok.2 ⟨hinside, hc, rfl⟩) []

theorem State.RecordsAreInput.exec_inconsistent (hinside : s.inLen.toNat ≤ s.cfg.inCap.toNat)
    (hc : ¬ConsistentRecords records og) :
    exec .deserialize s = .next (s.errorCompletion .inconsistentFrequencyTable 0x7#4) :=
  runStages_raised (deserializeBody_of_inconsistent hinside h.long h.readHeader_eq h.fit h.readRecords_eq
    (Bool.eq_true_of_not_eq_false (inconsistentRecords_asRead.not.2 hc))) []

/-- DESERIALIZE succeeds only by reading consistent records. -/
theorem State.RecordsAreInput.eq_recordsRead {t : State} (ht : exec .deserialize s = .next t) (hsucceeded : t.Succeeded) :
    ConsistentRecords records og ∧ t = (s.recordsRead records og).succeed := by
  rw [exec_eq_runStages] at ht
  rcases runStages_single_next.1 ht with ⟨u, hu, rfl⟩ | ⟨e, stage, he, rfl⟩
  · obtain ⟨-, hc, rfl⟩ := h.deserializeBody_ok.1 hu
    exact ⟨hc, rfl⟩
  · exact absurd hsucceeded (stageBody_raised_ne_noError (by simp [stageBodies]) he)

end

/-- Settles O40: each of the four conditions makes the records inconsistent, and consistent ones make a sound table. -/
theorem deserializeChecksTheRecords : Obligations.DeserializeChecksTheRecords := by
  intro s records og hinside hroom hholds
  have h : s.RecordsAreInput records og := ⟨hroom, hholds⟩
  refine ⟨fun hbad => h.exec_inconsistent hinside ?_, fun hne hpos hn hsum => ?_⟩
  · rintro ⟨hne, hpos, hn, hsum⟩
    rcases hbad with hnil | ⟨r, hr, hzero⟩ | hdup | hother
    · exact hne hnil
    · exact hpos r hr hzero
    · exact hdup hn
    · exact hother hsum
  · have hc : ConsistentRecords records og := ⟨hne, hpos, hn, hsum⟩
    exact ⟨_, h.exec_consistent hinside hc, rfl, List.length_pos_of_ne_nil hne, hc.length_le, hc.distinctCount_eq,
      hc.one_le_size, hc.sum_eq⟩

/-! ### Reads of bytes that were never written (20_memory.md R64; log 8) -/

/-- Byte b is the first byte of the memory that was never written. -/
structure Memory.FirstUnwritten (m : Memory) (b : Nat) : Prop where
  unwritten : m.read b = none
  before : m.WrittenFrom 0 b

section
variable {m : Memory} {b : Nat} (h : m.FirstUnwritten b)
include h

theorem Memory.FirstUnwritten.isSome {a : Nat} (ha : a < b) : (m.read a).isSome = true := by
  simpa using h.before a ha

/-- A field behind which b lies is read. -/
theorem Memory.FirstUnwritten.readU64_ok {a : Nat} (hend : a + 8 ≤ b) : ∃ v, readU64 m a = .ok v := by
  rw [readU64]
  cases hread : m.coreRead a 8 with
  | ok bytes => exact ⟨_, rfl⟩
  | error r =>
    obtain ⟨k, hk, -, hnone, -⟩ := Memory.coreRead_error.1 hread
    have hsome := h.isSome (a := a + k) (by omega)
    simp [hnone] at hsome

/-- The read of a field that b lies in names b. -/
theorem Memory.FirstUnwritten.readU64_error {a : Nat} (hstart : a ≤ b) (hend : b < a + 8) :
    readU64 m a = .error (.uninitRead b) := by
  have hb : a + (b - a) = b := by omega
  have hread : m.coreRead a 8 = .error (.uninitRead b) := Memory.coreRead_error.2
    ⟨b - a, by omega, by rw [hb], by rw [hb]; exact h.unwritten, fun j hj => h.isSome (by omega)⟩
  rw [readU64, hread]
  rfl

theorem Memory.FirstUnwritten.readByte_ok {a : Nat} (ha : a < b) : ∃ c, readByte m a = .ok c := by
  obtain ⟨c, hc⟩ := Option.isSome_iff_exists.1 (h.isSome ha)
  exact ⟨c, by rw [readByte, hc]⟩

theorem Memory.FirstUnwritten.readHeader_error (hb : b < headerBytes) : readHeader m = .error (.uninitRead b) := by
  rw [headerBytes] at hb
  rcases Nat.lt_or_ge b 8 with hcount | hsize
  · rw [readHeader, h.readU64_error (Nat.zero_le b) (by omega)]
  · obtain ⟨k, hk⟩ := h.readU64_ok (a := 0) (by omega)
    rw [readHeader, hk, h.readU64_error hsize (by omega)]

theorem Memory.FirstUnwritten.readRecord_ok {a : Nat} (hend : a + recordBytes ≤ b) : ∃ x, readRecord m a = .ok x := by
  rw [recordBytes] at hend
  obtain ⟨c, hc⟩ := h.readByte_ok (a := a) (by omega)
  obtain ⟨v, hv⟩ := h.readU64_ok (a := a + 1) (by omega)
  exact ⟨(c, v), Machine.readRecord_ok.2 ⟨hc, hv⟩⟩

theorem Memory.FirstUnwritten.readRecord_error {a : Nat} (hstart : a ≤ b) (hend : b < a + recordBytes) :
    readRecord m a = .error (.uninitRead b) := by
  rw [recordBytes] at hend
  rcases Nat.eq_or_lt_of_le hstart with rfl | hlt
  · rw [readRecord, readByte, h.unwritten]
  · obtain ⟨c, hc⟩ := h.readByte_ok hlt
    rw [readRecord, hc, h.readU64_error (a := a + 1) hlt (by omega)]

/-- The records before b are read, and the record b lies in ends the read. -/
theorem Memory.FirstUnwritten.readRecords_error {a k : Nat} (hstart : a ≤ b) (hend : b < a + recordBytes * k) :
    readRecords m a k = .error (.uninitRead b) := by
  induction k generalizing a with
  | zero => omega
  | succ k ih =>
    rcases Nat.lt_or_ge b (a + recordBytes) with hin | hbehind
    · rw [readRecords, h.readRecord_error hstart hin]
    · obtain ⟨x, hx⟩ := h.readRecord_ok hbehind
      rw [readRecords, hx, ih hbehind (by rw [Nat.mul_succ] at hend; omega)]

end

/-- Settles O41: consistent records are read into their table, whatever their order; an unwritten byte of the header, or of
the records it claims, stops the read. -/
theorem deserializeReadsTheFrequencyTable : Obligations.DeserializeReadsTheFrequencyTable := by
  refine ⟨fun s records og hinside hroom hholds hne hpos hn hsum => ?_, fun s a hinside hlong ha hnone hbefore => ?_,
    fun s k og a hinside hlong hholds hfit ha hnone hbefore => ?_⟩
  · have h : s.RecordsAreInput records og := ⟨hroom, hholds⟩
    have hc : ConsistentRecords records og := ⟨hne, hpos, hn, hsum⟩
    have hdistinct : (s.recordsRead records og).distinct.toNat = records.length :=
      Nat.mod_eq_of_lt (hc.length_le.trans_lt (by decide))
    exact ⟨_, h.exec_consistent hinside hc, fun r => atSymbol_tableOf_of_mem hn, fun c => atSymbol_tableOf_of_not_mem,
      hdistinct, h.payloadOff_toNat, rfl⟩
  · have h : s.inMem.FirstUnwritten a := ⟨hnone, hbefore⟩
    exact runStages_faulted (deserializeBody_of_header_fault hinside hlong (h.readHeader_error ha)) []
  · have h : s.inMem.FirstUnwritten a := ⟨hnone, hbefore⟩
    have hbehind : headerBytes ≤ a := by
      by_contra hlt
      have hfault := h.readHeader_error (Nat.lt_of_not_le hlt)
      rw [readHeader_of_holds hholds] at hfault
      cases hfault
    exact runStages_faulted (deserializeBody_of_record_fault hinside hlong (readHeader_of_holds hholds) hfit
      (h.readRecords_error hbehind ha)) []

/-! ### The order of the records (46_container.md R197, 42_tree_builder.md R126) -/

/-- BUILD_TREE makes the tree of a valid table. -/
theorem exec_buildTree_of_valid {s : State} (hv : s.status.freqValid = true) :
    exec .buildTree s = .next s.treeOfTable.succeed :=
  runStages_ok (buildTreeBody_ok.2 ⟨hv, rfl⟩) []

/-- Settles O42: both containers leave `tableOf` their records, which is one table, and the tree is a function of it. -/
theorem recordOrderDoesNotMatter : Obligations.RecordOrderDoesNotMatter := by
  intro s s' t t' records records' og hperm hroom hroom' hholds hholds' ht ht' hsucceeded hsucceeded'
  have h : s.RecordsAreInput records og := ⟨hroom, hholds⟩
  have h' : s'.RecordsAreInput records' og := ⟨hroom', hholds'⟩
  obtain ⟨⟨-, -, hn, -⟩, rfl⟩ := h.eq_recordsRead ht hsucceeded
  obtain ⟨-, rfl⟩ := h'.eq_recordsRead ht' hsucceeded'
  have hfreq : (s.recordsRead records og).freq = (s'.recordsRead records' og).freq := tableOf_perm hn hperm
  refine ⟨hfreq, congrArg (BitVec.ofNat 9) hperm.length_eq, rfl, fun u u' hu hu' => ?_⟩
  rw [exec_buildTree_of_valid rfl, Host.Outcome.next.injEq] at hu hu'
  subst hu hu'
  simp only [State.succeed_nodes, State.succeed_nodeCount, State.succeed_root, State.succeed_freq, State.treeOfTable, hfreq,
    and_self]

end Sys2Proof.Machine

/-! PROOFS. The sequencer: one step of the whole, CTRL writes, NOP and CLEAR, the frames of the commands that store nothing,
and ENCODE and DECODE as their stages in order (47_control.md R210 to R217). -/

namespace Sys2Proof.Machine

/-! ### One step of the whole (47_control.md R216, R217) -/

/-- A step that meets no model fault is its agent's move. -/
theorem step_of_move_next {s t : State} (hf : s.faults = []) (h : agentMove s.mover s.turnTaken = .next t) :
    step s = .next t :=
  step_next.2 ⟨hf, .inl h⟩

/-- A step that meets a model fault records it, with no other effect (log 7). -/
theorem step_of_move_fault {s : State} {r : Fault} (hf : s.faults = []) (h : agentMove s.mover s.turnTaken = .fault r) :
    step s = .next { s with faults := [r] } :=
  step_next.2 ⟨hf, .inr ⟨r, h, by simp [State.recordFault, hf]⟩⟩

theorem coreMove_of_decode {s : State} {v : Word} {i : Instr} (hpending : s.pending = some v) (hdecode : decode v = .ok i) :
    coreMove s = exec i s := by
  simp only [coreMove, hpending, hdecode]

section
variable {s : State} {v : Word} (hm : s.mover = .core) (hp : s.pending = some v)
include hm hp

theorem agentMove_of_decode {i : Instr} (hd : decode v = .ok i) :
    agentMove s.mover s.turnTaken = exec i { s with sched := s.sched.tail } := by
  rw [hm, agentMove]
  exact coreMove_of_decode (s := s.turnTaken) hp hd

theorem agentMove_of_decode_error {e : DecodeReject} (hd : decode v = .error e) :
    agentMove s.mover s.turnTaken = .next (s.turnTaken.errorCompletion .illegalCommand (wordOp v)) := by
  rw [hm, agentMove, coreMove_of_decode_error (s := s.turnTaken) hp hd, execIllegal]

end

theorem agentMove_of_operation {s : State} {op : HostOp} {rest : List HostOp} (hm : s.mover = .host)
    (hp : s.hostProg = op :: rest) :
    agentMove s.mover s.turnTaken = hostStep op { s with sched := s.sched.tail, hostProg := rest } := by
  rw [hm, agentMove, hostMove, State.turnTaken_hostProg, hp]
  rfl

/-- Settles O13: by the agent that moves, and by what the decoder says of the pending word. -/
theorem stepRunsTheDecodedCommand : Obligations.StepRunsTheDecodedCommand := by
  refine ⟨fun s v i hf hm hp hd => ?_, fun s v e hf hm hp hd => ?_, fun s op rest hf hm hp => ?_⟩
  · rw [← agentMove_of_decode hm hp hd]
    exact ⟨fun t => step_of_move_next hf, fun r => step_of_move_fault hf⟩
  · exact step_of_move_next hf (agentMove_of_decode_error hm hp hd)
  · rw [← agentMove_of_operation hm hp]
    exact ⟨fun t => step_of_move_next hf, fun r => step_of_move_fault hf⟩

/-- Settles O14: the step answers the newest fault. -/
theorem modelStopsAfterAFault : Obligations.ModelStopsAfterAFault := by
  intro s h
  obtain ⟨r, rest, hr⟩ := List.exists_cons_of_ne_nil h
  exact ⟨r, hr ▸ List.mem_cons_self, step_of_fault hr⟩

/-! ### CTRL writes, NOP and CLEAR (47_control.md R210, R211, R214, R215) -/

theorem writeCtrl_busy {s : State} (hbusy : s.status.busy = true) (v : Word) :
    s.writeCtrl v = { s with status := { s.status with cmdDropped := true } } := by
  rw [State.writeCtrl, if_pos hbusy]

/-- Settles O53: by BUSY. -/
theorem ctrlWritesAreAcceptedWhenIdleAndDroppedWhenBusy : Obligations.CtrlWritesAreAcceptedWhenIdleAndDroppedWhenBusy := by
  intro s v
  rw [hostRegWrite_ctrl]
  refine ⟨fun hidle => ?_, fun hbusy => ?_⟩
  · rw [writeCtrl_idle hidle]
    rfl
  · rw [writeCtrl_busy hbusy]

/-- Settles O26: NOP has no stage, so its run is the success of the state it finds. -/
theorem nopCompletesAndChangesNothingElse : Obligations.NopCompletesAndChangesNothingElse :=
  ⟨decode_encode .nop, runStages_nil⟩

/-- Settles O27: CLEAR's one stage always completes. -/
theorem clearResetsTheCodecAndKeepsTheMemories : Obligations.ClearResetsTheCodecAndKeepsTheMemories :=
  ⟨decode_encode .clear, fun s => runStages_ok (body := clearBody) (s := s) rfl []⟩

/-! ### The frames of the commands that store nothing (60_exceptions.md R235) -/

/-- A command of one stage ended with the stage's success, or with an error completion of the state it found. -/
theorem exec_single_ends {i : Instr} {body : StageBody} (hi : stagesOf i = [body]) {s t : State} (h : exec i s = .next t) :
    (∃ u, body s = .ok u ∧ t = u.succeed) ∨ (∃ e stage, t = s.errorCompletion e stage ∧ ¬t.Succeeded) := by
  rcases exec_single_next hi h with hok | ⟨e, stage, he, rfl⟩
  · exact .inl hok
  · have hb : body ∈ stageBodies := stagesOf_subset i (by rw [hi]; exact List.mem_singleton_self body)
    exact .inr ⟨e, stage, rfl, stageBody_raised_ne_noError hb he⟩

theorem exec_keepsOutMem {i : Instr} (hi : stagesOf i ⊆ bodiesWithoutOutput) {s t : State} (h : exec i s = .next t) :
    State.KeepsOutMem s t := fun a => by rw [exec_outMem hi h]

/-- Settles O24: each stage's result names only the fields of its "State written" line, and an error completion names none
of the tables. -/
theorem framesOfCommandsThatStoreNothing : Obligations.FramesOfCommandsThatStoreNothing := by
  refine fun s t => ⟨fun h => ?_, fun h => ?_, fun h => ?_, fun h => ?_, fun h => ?_, fun h => ?_⟩
  all_goals
    have hin := exec_keepsInput h
    have hout := exec_keepsOutMem (by simp [stagesOf, bodiesWithoutOutput]) h
  · cases h
    exact ⟨hin, ⟨rfl, rfl, rfl, rfl, rfl⟩, ⟨rfl, rfl, rfl⟩, ⟨rfl, rfl⟩, hout, rfl, rfl, rfl, rfl, rfl, rfl⟩
  · rcases exec_single_ends rfl h with ⟨u, hu, rfl⟩ | ⟨e, stage, rfl, hfail⟩
    · obtain ⟨-, bytes, -, rfl⟩ := freqBody_ok.1 hu
      exact ⟨hin, ⟨rfl, rfl, rfl⟩, ⟨rfl, rfl⟩, hout, rfl, rfl, rfl, fun _ => rfl⟩
    · exact ⟨hin, ⟨rfl, rfl, rfl⟩, ⟨rfl, rfl⟩, hout, rfl, rfl, rfl, fun hs => absurd hs hfail⟩
  · rcases exec_single_ends rfl h with ⟨u, hu, rfl⟩ | ⟨e, stage, rfl, hfail⟩
    · obtain ⟨-, rfl⟩ := buildTreeBody_ok.1 hu
      exact ⟨hin, ⟨rfl, rfl, rfl, rfl, rfl⟩, ⟨rfl, rfl⟩, hout, rfl, rfl, rfl, fun _ => ⟨rfl, rfl⟩⟩
    · exact ⟨hin, ⟨rfl, rfl, rfl, rfl, rfl⟩, ⟨rfl, rfl⟩, hout, rfl, rfl, rfl, fun hs => absurd hs hfail⟩
  · rcases exec_single_ends rfl h with ⟨u, hu, rfl⟩ | ⟨e, stage, rfl, hfail⟩
    · obtain ⟨-, rfl⟩ := genCodesBody_ok.1 hu
      exact ⟨hin, ⟨rfl, rfl, rfl, rfl, rfl⟩, ⟨rfl, rfl, rfl⟩, hout, rfl, rfl, rfl, rfl, fun _ => ⟨rfl, rfl⟩⟩
    · exact ⟨hin, ⟨rfl, rfl, rfl, rfl, rfl⟩, ⟨rfl, rfl, rfl⟩, hout, rfl, rfl, rfl, rfl, fun hs => absurd hs hfail⟩
  · rcases exec_single_ends rfl h with ⟨u, hu, rfl⟩ | ⟨e, stage, rfl, hfail⟩
    · obtain ⟨-, -, k, og, records, -, -, -, -, rfl⟩ := deserializeBody_ok.1 hu
      exact ⟨hin, ⟨rfl, rfl, rfl⟩, ⟨rfl, rfl⟩, hout, rfl, rfl, fun _ => ⟨rfl, rfl⟩⟩
    · exact ⟨hin, ⟨rfl, rfl, rfl⟩, ⟨rfl, rfl⟩, hout, rfl, rfl, fun hs => absurd hs hfail⟩
  · exact ⟨hin, hout⟩

/-! ### Composite commands are their stages in order (47_control.md R212, R213) -/

/-- A stage body reads nothing that the success of the command before it wrote. -/
def StageBody.IgnoresSuccess (body : StageBody) : Prop := ∀ s, body s.succeed = (body s).map State.succeed

theorem buildTreeBody_ignoresSuccess : StageBody.IgnoresSuccess buildTreeBody := by
  intro s
  simp only [buildTreeBody, State.succeed_status, Status.completed_freqValid, apply_ite (Except.map _)]
  exact ite_congr rfl (fun _ => rfl) fun _ => rfl

theorem genCodesBody_ignoresSuccess : StageBody.IgnoresSuccess genCodesBody := by
  intro s
  simp only [genCodesBody, State.succeed_status, Status.completed_treeValid, apply_ite (Except.map _)]
  exact ite_congr rfl (fun _ => rfl) fun _ => rfl

theorem packBody_ignoresSuccess : StageBody.IgnoresSuccess packBody := by
  intro s
  have hlength : s.succeed.packLength = s.packLength := rfl
  simp only [packBody, State.succeed_status, Status.completed_codesValid, Status.completed_freqSrc, State.succeed_ogSize,
    State.succeed_cfg, State.succeed_inMem, hlength, apply_ite (Except.map _)]
  refine ite_congr rfl (fun _ => rfl) fun _ => ite_congr rfl (fun _ => rfl) fun _ => ite_congr rfl (fun _ => rfl) fun _ => ?_
  cases s.inMem.coreRead 0 s.ogSize.toNat <;> rfl

theorem unpackBody_ignoresSuccess : StageBody.IgnoresSuccess unpackBody := by
  intro s
  have hwalk : s.succeed.decodePayload = s.decodePayload := rfl
  simp only [unpackBody, State.succeed_status, Status.completed_treeValid, Status.completed_freqSrc, State.succeed_ogSize,
    State.succeed_cfg, hwalk, apply_ite (Except.map _)]
  refine ite_congr rfl (fun _ => rfl) fun _ => ite_congr rfl (fun _ => rfl) fun _ => ?_
  cases s.decodePayload <;> rfl

/-- A stage after a success answers what it answers without one, as its own end overwrites that of the command before it. -/
theorem runStages_single_succeed {body : StageBody} (h : body.IgnoresSuccess) (s : State) :
    runStages [body] s.succeed = runStages [body] s := by
  have hbody := h s
  rcases hs : body s with (⟨e, stage⟩ | r) | u <;> rw [hs] at hbody
  · rw [runStages_raised hs, runStages_raised hbody]
    rfl
  · rw [runStages_faulted hs, runStages_faulted hbody]
  · rw [runStages_ok hs, runStages_ok hbody]
    rfl

/-- A command of one stage, run when a run of stages succeeded, appends its stage to the run. -/
theorem thenRun_runStages {bodies : List StageBody} (hb : bodies ⊆ stageBodies) {i : Instr} {body : StageBody}
    (hi : stagesOf i = [body]) (hbody : body.IgnoresSuccess) (s : State) :
    thenRun (runStages bodies s) i = runStages (bodies ++ [body]) s := by
  induction bodies generalizing s with
  | nil =>
    calc thenRun (runStages [] s) i
        = exec i s.succeed := rfl
      _ = runStages [body] s.succeed := by rw [exec_eq_runStages, hi]
      _ = _ := runStages_single_succeed hbody s
  | cons first rest ih =>
    rw [List.cons_subset] at hb
    rw [List.cons_append]
    rcases hs : first s with (⟨e, stage⟩ | r) | u
    · rw [runStages_raised hs, runStages_raised hs]
      exact if_neg (stageBody_raised_ne_noError hb.1 hs)
    · rw [runStages_faulted hs, runStages_faulted hs]
      rfl
    · rw [runStages_ok hs, runStages_ok hs, ih hb.2]

/-- Settles O45: stage by stage, a command after the ones before it. -/
theorem compositeCommandsAreTheirStagesInOrder : Obligations.CompositeCommandsAreTheirStagesInOrder := by
  refine fun s => ⟨?_, ?_⟩
  · rw [exec_eq_runStages .freq, stagesOf,
      thenRun_runStages (i := .buildTree) (by simp [stageBodies]) rfl buildTreeBody_ignoresSuccess,
      thenRun_runStages (i := .genCodes) (by simp [stageBodies]) rfl genCodesBody_ignoresSuccess,
      thenRun_runStages (i := .pack) (by simp [stageBodies]) rfl packBody_ignoresSuccess]
    rfl
  · rw [exec_eq_runStages .deserialize, stagesOf,
      thenRun_runStages (i := .buildTree) (by simp [stageBodies]) rfl buildTreeBody_ignoresSuccess,
      thenRun_runStages (i := .unpack) (by simp [stageBodies]) rfl unpackBody_ignoresSuccess]
    rfl

/-! ### ENCODE of a written input (47_control.md R212) -/

/-- The state in which the FREQ stage has counted the bytes. -/
def State.inputCounted (s : State) (bytes : List Byte) : State :=
  { s with
    freq := freqTable bytes
    distinct := BitVec.ofNat 9 (distinctCount (freqTable bytes))
    ogSize := s.inLen
    progress := s.inLen
    status := s.status.tableLoaded false }

/-- The state in which the GEN_CODES stage has derived the codes of the current tree. -/
def State.codesOfArena (s : State) : State :=
  { s with codeLen := s.treeCodes.len, codeBits := s.treeCodes.bits, status := s.status.codesMade }

/-- The state in which the first three stages of ENCODE have made the table, the tree and the codes of the bytes. -/
def State.codedInput (s : State) (bytes : List Byte) : State := (s.inputCounted bytes).treeOfTable.codesOfArena

section
variable {s : State} {bytes : List Byte} (hlength : bytes.length = s.inLen.toNat) (hbytes : s.inMem.Holds 0 bytes)
  (hinside : s.inLen.toNat ≤ s.cfg.inCap.toNat)
include hlength hbytes hinside

theorem freqBody_of_holds : freqBody s = .ok (s.inputCounted bytes) :=
  freqBody_ok.2 ⟨hinside, bytes, Memory.coreRead_ok_iff_holds.2 ⟨hlength, hbytes⟩, rfl⟩

theorem State.codedInput_codesOfInput : (s.codedInput bytes).CodesOfInput bytes :=
  codesOfInput_of_stages hlength hbytes (freqBody_of_holds hlength hbytes hinside) (buildTreeBody_ok.2 ⟨rfl, rfl⟩)
    (genCodesBody_ok.2 ⟨rfl, rfl⟩)

/-- Of a written input inside IN_MEM, ENCODE is PACK of its codes: the stages before PACK complete. -/
theorem exec_encode_of_holds : exec .encode s = runStages [packBody] (s.codedInput bytes) :=
  calc exec .encode s
      = runStages [buildTreeBody, genCodesBody, packBody] (s.inputCounted bytes) :=
        runStages_ok (freqBody_of_holds hlength hbytes hinside) _
    _ = runStages [genCodesBody, packBody] (s.inputCounted bytes).treeOfTable :=
        runStages_ok (buildTreeBody_ok.2 ⟨rfl, rfl⟩) _
    _ = _ := runStages_ok (genCodesBody_ok.2 ⟨rfl, rfl⟩) _

end

/-- Settles O47: PACK finds the codes of the input, and writes its container. -/
theorem encodeWritesTheContainerOfTheInput : Obligations.EncodeWritesTheContainerOfTheInput := by
  intro s bytes hne hlength hinside hbytes hroom
  have h := State.codedInput_codesOfInput hlength hbytes hinside
  have hsize : s.inLen ≠ 0#64 := fun hzero => hne (List.length_eq_zero_iff.1 (by rw [hlength, hzero]; rfl))
  have hfits : (s.codedInput bytes).packLength ≤ (s.codedInput bytes).cfg.outCap.toNat :=
    h.containerOf_length.symm.trans_le hroom
  have hrun : exec .encode s = .next ((s.codedInput bytes).packed bytes).succeed :=
    (exec_encode_of_holds hlength hbytes hinside).trans
      (runStages_ok (h.packBody_ok.2 ⟨rfl, rfl, hsize, hfits, rfl⟩) [])
  have hkeeps := exec_keepsInput hrun
  have hholds := (s.codedInput bytes).packed_holds bytes
  have hcontainer := Memory.holdsContainer_of_holds hholds
  rw [h.encodeBits_eq, h.ogSize_eq] at hcontainer
  rw [State.packed_succeed] at hrun hkeeps
  exact ⟨_, hrun, rfl, hholds, hcontainer, (State.packed_outLen hfits bytes).trans h.containerOf_length.symm,
    fun a ha => h.outMem_from (h.containerOf_length ▸ ha), rfl, rfl, rfl, rfl, hkeeps⟩

/-! ### ENCODE of the empty input (47_control.md R212, 44_bitpacker.md R154) -/

/-- A symbol that is not present has no code. -/
theorem State.CodesOk.codeLen_of_absent {s : State} (h : s.CodesOk) {c : Byte} (hc : atSymbol s.freq c = 0#64) :
    atSymbol s.codeLen c = 0#8 := by
  obtain ⟨paths, hpaths⟩ := exists_codePaths s.freq
  exact (hpaths.code_of_absent h hc).1

theorem distinctCount_freqTable_nil : distinctCount (freqTable []) = 0 := distinctCount_freqTable (by decide)

/-- The empty input has an empty tree. -/
theorem buildTree_freqTable_nil : (buildTree (freqTable [])).length = 0 := by
  rw [buildTree_length, distinctCount_freqTable_nil]

/-- Settles O46: the stages before PACK complete on the empty table and the empty tree, and PACK's check of the size raises. -/
theorem encodeOfEmptyInputRaisesEmptyInput : Obligations.EncodeOfEmptyInputRaisesEmptyInput := by
  intro s hzero
  have hlength : ([] : List Byte).length = s.inLen.toNat := by rw [hzero]; rfl
  have hbytes : s.inMem.Holds 0 [] := fun j hj => absurd hj (Nat.not_lt_zero j)
  have hinside : s.inLen.toNat ≤ s.cfg.inCap.toNat := hlength ▸ Nat.zero_le _
  have hrun : exec .encode s = .next ((s.codedInput []).errorCompletion .emptyInput 6#4) :=
    (exec_encode_of_holds hlength hbytes hinside).trans (runStages_raised (packBody_of_emptyInput rfl rfl hzero) [])
  have hcodes := (State.codedInput_codesOfInput hlength hbytes hinside).codes
  refine ⟨_, hrun, rfl, rfl, rfl, congrArg (BitVec.ofNat 9) distinctCount_freqTable_nil,
    congrArg (BitVec.ofNat 10) buildTree_freqTable_nil, congrArg (fun n => BitVec.ofNat 9 (n - 1)) buildTree_freqTable_nil,
    rfl, rfl, fun c => hcodes.codeLen_of_absent (atSymbol_freqTable [] c), fun _ => rfl, exec_keepsInput hrun⟩

end Sys2Proof.Machine

/-! PROOFS. How a command ends: irq at its completion, the errors of its stages and what an error completion writes, the
checks that come first, and the idle block (60_exceptions.md R230 to R255). -/

namespace Sys2Proof.Machine

/-! ### How a command ends (60_exceptions.md R230, R235) -/

/-- A run of stages that answers a next state ended with success, or with an error that one of its stages raised. -/
theorem runStages_succeeded_or_raised {bodies : List StageBody} {s t : State} (h : runStages bodies s = .next t) :
    (∃ u : State, t = u.succeed) ∨
      (∃ body ∈ bodies, ∃ (u : State) (e : ErrKind) (stage : BitVec 4),
        body u = .error (.raised e stage) ∧ t = u.errorCompletion e stage) := by
  induction bodies generalizing s with
  | nil =>
    cases h
    exact .inl ⟨s, rfl⟩
  | cons body rest ih =>
    rcases runStages_cons_next.1 h with ⟨u, -, hrest⟩ | ⟨e, stage, he, rfl⟩
    · exact (ih hrest).imp_right fun ⟨b, hb, hraised⟩ => ⟨b, List.mem_cons_of_mem _ hb, hraised⟩
    · exact .inr ⟨body, List.mem_cons_self, s, e, stage, he, rfl⟩

/-- The stages that raise an error; IllegalCommand comes from no stage, and NONE is no error (60_exceptions.md R230). -/
def ErrKind.stages : ErrKind → List (BitVec 4)
  | .noError | .illegalCommand => []
  | .emptyInput => [6#4]
  | .malformedContainer => [7#4, 8#4]
  | .inconsistentFrequencyTable => [7#4]
  | .sequenceError => [4#4, 5#4, 6#4, 8#4]
  | .capacityExceeded => [3#4, 6#4, 7#4, 8#4]

theorem stageBody_raised_mem_stages {body : StageBody} (hb : body ∈ stageBodies) {s : State} {e : ErrKind}
    {stage : BitVec 4} (h : body s = .error (.raised e stage)) : stage ∈ e.stages := by
  simp only [stageBodies, List.mem_cons, List.not_mem_nil, or_false] at hb
  rcases hb with rfl | rfl | rfl | rfl | rfl | rfl | rfl
  · obtain ⟨-, rfl, rfl⟩ := freqBody_raised.1 h
    decide
  · obtain ⟨-, rfl, rfl⟩ := buildTreeBody_raised.1 h
    decide
  · obtain ⟨-, rfl, rfl⟩ := genCodesBody_raised.1 h
    decide
  · obtain ⟨rfl, rfl | rfl | rfl⟩ := packBody_raised h <;> decide
  · obtain ⟨rfl, rfl | rfl | rfl⟩ := deserializeBody_raised h <;> decide
  · obtain ⟨rfl, rfl | rfl | rfl⟩ := unpackBody_raised h <;> decide
  · cases h

/-- ERR and ERR_STAGE after a command: both 0, or an error with a stage that raises it. -/
theorem exec_errStage {i : Instr} {s t : State} (h : exec i s = .next t) :
    (t.status.err = .noError ∧ t.status.errStage = 0#4) ∨ t.status.errStage ∈ t.status.err.stages := by
  rw [exec_eq_runStages] at h
  rcases runStages_succeeded_or_raised h with ⟨u, rfl⟩ | ⟨body, hb, u, e, stage, he, rfl⟩
  · exact .inl ⟨rfl, rfl⟩
  · exact .inr (stageBody_raised_mem_stages (stagesOf_subset i hb) he)

/-- Settles O21: the rows of `ErrKind.stages`, error by error. -/
theorem errorsComeFromTheirStages : Obligations.ErrorsComeFromTheirStages := by
  intro i s t h
  rcases exec_errStage h with hsuccess | hraised
  · exact .inl hsuccess
  · cases herr : t.status.err with
    | noError | illegalCommand =>
      rw [herr] at hraised
      cases hraised
    | emptyInput | malformedContainer | inconsistentFrequencyTable | sequenceError | capacityExceeded =>
      simpa [herr, ErrKind.stages] using hraised

/-- A command other than ENCODE and DECODE has no stage (NOP), or one, which raises at the command's opcode. -/
theorem stagesOf_noncomposite {i : Instr} (hencode : i ≠ .encode) (hdecode : i ≠ .decode) :
    stagesOf i = [] ∨ ∃ body, stagesOf i = [body] ∧
      ∀ {s : State} {e : ErrKind} {stage : BitVec 4}, body s = .error (.raised e stage) → stage = i.opcode := by
  cases i with
  | nop => exact .inl rfl
  | encode => exact absurd rfl hencode
  | decode => exact absurd rfl hdecode
  | freq => exact .inr ⟨freqBody, rfl, fun h => (freqBody_raised.1 h).2.2⟩
  | buildTree => exact .inr ⟨buildTreeBody, rfl, fun h => (buildTreeBody_raised.1 h).2.2⟩
  | genCodes => exact .inr ⟨genCodesBody, rfl, fun h => (genCodesBody_raised.1 h).2.2⟩
  | pack => exact .inr ⟨packBody, rfl, fun h => (packBody_raised h).1⟩
  | deserialize => exact .inr ⟨deserializeBody, rfl, fun h => (deserializeBody_raised h).1⟩
  | unpack => exact .inr ⟨unpackBody, rfl, fun h => (unpackBody_raised h).1⟩
  | clear => exact .inr ⟨clearBody, rfl, fun h => nomatch h⟩

/-- Settles O20: only the command's one stage can have raised, and it raised in the state the command found. -/
theorem errorCompletionIsPrecise : Obligations.ErrorCompletionIsPrecise := by
  intro i s t hencode hdecode h herr
  rcases stagesOf_noncomposite hencode hdecode with hnil | ⟨body, hone, hopcode⟩
  · rw [exec_eq_runStages, hnil] at h
    cases h
    exact absurd rfl herr
  · rcases exec_single_next hone h with ⟨u, -, rfl⟩ | ⟨e, stage, he, rfl⟩
    · exact absurd rfl herr
    · obtain rfl := hopcode he
      rfl

/-! ### irq (60_exceptions.md R245) -/

/-- Settles O18: a command that ends sets DONE, and no command writes DONE_IE. -/
theorem interruptIsDoneAndEnabled : Obligations.InterruptIsDoneAndEnabled := by
  refine ⟨fun s => by rw [State.irq, Bool.and_eq_true], fun i s t h => ?_, fun v s t h => ?_⟩
  · have hkeeps := exec_keepsInput h
    rw [exec_eq_runStages] at h
    obtain ⟨-, hdone, -⟩ := runStages_ends h
    rw [State.irq, hdone, hkeeps.doneIe, Bool.true_and]
  · cases h
    rfl

/-! ### The checks that come first (60_exceptions.md R232) -/

theorem packBody_of_missing_prerequisite {s : State} (h : s.status.codesValid = false ∨ s.status.freqSrc = true) :
    packBody s = .error (.raised .sequenceError 6#4) := by
  rcases h with h | h <;> simp [packBody, h, Instr.opcode]

theorem unpackBody_of_missing_prerequisite {s : State} (h : s.status.treeValid = false ∨ s.status.freqSrc = false) :
    unpackBody s = .error (.raised .sequenceError 8#4) := by
  rcases h with h | h <;> simp [unpackBody, h, Instr.opcode]

theorem unpackBody_of_over_capacity {s : State} (htree : s.status.treeValid = true) (hsource : s.status.freqSrc = true)
    (hover : s.cfg.outCap.toNat < s.ogSize.toNat) : unpackBody s = .error (.raised .capacityExceeded 8#4) := by
  simp [unpackBody, htree, hsource, hover, Instr.opcode]

theorem deserializeBody_of_over_capacity {s : State} (hover : s.cfg.inCap.toNat < s.inLen.toNat) :
    deserializeBody s = .error (.raised .capacityExceeded 7#4) := by
  rw [deserializeBody, if_pos hover]
  rfl

/-- Settles O23: each check stands first in its stage, so the stage raises in the state it found. -/
theorem prerequisiteAndCapacityChecksComeFirst : Obligations.PrerequisiteAndCapacityChecksComeFirst := fun _ =>
  ⟨fun h => runStages_raised (buildTreeBody_raised.2 ⟨h, rfl, rfl⟩) [],
    fun h => runStages_raised (genCodesBody_raised.2 ⟨h, rfl, rfl⟩) [],
    fun h => runStages_raised (packBody_of_missing_prerequisite h) [],
    fun h => runStages_raised (unpackBody_of_missing_prerequisite h) [],
    exec_freq_over_capacity,
    fun h => runStages_raised (deserializeBody_of_over_capacity h) [],
    fun htree hsource hover => runStages_raised (unpackBody_of_over_capacity htree hsource hover) []⟩

/-! ### The idle block (60_exceptions.md R255) -/

/-- With nothing pending and no host operation left, either agent's turn passes (log 9). -/
theorem agentMove_idle {s : State} (hpending : s.pending = none) (hprog : s.hostProg = []) (a : Agent) :
    agentMove a s = .next s := by
  cases a with
  | core => simp only [agentMove, coreMove, hpending]
  | host => simp only [agentMove, hostMove, hprog]

/-- Settles O16: whichever agent the schedule names, its turn is taken and passes. -/
theorem idleBlockKeepsItsState : Obligations.IdleBlockKeepsItsState := fun s hfaults hpending hprog =>
  step_of_move_next hfaults (agentMove_idle (s := s.turnTaken) hpending hprog s.mover)

end Sys2Proof.Machine

/-! PROOFS. Reset, and the bounded wait for a pending command (70_reset_and_hazards.md R260, R261, R272, R273). -/

namespace Sys2Proof.Machine

/-! ### The reset action (70_reset_and_hazards.md R260, R261) -/

theorem coreMove_of_no_pending {s : State} (hpending : s.pending = none) : coreMove s = .next s := by
  simp only [coreMove, hpending]

/-- Settles O10: the host's reset is the reset action, after which nothing is pending. -/
theorem resetActionRestoresResetValuesAndCancelsTheCommand :
    Obligations.ResetActionRestoresResetValuesAndCancelsTheCommand := fun s =>
  ⟨s.resetAction, rfl, rfl, rfl, rfl, coreMove_of_no_pending (s := s.resetAction) rfl⟩

/-! ### Every move is a next state or a model fault -/

theorem hostStep_not_refused (op : HostOp) (s : State) (r : Refusal) : hostStep op s ≠ .refused r := by
  cases op with
  | regRead n =>
    simp only [hostStep, hostRegRead]
    split
    · nofun
    · split <;> nofun
  | regWrite n v =>
    simp only [hostStep, hostRegWrite, hostWriteInLen]
    split
    case h_5 => split <;> nofun
    all_goals nofun
  | inWrite a b =>
    simp only [hostStep, hostInWrite]
    split
    · nofun
    · split <;> nofun
  | inRead a =>
    simp only [hostStep, hostInRead]
    split
    · nofun
    · split <;> nofun
  | outRead a =>
    simp only [hostStep, hostOutRead]
    split
    · nofun
    · split
      · nofun
      · split <;> nofun
  | outWrite a b => nofun
  | reset => nofun
  | wait =>
    simp only [hostStep, hostWait]
    split <;> nofun
  | waitIrq =>
    simp only [hostStep, hostWaitIrq]
    split <;> nofun

theorem agentMove_not_refused (a : Agent) (s : State) (r : Refusal) : agentMove a s ≠ .refused r := by
  cases a with
  | core =>
    simp only [agentMove, coreMove]
    split
    · nofun
    · split
      · exact exec_not_refused _ _ _
      · nofun
  | host =>
    simp only [agentMove, hostMove]
    split
    · nofun
    · exact hostStep_not_refused _ _ _

/-- With no fault recorded there is a step: a fault its move meets is recorded (log 7). -/
theorem exists_step_of_faultless {s : State} (hfaults : s.faults = []) : ∃ t, step s = .next t := by
  cases hmove : agentMove s.mover s.turnTaken with
  | next t => exact ⟨t, step_of_move_next hfaults hmove⟩
  | fault r => exact ⟨_, step_of_move_fault hfaults hmove⟩
  | refused r => exact absurd hmove (agentMove_not_refused _ _ r)

/-! ### What a step leaves pending, and of the schedule (log 1, log 9) -/

theorem coreMove_ends {s t : State} (hpending : s.pending.isSome = true) (h : coreMove s = .next t) :
    t.pending = none := by
  obtain ⟨v, hv⟩ := Option.isSome_iff_exists.1 hpending
  cases hd : decode v with
  | ok i =>
    rw [coreMove_of_decode hv hd, exec_eq_runStages] at h
    exact (runStages_ends h).2.2
  | error e =>
    rw [coreMove_of_decode_error hv hd] at h
    cases h
    rfl

theorem writeCtrl_sched (s : State) (v : Word) : (s.writeCtrl v).sched = s.sched := by
  unfold State.writeCtrl
  split <;> rfl

theorem hostStep_keeps_sched {op : HostOp} {s t : State} (h : hostStep op s = .next t) : t.sched = s.sched := by
  have he := hostStep_effect h
  cases op <;> simp only [HostOp.Effect] at he
  case regWrite n v =>
    rcases hostRegWrite_next he with ⟨-, rfl⟩ | ⟨-, rfl⟩ | ⟨-, rfl⟩ | ⟨-, rfl⟩ | ⟨-, rfl⟩
    · exact writeCtrl_sched s v
    all_goals rfl
  case inWrite a b =>
    unfold hostInWrite at he
    split at he
    · cases he
    · split at he <;> cases he
      rfl
  case reset => rw [he, State.resetAction_sched]
  all_goals
    obtain ⟨prog, reads, draws, rfl⟩ := he
    rfl

theorem hostMove_keeps_sched {s t : State} (h : hostMove s = .next t) : t.sched = s.sched := by
  cases hprog : s.hostProg with
  | nil =>
    simp only [hostMove, hprog] at h
    cases h
    rfl
  | cons op rest =>
    simp only [hostMove, hprog] at h
    exact hostStep_keeps_sched (s := { s with hostProg := rest }) h

/-- While a command is pending the host moves only where the schedule names it (log 9). -/
theorem sched_of_host_moves {s : State} (hpending : s.pending.isSome = true) (hmover : s.mover = .host) :
    s.sched = .host :: s.sched.tail := by
  cases hsched : s.sched with
  | nil => simp [State.mover, State.coreReady, hsched, hpending] at hmover
  | cons a rest =>
    simp only [State.mover, hsched] at hmover
    rw [hmover, List.tail_cons]

/-- The command is waited for no longer: it completed or was cancelled, or the model stopped at a fault. -/
def State.WaitOver (s : State) : Prop := s.pending = none ∨ s.faults ≠ []

theorem State.not_waitOver_iff {s : State} : ¬s.WaitOver ↔ s.faults = [] ∧ s.pending.isSome = true := by
  rw [State.WaitOver, not_or, not_not, ← ne_eq, Option.ne_none_iff_isSome, and_comm]

/-- A step with a command pending ends the wait, or the host took its turn from the schedule. -/
theorem step_of_pending {s t : State} (hpending : s.pending.isSome = true) (h : step s = .next t) :
    t.WaitOver ∨ s.sched = .host :: t.sched := by
  obtain ⟨hfaults, hmove | ⟨r, -, rfl⟩⟩ := step_next.1 h
  · cases hmover : s.mover with
    | core =>
      rw [hmover, agentMove] at hmove
      exact .inl (.inl (coreMove_ends (s := s.turnTaken) hpending hmove))
    | host =>
      rw [hmover, agentMove] at hmove
      rw [hostMove_keeps_sched hmove, State.turnTaken_sched]
      exact .inr (sched_of_host_moves hpending hmover)
  · exact .inl (.inr (by simp [State.recordFault, hfaults]))

/-! ### The bounded wait (70_reset_and_hazards.md R272, R273) -/

theorem core_run_succ {s t : State} (h : step s = .next t) (k : Nat) : core.run (k + 1) s = core.run k t := by
  simp only [Host.Core.run, core, h]

/-- Each step that leaves the command waiting uses up an entry of the schedule. -/
theorem exists_run_waitOver (s : State) (hfaults : s.faults = []) (hpending : s.pending.isSome = true) :
    ∃ k t, k ≤ s.sched.length + 1 ∧ core.run k s = .next t ∧ t.WaitOver := by
  obtain ⟨u, hu⟩ := exists_step_of_faultless hfaults
  by_cases hover : u.WaitOver
  · exact ⟨1, u, Nat.le_add_left _ _, core_run_succ hu 0, hover⟩
  · have hsched := (step_of_pending hpending hu).resolve_left hover
    have hlength : s.sched.length = u.sched.length + 1 := by rw [hsched, List.length_cons]
    obtain ⟨hfaults', hpending'⟩ := State.not_waitOver_iff.1 hover
    obtain ⟨k, t, hk, ht, hend⟩ := exists_run_waitOver u hfaults' hpending'
    exact ⟨k + 1, t, by omega, (core_run_succ hu k).trans ht, hend⟩
termination_by s.sched.length

/-- Settles O15, by the length of the schedule: only the host's turns let the command wait. -/
theorem pendingCommandIsTakenInBoundedSteps : Obligations.PendingCommandIsTakenInBoundedSteps :=
  exists_run_waitOver

end Sys2Proof.Machine
